-- ==== Sys2Proof/Word.lean ====
section
/-!
DEFINITION. The widths of the three interchange formats and of the operation code (00_scope.md R8, 10_state.md R23).
Bit 0 of a vector is the bit of weight 1 (R9); `++` is the spec's `{a, b}`, with `a` in the high bits.
-/

namespace Sys2Proof

/-- A binary16 pattern, the "Half" of the spec (R8, R60). -/
abbrev Half := BitVec 16

/-- A binary32 pattern (R8, R67). -/
abbrev Single := BitVec 32

/-- A binary64 pattern (R8, R66). -/
abbrev Wide := BitVec 64

/-- The value on the operation-select port `in.op` (R23). -/
abbrev Code := BitVec 4

/-- A byte of a host's buffer (20_memory.md R43); no port of the block carries one (R42). -/
abbrev Byte := BitVec 8

/-- The number of a host variable: there are sixteen of each width (10_state.md R27). -/
abbrev VarNo := Fin 16

end Sys2Proof
end

