-- ==== Sys2Proof/Machine/Rounding.lean ====
section
/-!
DEFINITION. Exact numbers and the one rounding of this hardware, to nearest with ties to even (00_scope.md R10, R13 to R15,
R17; R7 `TIE` and `WIDE_RM`). The rationals of the rules are held as fractions that are not reduced, so that every rule
computes in exact integer arithmetic (DESIGN CHOICE, log entry 13, safe); `Fraction.toRat` is the number a fraction stands for.
-/

namespace Sys2Proof.Machine

/-- An exact rational number (R10) as a fraction, not reduced; every fraction the rules build has `den > 0`
(DESIGN CHOICE, log entry 13, safe). -/
structure Fraction where
  num : Int
  den : Nat
deriving DecidableEq, Repr

/-- The number a fraction stands for. -/
def Fraction.toRat (v : Fraction) : ℚ := (v.num : ℚ) / (v.den : ℚ)

/-- `v / 2^e`, exactly. -/
def Fraction.divPow2 (v : Fraction) (e : Int) : Fraction :=
  match e with
  | .ofNat k => ⟨v.num, v.den * 2 ^ k⟩
  | .negSucc k => ⟨v.num * 2 ^ (k + 1), v.den⟩

/-- `(-1)^S * m * 2^e`, the form of every finite value of the three formats (30_encoding.md R62, R66, R67). -/
def Fraction.scaled (S : BitVec 1) (m : Nat) (e : Int) : Fraction :=
  Fraction.divPow2 ⟨if S = 1#1 then -(m : Int) else (m : Int), 1⟩ (-e)

/-- `|v|`. -/
def Fraction.abs (v : Fraction) : Fraction := ⟨(v.num.natAbs : Int), v.den⟩

/-- `u + v`, exactly. -/
def Fraction.add (u v : Fraction) : Fraction := ⟨u.num * v.den + v.num * u.den, u.den * v.den⟩

/-- `u * v`, exactly. -/
def Fraction.mul (u v : Fraction) : Fraction := ⟨u.num * v.num, u.den * v.den⟩

/-- `u / v`, exactly, for `v > 0` (its only use is the quotient of two magnitudes, 42_arithmetic.md R123). -/
def Fraction.div (u v : Fraction) : Fraction := ⟨u.num * v.den, u.den * v.num.natAbs⟩

/-- `rte(M, sh)` (R13): `M / 2^sh` to the nearest integer, ties to the even one. -/
def rte (M sh : Nat) : Nat :=
  if sh = 0 then M
  else
    let n0 := M / 2 ^ sh
    let rem := M % 2 ^ sh
    let half := 2 ^ (sh - 1)
    if rem > half ∨ (rem = half ∧ n0 % 2 = 1) then n0 + 1 else n0

/-- `roundTE(v)` (R14), for `v ≥ 0`: the integer nearest `v`, and of two equally near the even one. -/
def roundTE (v : Fraction) : Nat :=
  let n := v.num.natAbs
  let q := n / v.den
  let r := n % v.den
  if 2 * r > v.den ∨ (2 * r = v.den ∧ q % 2 = 1) then q + 1 else q

/-- `floor(log2(v))` (R15), for `v > 0`: the largest `k` with `2^k ≤ v`. Below 1 it is minus the least `j` with `1 ≤ v * 2^j`. -/
def floorLog2 (v : Fraction) : Int :=
  let n := v.num.natAbs
  if v.den ≤ n then ((n / v.den).log2 : Int) else -(((v.den - 1) / n).log2 + 1 : Int)

/-- What `RNE` answers (R15): `INF`, or the pair `(k, N)` that stands for the value `N * 2^(k - p + 1)`. -/
inductive Rounded where
  | inf
  | fin (k : Int) (N : Nat)
deriving DecidableEq, Repr

/-- The third component of R15's triple, `N * q` with `q = 2^(k - p + 1)`; `INF` has none. -/
def Rounded.value (p : Nat) : Rounded → Option Fraction
  | .inf => none
  | .fin k N => some (Fraction.scaled 0#1 N (k - p + 1))

/-- `v ≥ 2^emax * (2 - 2^-p)`, the overflow threshold of R15, cleared of its denominators. -/
def overflows (p emax : Nat) (v : Fraction) : Bool :=
  decide (v.den * (2 ^ emax * (2 ^ (p + 1) - 1)) ≤ v.num.natAbs * 2 ^ p)

/-- `RNE(p, emin, emax, v)` (R15), for `v > 0`: `v` rounded to the format with `p` significand bits and normal exponents
`emin` to `emax`. -/
def rne (p : Nat) (emin : Int) (emax : Nat) (v : Fraction) : Rounded :=
  if overflows p emax v then .inf
  else
    let k := max emin (floorLog2 v)
    .fin k (roundTE (v.divPow2 (k - p + 1)))

end Sys2Proof.Machine
end

