-- ==== Sys2Proof/Machine/Formats.lean ====
section
/-!
DEFINITION. The three number formats: fields, categories and values (30_encoding.md Part 1, R60 to R67), and the comparison
`eq16` of claims (00_scope.md R16).
-/

namespace Sys2Proof.Machine

/-- The five disjoint classes of values (R61; 00_scope.md glossary). -/
inductive Category where
  | zero
  | denormalized
  | normalized
  | infinity
  | nan
deriving DecidableEq, Repr

/-- The category that an exponent field of `n` bits and a fraction field decide (R61, R66, R67). -/
def categoryOf {n m : Nat} (e : BitVec n) (f : BitVec m) : Category :=
  if e = 0 then (if f = 0 then .zero else .denormalized)
  else if e = BitVec.allOnes n then (if f = 0 then .infinity else .nan)
  else .normalized

/-- `s = h[15]` (R60). -/
def sign16 (h : Half) : BitVec 1 := h.extractLsb' 15 1
/-- `e = h[14:10]`, biased by 15 (R60). -/
def exp16 (h : Half) : BitVec 5 := h.extractLsb' 10 5
/-- `f = h[9:0]` (R60). -/
def frac16 (h : Half) : BitVec 10 := h.extractLsb' 0 10

/-- `S = b[31]` (R67). -/
def sign32 (b : Single) : BitVec 1 := b.extractLsb' 31 1
/-- `E = b[30:23]`, biased by 127 (R67). -/
def exp32 (b : Single) : BitVec 8 := b.extractLsb' 23 8
/-- `F = b[22:0]` (R67). -/
def frac32 (b : Single) : BitVec 23 := b.extractLsb' 0 23

/-- `S = a[63]` (R66). -/
def sign64 (a : Wide) : BitVec 1 := a.extractLsb' 63 1
/-- `E = a[62:52]`, biased by 1023 (R66). -/
def exp64 (a : Wide) : BitVec 11 := a.extractLsb' 52 11
/-- `F = a[51:0]` (R66). -/
def frac64 (a : Wide) : BitVec 52 := a.extractLsb' 0 52

/-- The category of a binary16 pattern (R61). -/
def category16 (h : Half) : Category := categoryOf (exp16 h) (frac16 h)
/-- The category of a binary32 pattern (R67). -/
def category32 (b : Single) : Category := categoryOf (exp32 b) (frac32 b)
/-- The category of a binary64 pattern (R66). -/
def category64 (a : Wide) : Category := categoryOf (exp64 a) (frac64 a)

/-- A pattern of a finite value: neither an infinity nor a NaN. -/
def Category.isFinite : Category → Bool
  | .zero | .denormalized | .normalized => true
  | .infinity | .nan => false

/-- `val16(h)` for a finite pattern (R62). On an infinity or a NaN, which have no rational value, it is the formula of the
normalized row; no rule reads it there, and `value16` gives R62 whole (DESIGN
CHOICE, log entry 10, safe). -/
def val16 (h : Half) : Fraction :=
  if exp16 h = 0 ∧ frac16 h = 0 then ⟨0, 1⟩
  else if exp16 h = 0 then Fraction.scaled (sign16 h) (frac16 h).toNat (-24)
  else Fraction.scaled (sign16 h) (1024 + (frac16 h).toNat) ((exp16 h).toNat - 25)

/-- `val32(b)` for a finite pattern (R67); elsewhere as for `val16`. -/
def val32 (b : Single) : Fraction :=
  if exp32 b = 0 ∧ frac32 b = 0 then ⟨0, 1⟩
  else if exp32 b = 0 then Fraction.scaled (sign32 b) (frac32 b).toNat (-149)
  else Fraction.scaled (sign32 b) (2 ^ 23 + (frac32 b).toNat) ((exp32 b).toNat - 150)

/-- `val64(a)` for a finite pattern (R66); elsewhere as for `val16`. -/
def val64 (a : Wide) : Fraction :=
  if exp64 a = 0 ∧ frac64 a = 0 then ⟨0, 1⟩
  else if exp64 a = 0 then Fraction.scaled (sign64 a) (frac64 a).toNat (-1074)
  else Fraction.scaled (sign64 a) (2 ^ 52 + (frac64 a).toNat) ((exp64 a).toNat - 1075)

/-- The value of a pattern (R62, R66, R67): a number, a signed infinity, or none for a NaN. `+0` and `-0` are distinct patterns of
equal value. -/
inductive Value where
  | finite (v : ℚ)
  | infinity (S : BitVec 1)
  | nan
deriving DecidableEq, Repr

/-- The value that a category, a sign and a finite value decide (R62, R66, R67). -/
def valueBy (c : Category) (S : BitVec 1) (v : Fraction) : Value :=
  match c with
  | .zero | .denormalized | .normalized => .finite v.toRat
  | .infinity => .infinity S
  | .nan => .nan

/-- The value of a binary16 pattern (R62). -/
def value16 (h : Half) : Value := valueBy (category16 h) (sign16 h) (val16 h)
/-- The value of a binary32 pattern (R67). -/
def value32 (b : Single) : Value := valueBy (category32 b) (sign32 b) (val32 b)
/-- The value of a binary64 pattern (R66). -/
def value64 (a : Wide) : Value := valueBy (category64 a) (sign64 a) (val64 a)

/-- `isNaN16(h)` (R63): `h[14:10] == 31` and `h[9:0] != 0`. -/
def isNaN16 (h : Half) : Bool := category16 h == .nan

/-- `eq16(a, b)` (00_scope.md R16): equal patterns, or both NaN. A comparison for claims, no operation of the block. -/
def eq16 (a b : Half) : Bool := a == b || (isNaN16 a && isNaN16 b)

/-- `isNaN64` of 42_arithmetic.md section 2. -/
def isNaN64 (a : Wide) : Bool := category64 a == .nan
/-- `isInf64` of 42_arithmetic.md section 2. -/
def isInf64 (a : Wide) : Bool := category64 a == .infinity
/-- `isZero64` of 42_arithmetic.md section 2. -/
def isZero64 (a : Wide) : Bool := category64 a == .zero

end Sys2Proof.Machine
end

