-- ==== Sys2Proof/Machine/Ports.lean ====
section
/-!
DEFINITION. The ports of the block (10_state.md R23, R24). They are not state of the block, which has none (R20); they are
the values that stand on its wires.
-/

namespace Sys2Proof

/-- The values on the four input ports, which together are one command in the format `CMD` (R23, R69). -/
structure Inputs where
  /-- `in.op`: the operation select. -/
  op : Code
  /-- `in.a`: the wide operand; ENC32 reads its low 32 bits. -/
  a : Wide
  /-- `in.x`: the first, or only, binary16 operand. -/
  x : Half
  /-- `in.y`: the second binary16 operand. -/
  y : Half
deriving DecidableEq, Repr

/-- The values on the three output ports (R24). -/
structure Outputs where
  /-- `out.r16`: the binary16 result, 0 where the operation gives none. -/
  r16 : Half
  /-- `out.r64`: the binary64 result, or the binary32 result with 32 zero bits above it, or 0. -/
  r64 : Wide
  /-- `out.bad_op`: 1 exactly when the operation code is unassigned. -/
  badOp : Bool
deriving DecidableEq, Repr

end Sys2Proof
end

