-- ==== Sys2Proof/Machine/Command.lean ====
section
/-!
DEFINITION. The commands of the host harness (10_state.md R27, R28; 30_encoding.md R74).
A command names a destination variable and its sources; the harness turns it into the port values of one use of the block.
-/

namespace Sys2Proof

/-- A source of `n` bits (R74): a host variable of the width the operation reads, or an immediate pattern.
`Src 16` names an `h` variable, `Src 64` a `w` variable, and `Src 32` the low 32 bits of a `w` variable (ENC32). -/
inductive Src (n : Nat) where
  | var (i : VarNo)
  | imm (v : BitVec n)
deriving DecidableEq, Repr

/-- What a command writes (R28): nothing, an `h` variable (from `out.r16`) or a `w` variable (from `out.r64`). -/
inductive Dest where
  | nowhere
  | h (i : VarNo)
  | w (i : VarNo)
deriving DecidableEq, Repr

/-- One host command (R74), and the raw command word of program P4 (95_test_vectors.md Part 3), which drives the four ports
as given and names no destination. The raw word is how a command with an unassigned code, or with values on ports the
operation does not read (vectors U1 to U4), comes to the block. DEDUCED (log entry 8), unsafe. -/
inductive Command where
  | enc64 (d : VarNo) (src : Src 64)
  | enc32 (d : VarNo) (src : Src 32)
  | dec64 (d : VarNo) (src : Src 16)
  | dec32 (d : VarNo) (src : Src 16)
  | add (d : VarNo) (l r : Src 16)
  | sub (d : VarNo) (l r : Src 16)
  | mul (d : VarNo) (l r : Src 16)
  | div (d : VarNo) (l r : Src 16)
  | neg (d : VarNo) (src : Src 16)
  | mov16 (d : VarNo) (src : Src 16)
  | raw (p : Inputs)
deriving DecidableEq, Repr

end Sys2Proof
end

