-- ==== Sys2Proof/Machine/State.lean ====
section
/-!
DEFINITION. The state of the modelled machine: the values on the block's ports and the host harness that uses it.
The block itself holds no state (10_state.md R20): `ins` and `outs` are what stands on its wires, and `Combinational`
(Safety.lean) says that `outs` is at all times a function of `ins`. The harness is R27 and R28. There is no memory (R40),
no program counter (R21) and no register (R20). Log entry 1.
-/

namespace Sys2Proof.Machine

/-- What the harness records when a command faults; a recorded fault is never cleared (93_implementation_defined.md Part 1,
92_eei_decisions.md D3). A step never stops with one: "the commands after the fault still run" (95_test_vectors.md P4). -/
inductive Fault where
  /-- `BadOp` (60_exceptions.md R160), with the code, as P4 lists it: recorded by the harness when `out.bad_op` is 1. Safe: a
  claim premised on "no fault recorded" is false for the run (D3). -/
  | badOp (code : Code)
  /-- `UnwrittenVariable` (10_state.md R27): recorded by the harness when a command reads a variable that holds no value.
  Safe in the same way (D17). -/
  | unwrittenVariable
deriving DecidableEq, Repr

/-- Why a step could give an instruction no meaning. No step does: every instruction has its meaning. -/
inductive Refusal where
  /-- Answered by an arm of `exec` whose instruction is not modelled; no arm is left so. Safe. -/
  | notModelled (mnemonic : String)
deriving DecidableEq, Repr

/-- The machine between two commands. -/
structure State where
  /-- The values on the input ports (R23). -/
  ins : Inputs
  /-- The values on the output ports (R24). -/
  outs : Outputs
  /-- `h0` to `h15`: each holds a 16-bit value or no value (R27). -/
  h : Vector (Option Half) 16
  /-- `w0` to `w15`: each holds a 64-bit value or no value (R27). -/
  w : Vector (Option Wide) 16
  /-- The commands of the host's program still to run, in program order (R28). -/
  prog : List Command
  /-- The faults recorded so far, oldest first (R161, P4). -/
  faults : List Fault
deriving DecidableEq, Repr

/-- The machine before its first command. The block has no reset state (R31, R180); no host variable holds a value (R27,
R182); no fault is recorded; no program is loaded (DESIGN CHOICE, log entry 7, safe). The input ports carry zero (DESIGN
CHOICE, log entry 2, unsafe: the spec gives them no value), and the outputs are the function of them that R180 demands:
ENC64 of +0 is 0x0000. -/
def State.reset : State where
  ins := ⟨0, 0, 0, 0⟩
  outs := ⟨0, 0, false⟩
  h := Vector.replicate 16 none
  w := Vector.replicate 16 none
  prog := []
  faults := []

end Sys2Proof.Machine
end

