-- ==== Sys2Proof/Machine/Ops.lean ====
section
/-!
DEFINITION. The named operations on the state: driving the ports, reading and writing host variables, recording a fault, and
`raise BadOp()`. Every meaning and every action of the harness is made of these.
-/

namespace Sys2Proof.Machine

/-- The harness drives the input ports (10_state.md R28). -/
def State.drive (p : Inputs) (s : State) : State := { s with ins := p }

/-- The block drives a binary16 result: `out.r16 <- r; out.r64 <- 0; out.bad_op <- 0` (30_encoding.md R72). -/
def State.driveHalf (r : Half) (s : State) : State := { s with outs := ⟨r, 0, false⟩ }

/-- The block drives a wide result: `out.r64 <- r; out.r16 <- 0; out.bad_op <- 0` (R72). -/
def State.driveWide (r : Wide) (s : State) : State := { s with outs := ⟨0, r, false⟩ }

/-- `raise BadOp()` (60_exceptions.md R160), the only exception: `out.r16 <- 0; out.r64 <- 0; out.bad_op <- 1`. There is no
trap entry: no state is saved, no mode changes, no control moves (R165), and nothing is left to return from (R166). -/
def State.raiseBadOp (s : State) : State := { s with outs := ⟨0, 0, true⟩ }

/-- The value that `hN` holds, if it holds one (R27). -/
def State.readH (s : State) (i : VarNo) : Option Half := s.h[i.val]

/-- The value that `wN` holds, if it holds one (R27). -/
def State.readW (s : State) (i : VarNo) : Option Wide := s.w[i.val]

/-- `hN` takes a value; all 16 bits are replaced (R29). -/
def State.writeH (i : VarNo) (v : Half) (s : State) : State := { s with h := s.h.set i.val (some v) }

/-- `wN` takes a value (R28). -/
def State.writeW (i : VarNo) (v : Wide) (s : State) : State := { s with w := s.w.set i.val (some v) }

/-- The harness records a fault, after those recorded before it; no fault is ever cleared (92_eei_decisions.md D3). -/
def State.record (f : Fault) (s : State) : State := { s with faults := s.faults ++ [f] }

/-- The destination variable takes the output port of its width: `out.r16` for an `h`, `out.r64` for a `w` (R28). -/
def State.writeDest (d : Dest) (s : State) : State :=
  match d with
  | .nowhere => s
  | .h i => s.writeH i s.outs.r16
  | .w i => s.writeW i s.outs.r64

/-- The harness samples the output ports (R28): if `out.bad_op` is 1 it records the fault, with the code it drove (P4;
DEDUCED, log entry 5, safe), and writes nothing; else it writes the destination. -/
def State.sample (d : Dest) (s : State) : State :=
  if s.outs.badOp then s.record (.badOp s.ins.op) else s.writeDest d

/-- A program is loaded from outside: its commands are what is still to run (log entry 7). -/
def State.withProgram (cs : List Command) (s : State) : State := { s with prog := cs }

/-- The command is put first in the program, so that it is the next to run. -/
def State.pushCommand (c : Command) (s : State) : State := { s with prog := c :: s.prog }

end Sys2Proof.Machine
end

