-- ==== Sys2Proof/Machine/Decoder.lean ====
section
/-!
DEFINITION. `fp16_decoder` (41_decoder.md): DEC64 and DEC32, and the exact widening of R106 and R91.
-/

namespace Sys2Proof.Machine

/-- `dec64(h)`: what DEC64 drives on `out.r64` (R100). A denormalized pattern is normalized by the place `m` of its leading 1;
a NaN is made quiet with its fraction on top (R104, `DEC_NAN`). -/
def dec64 (h : Half) : Wide :=
  let s := sign16 h
  let e := (exp16 h).toNat
  let f := (frac16 h).toNat
  match category16 h with
  | .zero => s ++ 0#63
  | .denormalized =>
    let m := f.log2
    s ++ BitVec.ofNat 11 (m + 999) ++ BitVec.ofNat 52 ((f - 2 ^ m) * 2 ^ (52 - m))
  | .normalized => s ++ BitVec.ofNat 11 (e + 1008) ++ BitVec.ofNat 52 (f * 2 ^ 42)
  | .infinity => s ++ 2047#11 ++ 0#52
  | .nan => s ++ 2047#11 ++ BitVec.ofNat 52 (2 ^ 51 ||| f * 2 ^ 42)

/-- The binary32 pattern that DEC32 drives on `out.r64[31:0]` (R101). -/
def dec32 (h : Half) : Single :=
  let s := sign16 h
  let e := (exp16 h).toNat
  let f := (frac16 h).toNat
  match category16 h with
  | .zero => s ++ 0#31
  | .denormalized =>
    let m := f.log2
    s ++ BitVec.ofNat 8 (m + 103) ++ BitVec.ofNat 23 ((f - 2 ^ m) * 2 ^ (23 - m))
  | .normalized => s ++ BitVec.ofNat 8 (e + 112) ++ BitVec.ofNat 23 (f * 2 ^ 13)
  | .infinity => s ++ 255#8 ++ 0#23
  | .nan => s ++ 255#8 ++ BitVec.ofNat 23 (2 ^ 22 ||| f * 2 ^ 13)

/-- DEC64 (R100). -/
def execDec64 (x : Half) (s : State) : Host.Outcome State Fault Refusal := .next (s.driveWide (dec64 x))

/-- DEC32 (R101): `out.r64 <- zext_64(r)`. -/
def execDec32 (x : Half) (s : State) : Host.Outcome State Fault Refusal := .next (s.driveWide ((dec32 x).setWidth 64))

/-- `widen(b)` (40_encoder.md R91, R106): the exact binary32-to-binary64 conversion, same sign and value; a NaN's fraction is
`F << 29`. A binary32 subnormal is normalized by the place `m` of its leading 1. No operation of the block; claims use it. -/
def widen (b : Single) : Wide :=
  let S := sign32 b
  let E := (exp32 b).toNat
  let F := (frac32 b).toNat
  match category32 b with
  | .zero => S ++ 0#63
  | .denormalized =>
    let m := F.log2
    S ++ BitVec.ofNat 11 (m + 874) ++ BitVec.ofNat 52 ((F - 2 ^ m) * 2 ^ (52 - m))
  | .normalized => S ++ BitVec.ofNat 11 (E + 896) ++ BitVec.ofNat 52 (F * 2 ^ 29)
  | .infinity | .nan => S ++ 2047#11 ++ BitVec.ofNat 52 (F * 2 ^ 29)

end Sys2Proof.Machine
end

