-- ==== Sys2Proof/Machine/Encoder.lean ====
section
/-!
DEFINITION. `fp16_encoder` (40_encoder.md): ENC64 and ENC32, and the bit-level forms of R84 and R85.
-/

namespace Sys2Proof.Machine

/-- `mag16(v)` (R81), for `v > 0`: the magnitude pattern, bits 14..0, of `v` rounded to binary16; in 0x0000..0x7C00. -/
def mag16 (v : Fraction) : Nat :=
  match rne 11 (-14) 15 v with
  | .inf => 0x7C00
  | .fin k N => (k + 14).toNat * 1024 + N

/-- The encoder's contract by category (R80), shared by both widths: `S` is the input's sign, `P` the nine payload bits below
its quiet bit (R90, `ENC_NAN`), `v` its exact magnitude, subnormal inputs included (R89). `{S, 0x3F, P}` is
`(S << 15) | 0x7E00 | P`. -/
def encodeBy (c : Category) (S : BitVec 1) (P : BitVec 9) (v : Fraction) : Half :=
  match c with
  | .nan => S ++ 0b111111#6 ++ P
  | .infinity => S ++ 0x7C00#15
  | .zero => S ++ 0x0000#15
  | .denormalized | .normalized => S ++ BitVec.ofNat 15 (mag16 v)

/-- `enc64(a)`: what ENC64 drives on `out.r16` (R82). -/
def enc64 (a : Wide) : Half := encodeBy (category64 a) (sign64 a) (a.extractLsb' 42 9) (val64 a).abs

/-- What ENC32 drives on `out.r16` (R83). -/
def enc32 (b : Single) : Half := encodeBy (category32 b) (sign32 b) (b.extractLsb' 13 9) (val32 b).abs

/-- ENC64 (R82). -/
def execEnc64 (a : Wide) (s : State) : Host.Outcome State Fault Refusal := .next (s.driveHalf (enc64 a))

/-- ENC32 (R83). -/
def execEnc32 (b : Single) (s : State) : Host.Outcome State Fault Refusal := .next (s.driveHalf (enc32 b))

/-- `mag64_bits(E, F)` (R84): the magnitude with shifts and an incrementer. R81 is the normative form; that the two agree is a
statement, not a definition. -/
def mag64Bits (E F : Nat) : Nat :=
  if E = 0 then 0
  else
    let e : Int := E - 1023
    let M := 2 ^ 52 + F
    if 16 ≤ e then 0x7C00
    else (max e (-14) + 14).toNat * 1024 + rte M (max 42 (28 - e)).toNat

/-- `mag32_bits(E, F)` (R85). -/
def mag32Bits (E F : Nat) : Nat :=
  if E = 0 then 0
  else
    let e : Int := E - 127
    let M := 2 ^ 23 + F
    if 16 ≤ e then 0x7C00
    else (max e (-14) + 14).toNat * 1024 + rte M (max 13 (-1 - e)).toNat

end Sys2Proof.Machine
end

