-- ==== Sys2Proof/Machine/Arithmetic.lean ====
section
/-!
DEFINITION. `fp16_arithmetic_wrapper` (42_arithmetic.md): the binary64 operations of R121 to R123, the pipeline of R120, and
ADD, SUB, MUL, DIV and NEG.
-/

namespace Sys2Proof.Machine

/-- `DNAN` (R120): the binary64 default NaN, the result of every invalid operation and of every NaN operand (`ARITH_NAN`). -/
def dnan : Wide := 0x7FF8000000000000

/-- `ZERO(S)` (section 2). -/
def zero64 (S : BitVec 1) : Wide := S ++ 0#63

/-- `INF64(S)` (section 2). -/
def inf64 (S : BitVec 1) : Wide := S ++ 2047#11 ++ 0#52

/-- `pack64(S, t)` (section 2). -/
def pack64 (S : BitVec 1) (t : Rounded) : Wide :=
  match t with
  | .inf => inf64 S
  | .fin k N => S ++ BitVec.ofNat 63 ((k + 1022).toNat * 2 ^ 52 + N)

/-- `RNE(53, -1022, 1023, v)`: the rounding of the binary64 operations (`WIDE`, `WIDE_RM`). -/
def rne64 (v : Fraction) : Rounded := rne 53 (-1022) 1023 v

/-- `f64add(a, b)` (R121). -/
def f64add (a b : Wide) : Wide :=
  if isNaN64 a || isNaN64 b then dnan
  else if isInf64 a && isInf64 b then (if sign64 a = sign64 b then a else dnan)
  else if isInf64 a then a
  else if isInf64 b then b
  else
    let v := (val64 a).add (val64 b)
    if v.num = 0 then
      (if isZero64 a && isZero64 b && sign64 a == 1#1 && sign64 b == 1#1 then zero64 1 else zero64 0)
    else pack64 (if v.num < 0 then 1 else 0) (rne64 v.abs)

/-- `f64sub(a, b)` (R121): addition of the operand with its sign bit flipped. -/
def f64sub (a b : Wide) : Wide := f64add a (b ^^^ (1#64 <<< 63))

/-- `f64mul(a, b)` (R122). -/
def f64mul (a b : Wide) : Wide :=
  let S := sign64 a ^^^ sign64 b
  if isNaN64 a || isNaN64 b then dnan
  else if (isInf64 a && isZero64 b) || (isZero64 a && isInf64 b) then dnan
  else if isInf64 a || isInf64 b then inf64 S
  else if isZero64 a || isZero64 b then zero64 S
  else pack64 S (rne64 ((val64 a).abs.mul (val64 b).abs))

/-- `f64div(a, b)` (R123). -/
def f64div (a b : Wide) : Wide :=
  let S := sign64 a ^^^ sign64 b
  if isNaN64 a || isNaN64 b then dnan
  else if (isInf64 a && isInf64 b) || (isZero64 a && isZero64 b) then dnan
  else if isInf64 a then inf64 S
  else if isInf64 b then zero64 S
  else if isZero64 b then inf64 S
  else if isZero64 a then zero64 S
  else pack64 S (rne64 ((val64 a).abs.div (val64 b).abs))

/-- `result(OP, x, y) = enc64(f64OP(dec64(x), dec64(y)))` (R120): promote, compute, demote. -/
def pipeline (f64op : Wide → Wide → Wide) (x y : Half) : Half := enc64 (f64op (dec64 x) (dec64 y))

/-- What ADD drives on `out.r16` (R125). -/
def addHalf (x y : Half) : Half := pipeline f64add x y

/-- What SUB drives on `out.r16` (R126). -/
def subHalf (x y : Half) : Half := pipeline f64sub x y

/-- What MUL drives on `out.r16` (R127). -/
def mulHalf (x y : Half) : Half := pipeline f64mul x y

/-- What DIV drives on `out.r16` (R128). -/
def divHalf (x y : Half) : Half := pipeline f64div x y

/-- What NEG drives on `out.r16` (R130): the sign bit toggled, with no use of the wide format. -/
def negHalf (x : Half) : Half := x ^^^ 0x8000

/-- ADD (R125). -/
def execAdd (x y : Half) (s : State) : Host.Outcome State Fault Refusal := .next (s.driveHalf (addHalf x y))

/-- SUB (R126). -/
def execSub (x y : Half) (s : State) : Host.Outcome State Fault Refusal := .next (s.driveHalf (subHalf x y))

/-- MUL (R127). -/
def execMul (x y : Half) (s : State) : Host.Outcome State Fault Refusal := .next (s.driveHalf (mulHalf x y))

/-- DIV (R128). Division by zero is not an exception. -/
def execDiv (x y : Half) (s : State) : Host.Outcome State Fault Refusal := .next (s.driveHalf (divHalf x y))

/-- NEG (R130). -/
def execNeg (x : Half) (s : State) : Host.Outcome State Fault Refusal := .next (s.driveHalf (negHalf x))

end Sys2Proof.Machine
end

