-- ==== Sys2Proof/Config.lean ====
section
/-!
DEFINITION. What the spec leaves to the implementation.
Of the parameters of 00_scope.md R7 only `host_byte_order` is OPEN (92_eei_decisions.md D16); each of the others has the
value of R7's last column, which "a model of exactly this hardware uses" (93_implementation_defined.md Part 1), and stands
where its rule is modelled: `TIE` and `WIDE_RM` in Machine/Rounding.lean, `ENC_NAN` in Machine/Encoder.lean, `DEC_NAN` in
Machine/Decoder.lean, `WIDE` and `ARITH_NAN` in Machine/Arithmetic.lean (log entry 11). `LATENCY` is read by no rule (R186).
-/

namespace Sys2Proof

/-- The two values `host_byte_order` may take (20_memory.md R43). -/
inductive ByteOrder where
  | little
  | big
deriving DecidableEq, Repr, Inhabited

/-- `host_byte_order`: OPEN (R43, D16), so it has no body and nothing can be proved of its value (DESIGN CHOICE, log entry 12,
safe). No rule of the block reads it. -/
opaque Config.hostByteOrder : ByteOrder

end Sys2Proof
end

