-- ==== Sys2Proof/Machine/RawBits.lean ====
section
/-!
DEFINITION. The raw-bit construct and accessor (43_raw_bits.md), and the bytes a host stores a pattern in (20_memory.md R43).
-/

namespace Sys2Proof.Machine

/-- MOV16 (R150): `out.r16 <- in.x`, with no validation. -/
def execMov16 (x : Half) (s : State) : Host.Outcome State Fault Refusal := .next (s.driveHalf x)

/-- The two bytes, lower address first, in which a host that serialises in the given order stores a pattern (R43). The block
has no byte interface (R42): no operation uses this. The host's own order is `Config.hostByteOrder` (log entry 12). -/
def hostBytes (o : ByteOrder) (h : Half) : List Byte :=
  match o with
  | .little => [h.extractLsb' 0 8, h.extractLsb' 8 8]
  | .big => [h.extractLsb' 8 8, h.extractLsb' 0 8]

/-- The pattern that two stored bytes hold in the given order (R43). -/
def ofHostBytes (o : ByteOrder) (b0 b1 : Byte) : Half :=
  match o with
  | .little => b1 ++ b0
  | .big => b0 ++ b1

end Sys2Proof.Machine
end

