-- ==== Sys2Proof/Syntax.lean ====
section
/-!
DEFINITION. The instruction set: the ten operations of 30_encoding.md R70, one constructor per row of the opcode table.
An instruction is one command (R69): the operation together with the operand values it reads from its ports (R71, R72).
-/

namespace Sys2Proof

/-- One operation of the block with the port values it reads (R71): `a` is `in.a` read as binary64, `b` is `in.a[31:0]` read
as binary32, `x` is `in.x` and `y` is `in.y`. -/
inductive Instr where
  /-- ENC64, code 0x0 (40_encoder.md R82). -/
  | enc64 (a : Wide)
  /-- ENC32, code 0x1 (R83). -/
  | enc32 (b : Single)
  /-- DEC64, code 0x2 (41_decoder.md R100). -/
  | dec64 (x : Half)
  /-- DEC32, code 0x3 (R101). -/
  | dec32 (x : Half)
  /-- ADD, code 0x4 (42_arithmetic.md R125): `x + y`. -/
  | add (x y : Half)
  /-- SUB, code 0x5 (R126): `x - y`. -/
  | sub (x y : Half)
  /-- MUL, code 0x6 (R127): `x * y`. -/
  | mul (x y : Half)
  /-- DIV, code 0x7 (R128): `x / y`. -/
  | div (x y : Half)
  /-- NEG, code 0x8 (R130). -/
  | neg (x : Half)
  /-- MOV16, code 0x9 (43_raw_bits.md R150). -/
  | mov16 (x : Half)
deriving DecidableEq, Repr

end Sys2Proof
end

