-- ==== Sys2Proof/Machine/Dispatch.lean ====
section
/-!
DEFINITION. The dispatch: one arm per operation of 30_encoding.md R70, each one call of its meaning.
-/

namespace Sys2Proof.Machine

def exec (i : Instr) (s : State) : Host.Outcome State Fault Refusal :=
  match i with
  | .enc64 a => Sys2Proof.Machine.execEnc64 a s
  | .enc32 b => Sys2Proof.Machine.execEnc32 b s
  | .dec64 x => Sys2Proof.Machine.execDec64 x s
  | .dec32 x => Sys2Proof.Machine.execDec32 x s
  | .add x y => Sys2Proof.Machine.execAdd x y s
  | .sub x y => Sys2Proof.Machine.execSub x y s
  | .mul x y => Sys2Proof.Machine.execMul x y s
  | .div x y => Sys2Proof.Machine.execDiv x y s
  | .neg x => Sys2Proof.Machine.execNeg x s
  | .mov16 x => Sys2Proof.Machine.execMov16 x s

end Sys2Proof.Machine
end

