-- ==== Sys2Proof/Machine/Flags.lean ====
section
/-!
DEFINITION. Flags. The block has no status flag and signals no numeric event (10_state.md R22, 60_exceptions.md R162); its
one status output is `out.bad_op`, which depends on the operation code alone.
-/

namespace Sys2Proof.Machine

/-- The code is one of the six unassigned ones 0xA to 0xF (30_encoding.md R73, R160). This is the value of `out.bad_op` (R24). -/
def unassigned (op : Code) : Bool := decide (0xA ≤ op.toNat)

end Sys2Proof.Machine
end

