-- ==== Sys2Proof/Machine/Text.lean ====
section
/-!
DEFINITION. The tokens of the assembler text of 30_encoding.md R74 and R75: one line of a host program, before any check.
-/

namespace Sys2Proof

/-- Every operation name program text may spell: the ten mnemonics of R70, the six pseudo-instructions of R75 and the five
lower-case method names of R75. -/
inductive OpName where
  | enc64 | enc32 | dec64 | dec32 | add | sub | mul | div | neg | mov16
  | adda | suba | mula | diva | frombits | tobits
  | methodAdd | methodSubtract | methodMultiply | methodDivide | methodNegate
deriving DecidableEq, Repr

/-- An operand as written (R74): a host variable with its number, or an immediate with its hexadecimal digits, most
significant first. -/
inductive Operand where
  | h (n : Nat)
  | w (n : Nat)
  | imm (digits : List (Fin 16))
deriving DecidableEq, Repr

/-- `MNEMONIC dst, src1[, src2]` (R74): the destination is the first operand. -/
structure Line where
  name : OpName
  operands : List Operand
deriving DecidableEq, Repr

end Sys2Proof
end

