-- ==== Sys2Proof/WellFormed.lean ====
section
/-!
DEFINITION. Well-formedness: which commands and lines of program text are the spec's.
An `Instr` needs no check: every operand is a whole port value of the width its port has (30_encoding.md R71), and "every
input maps to a defined output" (10_state.md R25), so its type admits exactly the operations of R70 on exactly their inputs.
-/

namespace Sys2Proof

/-- A command on the ports is well formed when its code is assigned: an unassigned code is "the only illegal command" (R73). -/
def Inputs.WellFormed (p : Inputs) : Bool := !Machine.unassigned p.op

/-- A host command is well formed when it spells an operation: every named command does, a raw word when its code is
assigned (R73, 60_exceptions.md R161). -/
def Command.WellFormed : Command → Bool
  | .raw p => p.WellFormed
  | .enc64 _ _ | .enc32 _ _ | .dec64 _ _ | .dec32 _ _ | .add _ _ _ | .sub _ _ _ | .mul _ _ _ | .div _ _ _
  | .neg _ _ | .mov16 _ _ => true

/-- The operand names one of the sixteen 16-bit variables (R27). -/
def Operand.isH : Operand → Bool
  | .h n => decide (n < 16)
  | .w _ | .imm _ => false

/-- The operand names one of the sixteen 64-bit variables (R27). -/
def Operand.isW : Operand → Bool
  | .w n => decide (n < 16)
  | .h _ | .imm _ => false

/-- The operand is an immediate of exactly `k` hexadecimal digits (R74). -/
def Operand.isImm (k : Nat) : Operand → Bool
  | .imm ds => ds.length == k
  | .h _ | .w _ => false

/-- The operand can be a 16-bit source (R74). -/
def Operand.isHalfSource (o : Operand) : Bool := o.isH || o.isImm 4

/-- A line of program text is well formed when it has the operands its name takes (R74, R75): the right number, each of the
right width, each variable one of the sixteen, each immediate with the right number of digits. -/
def Line.WellFormed (l : Line) : Bool :=
  match l.name, l.operands with
  | .enc64, [d, s] => d.isH && (s.isW || s.isImm 16)
  | .enc32, [d, s] => d.isH && (s.isW || s.isImm 8)
  | .dec64, [d, s] | .dec32, [d, s] => d.isW && s.isHalfSource
  | .add, [d, x, y] | .sub, [d, x, y] | .mul, [d, x, y] | .div, [d, x, y]
  | .methodAdd, [d, x, y] | .methodSubtract, [d, x, y] | .methodMultiply, [d, x, y] | .methodDivide, [d, x, y] =>
    d.isH && x.isHalfSource && y.isHalfSource
  | .neg, [d, s] | .mov16, [d, s] | .methodNegate, [d, s] => d.isH && s.isHalfSource
  | .adda, [y, x] | .suba, [y, x] | .mula, [y, x] | .diva, [y, x] => y.isH && x.isHalfSource
  | .frombits, [d, s] => d.isH && s.isImm 4
  | .tobits, [d, s] => d.isH && s.isH
  | _, _ => false

end Sys2Proof
end

