-- ==== Sys2Proof/Decode.lean ====
section
/-!
DEFINITION. The decoder and the encoder (30_encoding.md R69 to R73), and the layout of one command as a word.
"A decoder needs only `in.op`" (R69) to know the operation; the operands are whole port values (R71).
-/

namespace Sys2Proof

/-- The operation that the values on the input ports select (R70, R71), or none for an unassigned code (R73). A port the
operation does not read is dropped (R72). -/
def decode (p : Inputs) : Option Instr :=
  match p.op.toNat with
  | 0x0 => some (.enc64 p.a)
  | 0x1 => some (.enc32 (p.a.extractLsb' 0 32))
  | 0x2 => some (.dec64 p.x)
  | 0x3 => some (.dec32 p.x)
  | 0x4 => some (.add p.x p.y)
  | 0x5 => some (.sub p.x p.y)
  | 0x6 => some (.mul p.x p.y)
  | 0x7 => some (.div p.x p.y)
  | 0x8 => some (.neg p.x)
  | 0x9 => some (.mov16 p.x)
  | _ => none

/-- The port values that spell an instruction: its code (R70), its operands on their ports (R71), and zero on every port it
does not read, as the harness drives them (10_state.md R28). -/
def encode : Instr → Inputs
  | .enc64 a => ⟨0x0, a, 0, 0⟩
  | .enc32 b => ⟨0x1, b.setWidth 64, 0, 0⟩
  | .dec64 x => ⟨0x2, 0, x, 0⟩
  | .dec32 x => ⟨0x3, 0, x, 0⟩
  | .add x y => ⟨0x4, 0, x, y⟩
  | .sub x y => ⟨0x5, 0, x, y⟩
  | .mul x y => ⟨0x6, 0, x, y⟩
  | .div x y => ⟨0x7, 0, x, y⟩
  | .neg x => ⟨0x8, 0, x, 0⟩
  | .mov16 x => ⟨0x9, 0, x, 0⟩

/-- The command with zero on every port, and every part of a port, that its operation does not read (R72). -/
def Inputs.masked (p : Inputs) : Inputs :=
  match p.op.toNat with
  | 0x0 => ⟨p.op, p.a, 0, 0⟩
  | 0x1 => ⟨p.op, (p.a.extractLsb' 0 32).setWidth 64, 0, 0⟩
  | 0x2 | 0x3 | 0x8 | 0x9 => ⟨p.op, 0, p.x, 0⟩
  | 0x4 | 0x5 | 0x6 | 0x7 => ⟨p.op, 0, p.x, p.y⟩
  | _ => ⟨p.op, 0, 0, 0⟩

/-- The command as one 100-bit word: the code in bits 3..0, where the opcode table has it, then `in.a`, `in.x` and `in.y`
upwards in the order of R69. DESIGN CHOICE (log entry 6), safe: the block has ports, and no rule gives them places in a word. -/
def Inputs.toWord (p : Inputs) : BitVec 100 := p.y ++ p.x ++ p.a ++ p.op

/-- The port values that a 100-bit word holds; the inverse of `Inputs.toWord`. -/
def Inputs.ofWord (w : BitVec 100) : Inputs where
  op := w.extractLsb' 0 4
  a := w.extractLsb' 4 64
  x := w.extractLsb' 68 16
  y := w.extractLsb' 84 16

/-- The word of an instruction, in the layout of `Inputs.toWord`. -/
def encodeWord (i : Instr) : BitVec 100 := (encode i).toWord

/-- The port values of a table word: the low `nbits` bits of `w`, every bit above them zero. -/
def Inputs.ofTableWord (nbits w : Nat) : Inputs := Inputs.ofWord (BitVec.ofNat 100 (w % 2 ^ nbits))

/-- The instruction the decoder reads from a word numbered as the opcode table numbers it. -/
def decodeTableWord (nbits w : Nat) : Option Instr := decode (Inputs.ofTableWord nbits w)

end Sys2Proof
end

