-- ==== Sys2Proof/Machine/Operands.lean ====
section
/-!
DEFINITION. The operand forms of a host command (30_encoding.md R74) and the port values they give (R71; 10_state.md R28).
-/

namespace Sys2Proof.Machine

/-- A 16-bit source: an `h` variable or an immediate; none where the variable holds no value (R27). -/
def readSrc16 (src : Src 16) (s : State) : Option Half :=
  match src with
  | .var i => s.readH i
  | .imm v => some v

/-- A 64-bit source: a `w` variable or an immediate. -/
def readSrc64 (src : Src 64) (s : State) : Option Wide :=
  match src with
  | .var i => s.readW i
  | .imm v => some v

/-- The source of ENC32: the low 32 bits of a `w` variable, or a 32-bit immediate (R74). -/
def readSrc32 (src : Src 32) (s : State) : Option Single :=
  match src with
  | .var i => (s.readW i).map (·.extractLsb' 0 32)
  | .imm v => some v

/-- Two 16-bit sources; none where either holds no value. -/
def readPair (l r : Src 16) (s : State) : Option (Half × Half) :=
  match readSrc16 l s, readSrc16 r s with
  | some x, some y => some (x, y)
  | _, _ => none

/-- The port values the harness drives for a command: those that spell its instruction, with zero on each port the operation
does not read (R28, R74); for a raw word, the values it gives. None where a variable it reads holds no value (R27). -/
def commandInputs (c : Command) (s : State) : Option Inputs :=
  match c with
  | .enc64 _ src => (readSrc64 src s).map fun a => encode (.enc64 a)
  | .enc32 _ src => (readSrc32 src s).map fun b => encode (.enc32 b)
  | .dec64 _ src => (readSrc16 src s).map fun x => encode (.dec64 x)
  | .dec32 _ src => (readSrc16 src s).map fun x => encode (.dec32 x)
  | .add _ l r => (readPair l r s).map fun p => encode (.add p.1 p.2)
  | .sub _ l r => (readPair l r s).map fun p => encode (.sub p.1 p.2)
  | .mul _ l r => (readPair l r s).map fun p => encode (.mul p.1 p.2)
  | .div _ l r => (readPair l r s).map fun p => encode (.div p.1 p.2)
  | .neg _ src => (readSrc16 src s).map fun x => encode (.neg x)
  | .mov16 _ src => (readSrc16 src s).map fun x => encode (.mov16 x)
  | .raw p => some p

/-- The destination of a command: a `w` variable for DEC64 and DEC32, an `h` variable for the other operations (R74), none for
a raw word. -/
def commandDest (c : Command) : Dest :=
  match c with
  | .dec64 d _ | .dec32 d _ => .w d
  | .enc64 d _ | .enc32 d _ | .add d _ _ | .sub d _ _ | .mul d _ _ | .div d _ _ | .neg d _ | .mov16 d _ => .h d
  | .raw _ => .nowhere

/-- The variable a source names, if it names one. -/
def srcVar {n : Nat} (src : Src n) : List VarNo :=
  match src with
  | .var i => [i]
  | .imm _ => []

/-- The `h` variables a command reads. -/
def sourcesH (c : Command) : List VarNo :=
  match c with
  | .dec64 _ src | .dec32 _ src | .neg _ src | .mov16 _ src => srcVar src
  | .add _ l r | .sub _ l r | .mul _ l r | .div _ l r => srcVar l ++ srcVar r
  | .enc64 _ _ | .enc32 _ _ | .raw _ => []

/-- The `w` variables a command reads. -/
def sourcesW (c : Command) : List VarNo :=
  match c with
  | .enc64 _ src => srcVar src
  | .enc32 _ src => srcVar src
  | .dec64 _ _ | .dec32 _ _ | .neg _ _ | .mov16 _ _ | .add _ _ _ | .sub _ _ _ | .mul _ _ _ | .div _ _ _ | .raw _ => []

end Sys2Proof.Machine
end

