-- ==== Sys2Proof/Machine/Harness.lean ====
section
/-!
DEFINITION. One use of the block by the host harness (10_state.md R27, R28).
-/

namespace Sys2Proof.Machine

/-- One evaluation of the block on the values that stand on its input ports (R25, R45): the operation they select, or
`raise BadOp()` where the code is unassigned (R160). -/
def evaluate (s : State) : Host.Outcome State Fault Refusal :=
  match decode s.ins with
  | some i => exec i s
  | none => .next s.raiseBadOp

/-- One command (R28): the harness reads the sources, drives the ports, lets the block evaluate, samples the outputs and writes
the destination or records `BadOp`. Where a variable the command reads holds no value, it records `UnwrittenVariable` and uses
the block not at all (R27; DEDUCED, log entry 4, unsafe). -/
def runCommand (c : Command) (s : State) : Host.Outcome State Fault Refusal :=
  match commandInputs c s with
  | none => .next (s.record .unwrittenVariable)
  | some p =>
    match evaluate (s.drive p) with
    | .next t => .next (t.sample (commandDest c))
    | .fault f => .fault f
    | .refused r => .refused r

/-- The raw command that puts a table word on the ports (log entry 6). -/
def commandOfTableWord (nbits w : Nat) : Command := .raw (Inputs.ofTableWord nbits w)

end Sys2Proof.Machine
end

