-- ==== Sys2Proof/Machine/Step.lean ====
section
/-!
DEFINITION. One step of the machine: the next command of the host's program takes effect (10_state.md R28: "commands take effect
one at a time in program order").
-/

namespace Sys2Proof.Machine

/-- One step. Where no command is left the host uses the block no more and nothing changes (DESIGN CHOICE, log entry 7, safe). -/
def step (s : State) : Host.Outcome State Fault Refusal :=
  match s.prog with
  | [] => .next s
  | c :: rest => runCommand c (s.withProgram rest)

/-- `s` with a raw command word put first in its program, so that the next step drives exactly that word (log entry 7). -/
def State.withFetchWord (s : State) (nbits w : Nat) : State := s.pushCommand (commandOfTableWord nbits w)

end Sys2Proof.Machine
end

