-- ==== Sys2Proof/Machine/Assembler.lean ====
section
/-!
DEFINITION. The assembler of the host's program text (30_encoding.md R74, R75): characters to tokens, tokens to commands.
A line that spells no operation is refused (60_exceptions.md R161). How characters are separated is DESIGN CHOICE (log entry 9),
safe: no command's meaning depends on it.
-/

namespace Sys2Proof.Machine

/-- The pattern that hexadecimal digits spell, most significant first (R9). -/
def digitsValue (ds : List (Fin 16)) : Nat := ds.foldl (fun acc d => 16 * acc + d.val) 0

/-- The `k` hexadecimal digits of `v`, most significant first. -/
def hexDigits (k v : Nat) : List (Fin 16) :=
  match k with
  | 0 => []
  | k + 1 => hexDigits k (v / 16) ++ [⟨v % 16, Nat.mod_lt _ (by decide)⟩]

/-- A variable number: one of the sixteen (10_state.md R27). -/
def varNo (n : Nat) : Option VarNo := if h : n < 16 then some ⟨n, h⟩ else none

/-- A destination or source that must be an `h` variable. -/
def hVar : Operand → Option VarNo
  | .h n => varNo n
  | .w _ | .imm _ => none

/-- A destination that must be a `w` variable. -/
def wVar : Operand → Option VarNo
  | .w n => varNo n
  | .h _ | .imm _ => none

/-- An immediate of exactly `k` hexadecimal digits, as a pattern of `n` bits (R74). -/
def immSrc (k n : Nat) : Operand → Option (Src n)
  | .imm ds => if ds.length = k then some (.imm (BitVec.ofNat n (digitsValue ds))) else none
  | .h _ | .w _ => none

/-- A 16-bit source: an `h` variable or an immediate of 4 digits (R74). -/
def halfSrc (o : Operand) : Option (Src 16) :=
  match o with
  | .h n => (varNo n).map .var
  | .imm _ => immSrc 4 16 o
  | .w _ => none

/-- A wide source: a `w` variable, or an immediate of `k` digits (16 for ENC64, 8 for ENC32; R74). -/
def wideSrc (k n : Nat) (o : Operand) : Option (Src n) :=
  match o with
  | .w i => (varNo i).map .var
  | .imm _ => immSrc k n o
  | .h _ => none

/-- A pseudo-instruction or a method name is another spelling of a line (R75): `OPA hY, hX` is `OP hY, hY, hX` (R133),
FROMBITS and TOBITS are MOV16 (43_raw_bits.md). FROMBITS takes an immediate and TOBITS a variable, as R75's table shows them
(DESIGN CHOICE, log entry 9, safe); with another operand the line stays as it is, and is no command. -/
def expandLine (l : Line) : Line :=
  match l.name, l.operands with
  | .adda, [y, x] => ⟨.add, [y, y, x]⟩
  | .suba, [y, x] => ⟨.sub, [y, y, x]⟩
  | .mula, [y, x] => ⟨.mul, [y, y, x]⟩
  | .diva, [y, x] => ⟨.div, [y, y, x]⟩
  | .frombits, [d, .imm ds] => ⟨.mov16, [d, .imm ds]⟩
  | .tobits, [d, .h n] => ⟨.mov16, [d, .h n]⟩
  | .methodAdd, os => ⟨.add, os⟩
  | .methodSubtract, os => ⟨.sub, os⟩
  | .methodMultiply, os => ⟨.mul, os⟩
  | .methodDivide, os => ⟨.div, os⟩
  | .methodNegate, os => ⟨.neg, os⟩
  | _, _ => l

/-- A command of a destination and one source, where both are there. -/
def oneSource {n : Nat} (f : VarNo → Src n → Command) (d : Option VarNo) (x : Option (Src n)) : Option Command :=
  d.bind fun d => x.map (f d)

/-- A command of a destination and two sources, where all are there. -/
def twoSources (f : VarNo → Src 16 → Src 16 → Command) (d : Option VarNo) (x y : Option (Src 16)) : Option Command :=
  d.bind fun d => x.bind fun x => y.map (f d x)

/-- A line of a core mnemonic as a command (R74), or none where its operands are not those of the operation. -/
def assembleCore (l : Line) : Option Command :=
  match l.name, l.operands with
  | .enc64, [d, s] => oneSource .enc64 (hVar d) (wideSrc 16 64 s)
  | .enc32, [d, s] => oneSource .enc32 (hVar d) (wideSrc 8 32 s)
  | .dec64, [d, s] => oneSource .dec64 (wVar d) (halfSrc s)
  | .dec32, [d, s] => oneSource .dec32 (wVar d) (halfSrc s)
  | .add, [d, x, y] => twoSources .add (hVar d) (halfSrc x) (halfSrc y)
  | .sub, [d, x, y] => twoSources .sub (hVar d) (halfSrc x) (halfSrc y)
  | .mul, [d, x, y] => twoSources .mul (hVar d) (halfSrc x) (halfSrc y)
  | .div, [d, x, y] => twoSources .div (hVar d) (halfSrc x) (halfSrc y)
  | .neg, [d, s] => oneSource .neg (hVar d) (halfSrc s)
  | .mov16, [d, s] => oneSource .mov16 (hVar d) (halfSrc s)
  | _, _ => none

/-- A line as a command, pseudo-instructions expanded; none where the line spells no command. -/
def assemble (l : Line) : Option Command := assembleCore (expandLine l)

/-- A program text as its commands; none where any line is refused. -/
def assembleAll (ls : List Line) : Option (List Command) := ls.mapM assemble

/-- A source as an operand of program text. -/
def srcOperand (isWide : Bool) (k : Nat) {n : Nat} (src : Src n) : Operand :=
  match src with
  | .var i => if isWide then .w i.val else .h i.val
  | .imm v => .imm (hexDigits k v.toNat)

/-- The line that spells a command (R74); a raw word has none (R73). -/
def disassemble (c : Command) : Option Line :=
  match c with
  | .enc64 d s => some ⟨.enc64, [.h d.val, srcOperand true 16 s]⟩
  | .enc32 d s => some ⟨.enc32, [.h d.val, srcOperand true 8 s]⟩
  | .dec64 d s => some ⟨.dec64, [.w d.val, srcOperand false 4 s]⟩
  | .dec32 d s => some ⟨.dec32, [.w d.val, srcOperand false 4 s]⟩
  | .add d x y => some ⟨.add, [.h d.val, srcOperand false 4 x, srcOperand false 4 y]⟩
  | .sub d x y => some ⟨.sub, [.h d.val, srcOperand false 4 x, srcOperand false 4 y]⟩
  | .mul d x y => some ⟨.mul, [.h d.val, srcOperand false 4 x, srcOperand false 4 y]⟩
  | .div d x y => some ⟨.div, [.h d.val, srcOperand false 4 x, srcOperand false 4 y]⟩
  | .neg d s => some ⟨.neg, [.h d.val, srcOperand false 4 s]⟩
  | .mov16 d s => some ⟨.mov16, [.h d.val, srcOperand false 4 s]⟩
  | .raw _ => none

/-- The spelling of each operation name (R70, R75; `add_assign` is the one compound method name R75 spells). -/
def nameTable : List (List Char × OpName) :=
  [(['E', 'N', 'C', '6', '4'], .enc64), (['E', 'N', 'C', '3', '2'], .enc32), (['D', 'E', 'C', '6', '4'], .dec64),
   (['D', 'E', 'C', '3', '2'], .dec32), (['A', 'D', 'D'], .add), (['S', 'U', 'B'], .sub), (['M', 'U', 'L'], .mul),
   (['D', 'I', 'V'], .div), (['N', 'E', 'G'], .neg), (['M', 'O', 'V', '1', '6'], .mov16)] ++
  [(['A', 'D', 'D', 'A'], .adda), (['S', 'U', 'B', 'A'], .suba), (['M', 'U', 'L', 'A'], .mula),
   (['D', 'I', 'V', 'A'], .diva), (['F', 'R', 'O', 'M', 'B', 'I', 'T', 'S'], .frombits),
   (['T', 'O', 'B', 'I', 'T', 'S'], .tobits)] ++
  [(['a', 'd', 'd'], .methodAdd), (['s', 'u', 'b', 't', 'r', 'a', 'c', 't'], .methodSubtract),
   (['m', 'u', 'l', 't', 'i', 'p', 'l', 'y'], .methodMultiply), (['d', 'i', 'v', 'i', 'd', 'e'], .methodDivide),
   (['n', 'e', 'g', 'a', 't', 'e'], .methodNegate), (['a', 'd', 'd', '_', 'a', 's', 's', 'i', 'g', 'n'], .adda)]

/-- The name that characters spell, if they spell one. -/
def parseName (cs : List Char) : Option OpName := nameTable.lookup cs

/-- A hexadecimal digit, in either case. -/
def hexDigit (c : Char) : Option (Fin 16) :=
  let n := c.toNat
  if 48 ≤ n ∧ n ≤ 57 then some (Fin.ofNat 16 (n - 48))
  else if 65 ≤ n ∧ n ≤ 70 then some (Fin.ofNat 16 (n - 55))
  else if 97 ≤ n ∧ n ≤ 102 then some (Fin.ofNat 16 (n - 87))
  else none

/-- A decimal number of at least one digit. -/
def parseDecimal (cs : List Char) : Option Nat :=
  if cs.isEmpty then none
  else (cs.mapM hexDigit).bind fun ds =>
    if ds.all (·.val < 10) then some (ds.foldl (fun acc d => 10 * acc + d.val) 0) else none

/-- `hN`, `wN` or `#0x<digits>` (R74). -/
def parseOperand (cs : List Char) : Option Operand :=
  match cs with
  | 'h' :: ds => (parseDecimal ds).map .h
  | 'w' :: ds => (parseDecimal ds).map .w
  | '#' :: '0' :: 'x' :: ds => if ds.isEmpty then none else (ds.mapM hexDigit).map .imm
  | _ => none

/-- A space or a tab. -/
def isBlank (c : Char) : Bool := c == ' ' || c == '\t'

/-- Characters without the blanks at either end. -/
def trimBlanks (cs : List Char) : List Char := ((cs.dropWhile isBlank).reverse.dropWhile isBlank).reverse

/-- Characters cut at every comma; no characters give no pieces. -/
def cutAtCommas (cs : List Char) : List (List Char) :=
  cs.foldr (fun c acc => match acc with
    | [] => [if c == ',' then [] else [c]]
    | piece :: rest => if c == ',' then [] :: piece :: rest else (c :: piece) :: rest) [[]]

/-- One line of characters (R74): `;` starts a comment, then comes a name, blanks, and the operands between commas. A line with
no name is empty and gives no command; `none` is a line that is refused. -/
def parseLine (cs : List Char) : Option (Option Line) :=
  let body := trimBlanks (cs.takeWhile (· != ';'))
  if body.isEmpty then some none
  else
    let name := body.takeWhile (!isBlank ·)
    let rest := body.dropWhile (!isBlank ·)
    match parseName name, ((cutAtCommas rest).map trimBlanks).mapM parseOperand with
    | some n, some os => some (some ⟨n, os⟩)
    | _, _ => none

/-- A program text, line by line, as its commands: "one per line" (R74). -/
def parseProgram (lines : List (List Char)) : Option (List Command) :=
  (lines.mapM parseLine).bind fun ls => assembleAll (ls.filterMap id)

/-- Program text loaded into the harness; none where the assembler refuses a line. -/
def State.loadText (lines : List (List Char)) (s : State) : Option State :=
  (parseProgram lines).map fun cs => s.withProgram cs

end Sys2Proof.Machine
end

