-- ==== Sys2Proof/Safety.lean ====
section
/-!
DEFINITION. What a claim about a run means: no fault recorded, and the block being combinational.
-/

namespace Sys2Proof.Machine

/-- The instruction answers the binary16 pattern `r` from every state: it completes, drives `r` on `out.r16`, zero on `out.r64`
and `out.bad_op`, and changes nothing else. -/
abbrev Gives16 (i : Instr) (r : Half) : Prop := ∀ s : State, exec i s = .next { s with outs := ⟨r, 0, false⟩ }

/-- The number a magnitude pattern in 0x0000..0x7C00 stands for when it is compared with a value to be rounded: 0x7C00 counts as
65536 (40_encoder.md R81). -/
def magnitudeValue (m : Nat) : ℚ := if m < 0x7C00 then (val16 (BitVec.ofNat 16 m)).toRat else 65536

/-- The bits of `pack64(S, t)` below its sign (42_arithmetic.md section 2), as the number the rule writes. -/
def packedMagnitude : Rounded → Nat
  | .inf => 2047 <<< 52
  | .fin k N => (k + 1022).toNat * 2 ^ 52 + N

/-- No fault is recorded: the premise of the spec's claims about programs (95_test_vectors.md Part 3). -/
abbrev NoFault (s : State) : Prop := s.faults = []

/-- The outputs of an operation on the operands it reads (30_encoding.md R72). -/
def instrOutputs : Instr → Outputs
  | .enc64 a => ⟨enc64 a, 0, false⟩
  | .enc32 b => ⟨enc32 b, 0, false⟩
  | .dec64 x => ⟨0, dec64 x, false⟩
  | .dec32 x => ⟨0, (dec32 x).setWidth 64, false⟩
  | .add x y => ⟨addHalf x y, 0, false⟩
  | .sub x y => ⟨subHalf x y, 0, false⟩
  | .mul x y => ⟨mulHalf x y, 0, false⟩
  | .div x y => ⟨divHalf x y, 0, false⟩
  | .neg x => ⟨negHalf x, 0, false⟩
  | .mov16 x => ⟨x, 0, false⟩

/-- `F(in.op, in.a, in.x, in.y)` (10_state.md R25): the outputs as a function of the inputs alone. -/
def blockFunction (p : Inputs) : Outputs :=
  match decode p with
  | some i => instrOutputs i
  | none => ⟨0, 0, true⟩

/-- The output ports carry the function of the input ports (R25): at power-on "as at every later moment" (R180). -/
abbrev Combinational (s : State) : Prop := s.outs = blockFunction s.ins

/-- Every variable a command reads holds a value (10_state.md R27). -/
abbrev SourcesHeld (c : Command) (s : State) : Prop :=
  (∀ i ∈ sourcesH c, (s.readH i).isSome) ∧ (∀ i ∈ sourcesW c, (s.readW i).isSome)

/-- `c` names the destination of `d` neither as its destination nor as a source. -/
abbrev LeavesAlone (c d : Command) : Prop :=
  (∀ i, commandDest d = .h i → commandDest c ≠ .h i ∧ i ∉ sourcesH c) ∧
  (∀ i, commandDest d = .w i → commandDest c ≠ .w i ∧ i ∉ sourcesW c)

/-- Neither command writes a variable the other names: what 20_memory.md R47 (b) needs of "no variable in common". -/
abbrev Independent (c d : Command) : Prop := LeavesAlone c d ∧ LeavesAlone d c

end Sys2Proof.Machine
end

