-- ==== Sys2Proof/Certificates/Slice0/Obligations.lean ====
section
/-!
DEFINITION. The statements for the provers, one `Obligations.<Name>` each. A docstring names the rule of spec/ it formalises, or,
where the rule is marked in the spec as an inference of its own ("[derived: …]") or the statement rests on a choice of this model,
says so. Field values are written with shifts and ors on numbers, as the rules write them; the model builds them by concatenation.
-/

open Sys2Proof Sys2Proof.Machine

/-! ## Decoding and encoding -/

/-- Every instruction, at every value of its operands, is read back from its 100-bit word. The places of the operands in the word
are this model's (log entry 6), not the spec's. -/
def Obligations.DecodeOfEncodedWord : Prop :=
  ∀ i : Instr, decodeTableWord 100 (encodeWord i).toNat = some i

/-- Where the ports decode, the instruction's own spelling is those ports with the unread ones at zero; so no two instructions are
spelled alike. -/
def Obligations.EncodeOfDecodedPorts : Prop :=
  (∀ p i, decode p = some i → encode i = p.masked) ∧ (∀ i j, encode i = encode j → i = j)

/-- R70, R71, R73: the ten codes, what each operation reads from its ports, and that every other code is no operation. -/
def Obligations.DecodeByOperationCode : Prop :=
  ∀ p : Inputs,
    (p.op = 0x0 → decode p = some (.enc64 p.a)) ∧
    (p.op = 0x1 → decode p = some (.enc32 (p.a.extractLsb' 0 32))) ∧
    (p.op = 0x2 → decode p = some (.dec64 p.x)) ∧
    (p.op = 0x3 → decode p = some (.dec32 p.x)) ∧
    (p.op = 0x4 → decode p = some (.add p.x p.y)) ∧
    (p.op = 0x5 → decode p = some (.sub p.x p.y)) ∧
    (p.op = 0x6 → decode p = some (.mul p.x p.y)) ∧
    (p.op = 0x7 → decode p = some (.div p.x p.y)) ∧
    (p.op = 0x8 → decode p = some (.neg p.x)) ∧
    (p.op = 0x9 → decode p = some (.mov16 p.x)) ∧
    (0xA ≤ p.op.toNat → decode p = none)

/-- A few words written out from the table and from the operand order of log entry 6: ADD of 1 and 2, NEG of 1, and two codes that
are no operation. -/
def Obligations.DecodedWordsAreRight : Prop :=
  decodeTableWord 8 0b00000000 = some (.enc64 0) ∧
  decodeTableWord 8 0b00001001 = some (.mov16 0) ∧
  decodeTableWord 100 (0x4 + 0x3C00 * 2 ^ 68 + 0x4000 * 2 ^ 84) = some (.add 0x3C00 0x4000) ∧
  decodeTableWord 100 (0x8 + 0x3C00 * 2 ^ 68) = some (.neg 0x3C00) ∧
  decodeTableWord 100 (0x0 + 0x3FF0000000000000 * 2 ^ 4) = some (.enc64 0x3FF0000000000000) ∧
  decodeTableWord 8 0b00001010 = none ∧
  decodeTableWord 8 0b00001111 = none

/-! ## The block as a function of its ports -/

/-- R25: the outputs after an evaluation are a function of the input ports alone, whatever else the two states hold. -/
def Obligations.OutputsDependOnInputsAlone : Prop :=
  ∀ s u : State, s.ins = u.ins → ∃ t v, evaluate s = .next t ∧ evaluate u = .next v ∧ t.outs = v.outs

/-- R72: a port, or part of a port, that the operation does not read has no effect on any output. -/
def Obligations.UnreadPortsHaveNoEffect : Prop :=
  ∀ (s : State) (p q : Inputs), p.masked = q.masked →
    ∃ t v, evaluate (s.drive p) = .next t ∧ evaluate (s.drive q) = .next v ∧ t.outs = v.outs

/-- R24: the result an operation drives, which ports carry zero, by operation code, and when `out.bad_op` is 1. -/
def Obligations.OutputPortsByOperation : Prop :=
  ∀ s : State, ∃ t, evaluate s = .next t ∧
    (s.ins.op.toNat = 0x2 ∨ s.ins.op.toNat = 0x3 ∨ 0xA ≤ s.ins.op.toNat → t.outs.r16 = 0x0000) ∧
    (s.ins.op.toNat = 0x3 → t.outs.r64.extractLsb' 32 32 = 0) ∧
    (s.ins.op.toNat ≠ 0x2 ∧ s.ins.op.toNat ≠ 0x3 → t.outs.r64 = 0) ∧
    (t.outs.badOp = true ↔ 0xA ≤ s.ins.op.toNat) ∧
    (∀ i, decode s.ins = some i → t.outs = instrOutputs i)

/-- R45: an evaluation drives the three output ports and nothing else, and a second one on the same inputs changes nothing. -/
def Obligations.EvaluationIsIdempotent : Prop :=
  ∀ s : State, ∃ t, evaluate s = .next t ∧ t = { s with outs := t.outs } ∧ evaluate t = .next t

/-- R20, R45: no instruction changes a host variable, an input port, the program or the recorded faults; there is no memory to
change (R40). -/
def Obligations.ExecFrame : Prop :=
  ∀ (i : Instr) (s t : State), exec i s = .next t →
    t.ins = s.ins ∧ (∀ j, t.readH j = s.readH j) ∧ (∀ j, t.readW j = s.readW j) ∧ t.prog = s.prog ∧ t.faults = s.faults

/-! ## Reset and steps -/

/-- R182, R31: before the first command no host variable holds a value, and the outputs are the function of the inputs; no fault is
recorded (95_test_vectors.md Part 3). The input values themselves are log entry 2's and no part of this. -/
def Obligations.ResetLeaves : Prop :=
  (∀ j, State.reset.readH j = none) ∧ (∀ j, State.reset.readW j = none) ∧ Combinational State.reset ∧ NoFault State.reset

/-- R25 over a run: where the output ports carry the function of the input ports, they do after every step. `ResetLeaves` says that
they do at reset. -/
def Obligations.StepKeepsCombinational : Prop :=
  ∀ s t : State, Combinational s → step s = .next t → Combinational t

/-- No state stops the machine: every step answers a next state (R22, R162: "No error conditions exist"). That `BadOp` and
`UnwrittenVariable` are recorded and do not stop the run is log entries 4 and 5; that a step with no command left answers a next
state, the same one, is log entry 7, this model's choice. -/
def Obligations.NothingStopsTheMachine : Prop :=
  ∀ s : State, ∃ t, step s = .next t

/-- A recorded fault is never cleared and one command records at most one (92_eei_decisions.md D3; 93_implementation_defined.md
Part 1). That a command which reads two variables without a value records one fault is log entry 4, how `BadOp` is recorded is log
entry 5, and that the idle step records none is log entry 7. -/
def Obligations.FaultsAreNeverCleared : Prop :=
  ∀ s t : State, step s = .next t → t.faults = s.faults ∨ ∃ f, t.faults = s.faults ++ [f]

/-- R28: a step drives the next command's port values, runs the instruction they decode to, and samples its outputs. That a raw word
is such a command, with ports driven as given and no destination, is log entry 8. -/
def Obligations.StepRunsTheDecodedInstruction : Prop :=
  ∀ (s : State) (c : Command) (rest : List Command) (p : Inputs) (i : Instr),
    s.prog = c :: rest → commandInputs c s = some p → decode p = some i →
    step s = match exec i ((s.withProgram rest).drive p) with
      | .next t => .next (t.sample (commandDest c))
      | .fault f => .fault f
      | .refused r => .refused r

/-- A table word put where the next command stands runs as the next command, from every state: the first command after power-on
gives the result of its rule (R183). That a word carries the operands as well is log entry 6, that it comes to run by being put first
in the program is log entry 7, and that it writes no variable (it is a raw word, with no destination) is log entry 8. -/
def Obligations.FetchedWordRuns : Prop :=
  ∀ (s : State) (nbits w : Nat) (i : Instr), decodeTableWord nbits w = some i →
    ∃ t, step (s.withFetchWord nbits w) = .next t ∧ t.ins = Inputs.ofTableWord nbits w ∧ t.outs = instrOutputs i ∧
      t.prog = s.prog ∧ t.h = s.h ∧ t.w = s.w ∧ t.faults = s.faults

/-- After R28: a command whose variables hold values is one use of the block. The unread ports of a named command are driven with
zero; the destination takes the output port of its width; where `out.bad_op` is 1 the fault is recorded and nothing is written. Two
clauses are this model's reading and not R28's words: that a raw word drives unread ports as given and names no destination is log
entry 8, and that `BadOp` is recorded with its code and the run goes on is log entry 5. -/
def Obligations.CommandIsOneUseOfTheBlock : Prop :=
  ∀ (s : State) (c : Command) (rest : List Command), s.prog = c :: rest → SourcesHeld c s →
    ∃ t p, step s = .next t ∧ commandInputs c s = some p ∧ t.ins = p ∧ t.outs = blockFunction p ∧ t.prog = rest ∧
      ((∃ q, c = .raw q ∧ p = q) ∨ (p.masked = p ∧ t.outs.badOp = false)) ∧
      (t.outs.badOp = true → t.faults = s.faults ++ [.badOp p.op] ∧ t.h = s.h ∧ t.w = s.w) ∧
      (t.outs.badOp = false → t.faults = s.faults ∧
        (∀ j, t.readH j = if commandDest c = .h j then some t.outs.r16 else s.readH j) ∧
        (∀ j, t.readW j = if commandDest c = .w j then some t.outs.r64 else s.readW j))

/-- After R160: an unassigned code drives zero, zero and `out.bad_op`, and no assigned code with any operands does. That the step
answers a next state with the fault recorded together with its code, and the commands after it still to run, is log entry 5 (read
from R166 and program P4); that a raw word drives its ports and names no destination is log entry 8. -/
def Obligations.BadOpIsRecorded : Prop :=
  (∀ (s : State) (p : Inputs) (rest : List Command), s.prog = .raw p :: rest → 0xA ≤ p.op.toNat →
    step s = .next { ins := p, outs := ⟨0x0000, 0, true⟩, h := s.h, w := s.w, prog := rest,
                     faults := s.faults ++ [.badOp p.op] }) ∧
  (∀ s : State, s.ins.op.toNat < 0xA → ∃ t, evaluate s = .next t ∧ t.outs.badOp = false)

/-- A command that reads a variable holding no value records `UnwrittenVariable`; the variable is not read as zero, nothing is
driven and nothing is written (R27). That the run then goes on is log entry 4's. -/
def Obligations.UnwrittenVariableIsRecorded : Prop :=
  ∀ (s : State) (c : Command) (rest : List Command), s.prog = c :: rest →
    ((∃ j ∈ sourcesH c, s.readH j = none) ∨ (∃ j ∈ sourcesW c, s.readW j = none)) →
    step s = .next { s with prog := rest, faults := s.faults ++ [.unwrittenVariable] }

/-- After R29: the only way a variable changes is a command naming it as destination. That a raw word names none is log entry 8. That
a step with no command left changes nothing, no variable and nothing else, is log entry 7, this model's choice. -/
def Obligations.OnlyTheDestinationChanges : Prop :=
  ∀ s t : State, step s = .next t →
    (s.prog = [] → t = s) ∧
    (∀ c rest, s.prog = c :: rest →
      (∀ j, commandDest c ≠ .h j → t.readH j = s.readH j) ∧ (∀ j, commandDest c ≠ .w j → t.readW j = s.readW j))

/-- A variable that holds a value goes on holding one: nothing takes a value away (R28, R29 name no way). After a recorded
`UnwrittenVariable`, at an idle step and for a raw word this is log entries 4, 7 and 8. -/
def Obligations.HeldVariablesStayHeld : Prop :=
  ∀ s t : State, step s = .next t →
    (∀ j, (s.readH j).isSome → (t.readH j).isSome) ∧ (∀ j, (s.readW j).isSome → (t.readW j).isSome)

/-- 20_memory.md R47 (b), an inference of the spec: two commands of which neither writes a variable the other names leave the same
variables, and record the same faults, in either order. The sources need hold no value here: that the other command runs after a
recorded `UnwrittenVariable` is log entry 4, that it runs after a recorded `BadOp` is log entry 5, and that a raw word names no
variable is log entry 8; R47 itself speaks of none of the three. -/
def Obligations.IndependentCommandsCommute : Prop :=
  ∀ (s : State) (c d : Command), Independent c d →
    ∃ t u : State, Host.Core.run Sys2Proof.core 2 (s.withProgram [c, d]) = .next t ∧
      Host.Core.run Sys2Proof.core 2 (s.withProgram [d, c]) = .next u ∧
      t.h = u.h ∧ t.w = u.w ∧ t.faults.Perm u.faults

/-- R133 and R75: `y OP= x` is `OP y, y, x`; the step writes `result(OP, y, x)` into `y` and changes no other variable, and `y` then
holds what `out.r16` carries, the value of the form. The second operand is a variable, as R133 has it, or an immediate, as program
P4 has it (95_test_vectors.md: `DIVA h0, #0x4200`). -/
def Obligations.CompoundAssignment : Prop :=
  ∀ (s : State) (y : VarNo) (x : Src 16) (rest : List Command) (vy vx : Half),
    s.readH y = some vy → readSrc16 x s = some vx →
    ∀ op ∈ [(OpName.adda, Command.add y (.var y) x, addHalf vy vx), (.suba, .sub y (.var y) x, subHalf vy vx),
            (.mula, .mul y (.var y) x, mulHalf vy vx), (.diva, .div y (.var y) x, divHalf vy vx)],
      assemble ⟨op.1, [.h y.val, srcOperand false 4 x]⟩ = some op.2.1 ∧
      ∃ t, step (s.withProgram (op.2.1 :: rest)) = .next t ∧ t.readH y = some op.2.2 ∧ t.outs.r16 = op.2.2 ∧
        (∀ j, j ≠ y → t.readH j = s.readH j) ∧ t.w = s.w ∧ t.faults = s.faults

/-! ## Program text -/

/-- The assembler accepts exactly the well-formed lines of R74 and R75 (that FROMBITS takes an immediate only and TOBITS a variable
only is log entry 9), and every other spelling of R75 assembles to the command of its expansion: FROMBITS and TOBITS to MOV16, an
immediate being read most significant digit first, the method names to their operations, the compound forms to `OP y, y, x`. -/
def Obligations.AssemblerAcceptsWellFormedLines : Prop :=
  (∀ l : Line, (assemble l).isSome = l.WellFormed) ∧
  (∀ (d : VarNo) (p q r t : Fin 16), assemble ⟨.frombits, [.h d.val, .imm [p, q, r, t]]⟩ =
    some (.mov16 d (.imm (BitVec.ofNat 16 (p.val * 4096 + q.val * 256 + r.val * 16 + t.val))))) ∧
  (∀ d i : VarNo, assemble ⟨.tobits, [.h d.val, .h i.val]⟩ = some (.mov16 d (.var i))) ∧
  (∀ (d : VarNo) (x y : Src 16),
    (∀ op ∈ [(OpName.methodAdd, Command.add d x y), (.methodSubtract, .sub d x y), (.methodMultiply, .mul d x y),
             (.methodDivide, .div d x y)],
      assemble ⟨op.1, [.h d.val, srcOperand false 4 x, srcOperand false 4 y]⟩ = some op.2) ∧
    assemble ⟨.methodNegate, [.h d.val, srcOperand false 4 x]⟩ = some (.neg d x) ∧
    (∀ op ∈ [(OpName.adda, Command.add d (.var d) x), (.suba, .sub d (.var d) x), (.mula, .mul d (.var d) x),
             (.diva, .div d (.var d) x)],
      assemble ⟨op.1, [.h d.val, srcOperand false 4 x]⟩ = some op.2))

/-- Every command but a raw word has a line that assembles to it, at every variable and every immediate pattern (R74). A raw word,
which is log entry 8's, has no line, and no line assembles to one. -/
def Obligations.AssembleOfDisassembled : Prop :=
  (∀ c : Command, (∀ p, c ≠ .raw p) → ∃ l, disassemble c = some l ∧ assemble l = some c) ∧
  (∀ p : Inputs, disassemble (.raw p) = none ∧ ∀ l : Line, assemble l ≠ some (.raw p))

/-- R161: program text spells no unassigned code, so no command assembled from text records `BadOp` (how `BadOp` is recorded is log
entry 5). -/
def Obligations.ProgramTextNeverRaisesBadOp : Prop :=
  ∀ (l : Line) (c : Command), assemble l = some c →
    c.WellFormed = true ∧
    ∀ (s t : State) (rest : List Command), s.prog = c :: rest → step s = .next t →
      ∀ code, Fault.badOp code ∈ t.faults → Fault.badOp code ∈ s.faults

/-! ## Rounding -/

/-- R14, R13: `roundTE` answers a nearest integer, the even one of two; and `rte(M, sh)` is `roundTE(M / 2^sh)`, which the spec marks as
derived. -/
def Obligations.RoundTEIsNearestEven : Prop :=
  (∀ v : Fraction, 0 ≤ v.num → 0 < v.den → ∀ n : ℕ,
    |(roundTE v : ℚ) - v.toRat| ≤ |(n : ℚ) - v.toRat| ∧
    (n ≠ roundTE v → |(roundTE v : ℚ) - v.toRat| = |(n : ℚ) - v.toRat| → roundTE v % 2 = 0)) ∧
  (∀ M sh : ℕ, roundTE ⟨M, 2 ^ sh⟩ = rte M sh)

/-- R15: `RNE` answers `INF` exactly from its threshold on, and else the pair `(k, N)` with `k = max(emin, floor(log2 v))` and `N` the
rounding of `v` on the grid of spacing `2^(k-p+1)`, at most `2^p`. -/
def Obligations.RNERoundsOnItsGrid : Prop :=
  ∀ (p : ℕ) (emin : ℤ) (emax : ℕ) (v : Fraction), 0 < v.num → 0 < v.den →
    match rne p emin emax v with
    | .inf => (2 : ℚ) ^ emax * (2 - 1 / 2 ^ p) ≤ v.toRat
    | .fin k N => v.toRat < (2 : ℚ) ^ emax * (2 - 1 / 2 ^ p) ∧
        emin ≤ k ∧ v.toRat < 2 ^ (k + 1) ∧ (k ≠ emin → (2 : ℚ) ^ k ≤ v.toRat) ∧
        N = roundTE (v.divPow2 (k - p + 1)) ∧ N ≤ 2 ^ p ∧
        |(N : ℚ) * 2 ^ (k - p + 1) - v.toRat| ≤ 2 ^ (k - p + 1) / 2

/-- 40_encoder.md R81, an inference of the spec: `mag16(v)` is the pattern in 0x0000..0x7C00 whose value is nearest `v`, 0x7C00
counting as 65536, and the even pattern of two equally near. -/
def Obligations.Mag16IsNearest : Prop :=
  ∀ v : Fraction, 0 < v.num → 0 < v.den →
    mag16 v ≤ 0x7C00 ∧
    (65536 < v.toRat → mag16 v = 0x7C00) ∧
    (v.toRat ≤ 65536 → ∀ m ≤ 0x7C00,
      |magnitudeValue (mag16 v) - v.toRat| ≤ |magnitudeValue m - v.toRat| ∧
      (m ≠ mag16 v → |magnitudeValue (mag16 v) - v.toRat| = |magnitudeValue m - v.toRat| → mag16 v % 2 = 0))

/-! ## The encoder -/

/-- R82: ENC64. -/
def Obligations.Enc64DrivesItsRule : Prop :=
  ∀ (p : Inputs) (s : State), p.op = 0x0 →
    decode p = some (.enc64 p.a) ∧
    ∃ r : Half, exec (.enc64 p.a) s = .next { s with outs := ⟨r, 0, false⟩ } ∧
      let S := p.a.toNat / 2 ^ 63
      let E := p.a.toNat / 2 ^ 52 % 2 ^ 11
      let F := p.a.toNat % 2 ^ 52
      r.toNat =
        if E = 2047 ∧ F ≠ 0 then S <<< 15 ||| 0x7E00 ||| F / 2 ^ 42 % 2 ^ 9
        else if E = 2047 then S <<< 15 ||| 0x7C00
        else if E = 0 ∧ F = 0 then S <<< 15
        else S <<< 15 ||| mag16 (if E = 0 then Fraction.scaled 0 F (-1074) else Fraction.scaled 0 (2 ^ 52 + F) (E - 1075))

/-- R83: ENC32. -/
def Obligations.Enc32DrivesItsRule : Prop :=
  ∀ (p : Inputs) (s : State), p.op = 0x1 →
    decode p = some (.enc32 (p.a.extractLsb' 0 32)) ∧
    ∃ r : Half, exec (.enc32 (p.a.extractLsb' 0 32)) s = .next { s with outs := ⟨r, 0, false⟩ } ∧
      let b := p.a.toNat % 2 ^ 32
      let S := b / 2 ^ 31
      let E := b / 2 ^ 23 % 2 ^ 8
      let F := b % 2 ^ 23
      r.toNat =
        if E = 255 ∧ F ≠ 0 then S <<< 15 ||| 0x7E00 ||| F / 2 ^ 13 % 2 ^ 9
        else if E = 255 then S <<< 15 ||| 0x7C00
        else if E = 0 ∧ F = 0 then S <<< 15
        else S <<< 15 ||| mag16 (if E = 0 then Fraction.scaled 0 F (-149) else Fraction.scaled 0 (2 ^ 23 + F) (E - 150))

/-- R84 and R85, inferences of the spec: on a finite nonzero input the bit-level magnitudes are `mag16` of the exact magnitude. -/
def Obligations.BitLevelFormsAgree : Prop :=
  (∀ a : Wide, (category64 a).isFinite → category64 a ≠ .zero →
    mag64Bits (exp64 a).toNat (frac64 a).toNat = mag16 (val64 a).abs) ∧
  (∀ b : Single, (category32 b).isFinite → category32 b ≠ .zero →
    mag32Bits (exp32 b).toNat (frac32 b).toNat = mag16 (val32 b).abs)

/-- R86: a finite magnitude encodes as infinity exactly from 65520 on, and as 0x7BFF between 65504 and 65520. -/
def Obligations.EncoderOverflowThreshold : Prop :=
  (∀ (a : Wide) (s : State), (category64 a).isFinite →
    ∃ t, exec (.enc64 a) s = .next t ∧
      (t.outs.r16.extractLsb' 0 15 = 0x7C00 ↔ 65520 ≤ |(val64 a).toRat|) ∧
      (65504 < |(val64 a).toRat| ∧ |(val64 a).toRat| < 65520 → t.outs.r16.extractLsb' 0 15 = 0x7BFF)) ∧
  (∀ (b : Single) (s : State), (category32 b).isFinite →
    ∃ t, exec (.enc32 b) s = .next t ∧
      (t.outs.r16.extractLsb' 0 15 = 0x7C00 ↔ 65520 ≤ |(val32 b).toRat|) ∧
      (65504 < |(val32 b).toRat| ∧ |(val32 b).toRat| < 65520 → t.outs.r16.extractLsb' 0 15 = 0x7BFF))

/-- R87, an inference of the spec: a nonzero magnitude below `2^-14` is rounded on the grid of spacing `2^-24`, and gives a signed zero
exactly when it is at most `2^-25`. -/
def Obligations.EncoderUnderflow : Prop :=
  (∀ (a : Wide) (s : State), 0 < |(val64 a).toRat| → |(val64 a).toRat| < 1 / 2 ^ 14 →
    ∃ t, exec (.enc64 a) s = .next t ∧
      (t.outs.r16.extractLsb' 0 15).toNat = roundTE ((val64 a).abs.divPow2 (-24)) ∧
      (t.outs.r16.extractLsb' 0 15 = 0 ↔ |(val64 a).toRat| ≤ 1 / 2 ^ 25)) ∧
  (∀ (b : Single) (s : State), 0 < |(val32 b).toRat| → |(val32 b).toRat| < 1 / 2 ^ 14 →
    ∃ t, exec (.enc32 b) s = .next t ∧
      (t.outs.r16.extractLsb' 0 15).toNat = roundTE ((val32 b).abs.divPow2 (-24)) ∧
      (t.outs.r16.extractLsb' 0 15 = 0 ↔ |(val32 b).toRat| ≤ 1 / 2 ^ 25))

/-- R88: the output's sign bit is the input's, for every input of both widths. -/
def Obligations.EncoderKeepsTheSign : Prop :=
  ∀ (a : Wide) (b : Single) (s : State), ∃ t u, exec (.enc64 a) s = .next t ∧ exec (.enc32 b) s = .next u ∧
    t.outs.r16.getLsbD 15 = a.getLsbD 63 ∧ u.outs.r16.getLsbD 15 = b.getLsbD 31

/-- R91, an inference of the spec: ENC32 of a binary32 value is ENC64 of its exact widening. The widening has the sign of the pattern
and, for every pattern that is no NaN, infinities included, its value; a NaN's is a NaN with the fraction `F32 << 29`. -/
def Obligations.EncoderWidthIndependence : Prop :=
  ∀ (b : Single) (s : State),
    (∃ t, exec (.enc32 b) s = .next t ∧ exec (.enc64 (widen b)) s = .next t) ∧
    sign64 (widen b) = sign32 b ∧
    (category32 b ≠ .nan → value64 (widen b) = value32 b) ∧
    (category32 b = .nan → category64 (widen b) = .nan ∧ (frac64 (widen b)).toNat = (frac32 b).toNat <<< 29) ∧
    ((category32 b).isFinite → (category64 (widen b)).isFinite ∧ (val64 (widen b)).toRat = (val32 b).toRat)

/-- R92, an inference of the spec: encoding what the decoder drives gives the pattern back, for both widths; a NaN comes back through
binary64 with its quiet bit set. -/
def Obligations.ExactRoundTrip : Prop :=
  ∀ (p : Half) (s : State), ∃ t u t' u',
    exec (.dec64 p) s = .next t ∧ exec (.enc64 t.outs.r64) s = .next u ∧
    exec (.dec32 p) s = .next t' ∧ exec (.enc32 (t'.outs.r64.extractLsb' 0 32)) s = .next u' ∧
    (isNaN16 p = false → u.outs.r16 = p ∧ u'.outs.r16 = p) ∧
    (isNaN16 p = true → u.outs.r16 = p ||| 0x0200 ∧ eq16 u.outs.r16 p = true)

/-- R93, an inference of the spec: below 65520 the encoded value is within half an ulp, and exact for binary16 values alone. -/
def Obligations.NearRoundTrip : Prop :=
  ∀ (a : Wide) (s : State), (category64 a).isFinite → |(val64 a).toRat| < 65520 →
    ∃ t, exec (.enc64 a) s = .next t ∧ (category16 t.outs.r16).isFinite ∧
      (∀ k : ℤ, -14 ≤ k → |(val64 a).toRat| < 2 ^ (k + 1) →
        |(val16 t.outs.r16).toRat - (val64 a).toRat| ≤ 2 ^ (k - 11)) ∧
      ((val16 t.outs.r16).toRat = (val64 a).toRat ↔
        ∃ h : Half, (category16 h).isFinite ∧ (val16 h).toRat = (val64 a).toRat)

/-- R94, an inference of the spec: the encoder is monotone, the infinities being the extremes. -/
def Obligations.EncoderIsMonotone : Prop :=
  ∀ (a b : Wide) (s : State), (category64 a).isFinite → (category64 b).isFinite → (val64 a).toRat ≤ (val64 b).toRat →
    ∃ t u, exec (.enc64 a) s = .next t ∧ exec (.enc64 b) s = .next u ∧
      (t.outs.r16 = 0xFC00 ∨ u.outs.r16 = 0x7C00 ∨
        ((category16 t.outs.r16).isFinite ∧ (category16 u.outs.r16).isFinite ∧
          (val16 t.outs.r16).toRat ≤ (val16 u.outs.r16).toRat))

/-! ## The decoder -/

/-- R100: DEC64. -/
def Obligations.Dec64DrivesItsRule : Prop :=
  ∀ (p : Inputs) (st : State), p.op = 0x2 →
    decode p = some (.dec64 p.x) ∧
    ∃ r : Wide, exec (.dec64 p.x) st = .next { st with outs := ⟨0x0000, r, false⟩ } ∧
      let s := p.x.toNat / 2 ^ 15
      let e := p.x.toNat / 2 ^ 10 % 2 ^ 5
      let f := p.x.toNat % 2 ^ 10
      (e = 0 ∧ f = 0 → r.toNat = s <<< 63) ∧
      (e = 0 → ∀ m, 2 ^ m ≤ f → f < 2 ^ (m + 1) →
        r.toNat = s <<< 63 ||| (m + 999) <<< 52 ||| (f - 2 ^ m) <<< (52 - m)) ∧
      (1 ≤ e ∧ e ≤ 30 → r.toNat = s <<< 63 ||| (e + 1008) <<< 52 ||| f <<< 42) ∧
      (e = 31 ∧ f = 0 → r.toNat = s <<< 63 ||| 2047 <<< 52) ∧
      (e = 31 ∧ f ≠ 0 → r.toNat = s <<< 63 ||| 2047 <<< 52 ||| 1 <<< 51 ||| f <<< 42)

/-- R101: DEC32. -/
def Obligations.Dec32DrivesItsRule : Prop :=
  ∀ (p : Inputs) (st : State), p.op = 0x3 →
    decode p = some (.dec32 p.x) ∧
    ∃ r : Wide, exec (.dec32 p.x) st = .next { st with outs := ⟨0x0000, r, false⟩ } ∧
      let s := p.x.toNat / 2 ^ 15
      let e := p.x.toNat / 2 ^ 10 % 2 ^ 5
      let f := p.x.toNat % 2 ^ 10
      (e = 0 ∧ f = 0 → r.toNat = s <<< 31) ∧
      (e = 0 → ∀ m, 2 ^ m ≤ f → f < 2 ^ (m + 1) →
        r.toNat = s <<< 31 ||| (m + 103) <<< 23 ||| (f - 2 ^ m) <<< (23 - m)) ∧
      (1 ≤ e ∧ e ≤ 30 → r.toNat = s <<< 31 ||| (e + 112) <<< 23 ||| f <<< 13) ∧
      (e = 31 ∧ f = 0 → r.toNat = s <<< 31 ||| 255 <<< 23) ∧
      (e = 31 ∧ f ≠ 0 → r.toNat = s <<< 31 ||| 255 <<< 23 ||| 1 <<< 22 ||| f <<< 13)

/-- R102: category and sign are preserved, but a denormalized pattern gives a normalized wide value. -/
def Obligations.DecoderKeepsCategoryAndSign : Prop :=
  ∀ (h : Half) (s : State), ∃ t u, exec (.dec64 h) s = .next t ∧ exec (.dec32 h) s = .next u ∧
    (let c := if category16 h = .denormalized then .normalized else category16 h
     category64 t.outs.r64 = c ∧ category32 (u.outs.r64.extractLsb' 0 32) = c) ∧
    t.outs.r64.getLsbD 63 = h.getLsbD 15 ∧ u.outs.r64.getLsbD 31 = h.getLsbD 15

/-- R103, an inference of the spec: decoding is exact in both widths, infinities and signed zeros included. -/
def Obligations.DecoderIsExact : Prop :=
  ∀ (h : Half) (s : State), isNaN16 h = false →
    ∃ t u, exec (.dec64 h) s = .next t ∧ exec (.dec32 h) s = .next u ∧
      value64 t.outs.r64 = value16 h ∧ value32 (u.outs.r64.extractLsb' 0 32) = value16 h ∧
      sign64 t.outs.r64 = sign16 h ∧ sign32 (u.outs.r64.extractLsb' 0 32) = sign16 h

/-- R106, an inference of the spec: DEC64 is the exact widening of DEC32. -/
def Obligations.DecoderWidthAgreement : Prop :=
  ∀ (h : Half) (s : State), ∃ t u, exec (.dec64 h) s = .next t ∧ exec (.dec32 h) s = .next u ∧
    t.outs.r64 = widen (u.outs.r64.extractLsb' 0 32)

/-! ## Arithmetic -/

/-- R125: ADD is the pipeline of R120, with its corner cases, and with the arms of R121 for infinities and zeros at every operand
they speak of. -/
def Obligations.AddDrivesItsRule : Prop :=
  (∀ (p : Inputs) (s : State), p.op = 0x4 → decode p = some (.add p.x p.y) ∧
    ∃ a b t, exec (.dec64 p.x) s = .next a ∧ exec (.dec64 p.y) s = .next b ∧
      exec (.enc64 (f64add a.outs.r64 b.outs.r64)) s = .next t ∧ exec (.add p.x p.y) s = .next t ∧
      t.outs.r64 = 0 ∧ t.outs.badOp = false) ∧
  (∀ x y, isNaN16 x ∨ isNaN16 y → Gives16 (.add x y) 0x7E00) ∧
  (∀ x y, category16 x = .infinity → (category16 y).isFinite → Gives16 (.add x y) x ∧ Gives16 (.add y x) x) ∧
  (∀ x, category16 x = .infinity → Gives16 (.add x x) x ∧ Gives16 (.add x (x ^^^ 0x8000)) 0x7E00) ∧
  (∀ x, (category16 x).isFinite → Gives16 (.add x (x ^^^ 0x8000)) 0x0000) ∧
  Gives16 (.add 0x0000 0x0000) 0x0000 ∧
  Gives16 (.add 0x7C00 0xFC00) 0x7E00 ∧ Gives16 (.add 0x8000 0x8000) 0x8000 ∧ Gives16 (.add 0x0000 0x8000) 0x0000 ∧
  Gives16 (.add 0x7BFF 0x7BFF) 0x7C00 ∧ Gives16 (.add 0x7BFF 0x4C00) 0x7C00 ∧ Gives16 (.add 0x7BFF 0x4800) 0x7BFF ∧
  Gives16 (.add 0x3C00 0x1000) 0x3C00 ∧ Gives16 (.add 0x03FF 0x0001) 0x0400 ∧ Gives16 (.add 0x3C00 0x3C00) 0x4000

/-- R126: SUB is the pipeline of R120, with its corner cases, and with the arms of R121 for a NaN, infinities and zeros at every
operand they speak of. -/
def Obligations.SubDrivesItsRule : Prop :=
  (∀ (p : Inputs) (s : State), p.op = 0x5 → decode p = some (.sub p.x p.y) ∧
    ∃ a b t, exec (.dec64 p.x) s = .next a ∧ exec (.dec64 p.y) s = .next b ∧
      exec (.enc64 (f64sub a.outs.r64 b.outs.r64)) s = .next t ∧ exec (.sub p.x p.y) s = .next t ∧
      t.outs.r64 = 0 ∧ t.outs.badOp = false) ∧
  (∀ x y, isNaN16 x ∨ isNaN16 y → Gives16 (.sub x y) 0x7E00) ∧
  (∀ x y, category16 x = .infinity → (category16 y).isFinite →
    Gives16 (.sub x y) x ∧ Gives16 (.sub y x) (x ^^^ 0x8000)) ∧
  (∀ x, category16 x = .infinity → Gives16 (.sub x x) 0x7E00 ∧ Gives16 (.sub x (x ^^^ 0x8000)) x) ∧
  (∀ x, (category16 x).isFinite → Gives16 (.sub x x) 0x0000) ∧
  Gives16 (.sub 0x8000 0x0000) 0x8000 ∧ Gives16 (.sub 0x0000 0x8000) 0x0000 ∧ Gives16 (.sub 0x7C00 0x7C00) 0x7E00 ∧
  Gives16 (.sub 0xFBFF 0x4C00) 0xFC00 ∧ Gives16 (.sub 0x0400 0x0001) 0x03FF ∧ Gives16 (.sub 0x3C00 0x3C01) 0x9400

/-- R127: MUL is the pipeline of R120, with its corner cases, and with the arms of R122 for a NaN, infinities and zeros at every
operand they speak of. -/
def Obligations.MulDrivesItsRule : Prop :=
  (∀ (p : Inputs) (s : State), p.op = 0x6 → decode p = some (.mul p.x p.y) ∧
    ∃ a b t, exec (.dec64 p.x) s = .next a ∧ exec (.dec64 p.y) s = .next b ∧
      exec (.enc64 (f64mul a.outs.r64 b.outs.r64)) s = .next t ∧ exec (.mul p.x p.y) s = .next t ∧
      t.outs.r64 = 0 ∧ t.outs.badOp = false ∧
      (isNaN16 t.outs.r16 = false → t.outs.r16.getLsbD 15 = (p.x.getLsbD 15 ^^ p.y.getLsbD 15))) ∧
  (∀ x y, isNaN16 x ∨ isNaN16 y → Gives16 (.mul x y) 0x7E00) ∧
  (∀ x y, category16 x = .infinity → category16 y = .zero → Gives16 (.mul x y) 0x7E00 ∧ Gives16 (.mul y x) 0x7E00) ∧
  (∀ x y, category16 x = .infinity → category16 y ≠ .zero → category16 y ≠ .nan →
    Gives16 (.mul x y) ((sign16 x ^^^ sign16 y) ++ 0x7C00#15) ∧ Gives16 (.mul y x) ((sign16 x ^^^ sign16 y) ++ 0x7C00#15)) ∧
  (∀ x y, category16 x = .zero → (category16 y).isFinite →
    Gives16 (.mul x y) ((sign16 x ^^^ sign16 y) ++ 0#15) ∧ Gives16 (.mul y x) ((sign16 x ^^^ sign16 y) ++ 0#15)) ∧
  Gives16 (.mul 0x3C00 0x8000) 0x8000 ∧ Gives16 (.mul 0xBC00 0x0000) 0x8000 ∧ Gives16 (.mul 0x7C00 0x0000) 0x7E00 ∧
  Gives16 (.mul 0x7C00 0xBC00) 0xFC00 ∧ Gives16 (.mul 0x7BFF 0x4000) 0x7C00 ∧ Gives16 (.mul 0x0001 0x3800) 0x0000 ∧
  Gives16 (.mul 0x0001 0x3E00) 0x0002 ∧ Gives16 (.mul 0x0001 0x0001) 0x0000 ∧ Gives16 (.mul 0x5BFF 0x5BFF) 0x7BFE ∧
  Gives16 (.mul 0x4000 0x4000) 0x4400

/-- R128: DIV is the pipeline of R120, with its corner cases, and with the arms of R123 for a NaN, infinities and zeros at every
operand they speak of. -/
def Obligations.DivDrivesItsRule : Prop :=
  (∀ (p : Inputs) (s : State), p.op = 0x7 → decode p = some (.div p.x p.y) ∧
    ∃ a b t, exec (.dec64 p.x) s = .next a ∧ exec (.dec64 p.y) s = .next b ∧
      exec (.enc64 (f64div a.outs.r64 b.outs.r64)) s = .next t ∧ exec (.div p.x p.y) s = .next t ∧
      t.outs.r64 = 0 ∧ t.outs.badOp = false) ∧
  (∀ x y, isNaN16 x ∨ isNaN16 y → Gives16 (.div x y) 0x7E00) ∧
  (∀ x y, category16 x = .infinity → category16 y = .infinity → Gives16 (.div x y) 0x7E00) ∧
  (∀ x y, category16 x = .zero → category16 y = .zero → Gives16 (.div x y) 0x7E00) ∧
  (∀ x y, category16 x = .infinity → (category16 y).isFinite →
    Gives16 (.div x y) ((sign16 x ^^^ sign16 y) ++ 0x7C00#15) ∧ Gives16 (.div y x) ((sign16 x ^^^ sign16 y) ++ 0#15)) ∧
  (∀ x y, category16 x = .zero → (category16 y).isFinite → category16 y ≠ .zero →
    Gives16 (.div x y) ((sign16 x ^^^ sign16 y) ++ 0#15) ∧ Gives16 (.div y x) ((sign16 x ^^^ sign16 y) ++ 0x7C00#15)) ∧
  Gives16 (.div 0x3C00 0x0000) 0x7C00 ∧ Gives16 (.div 0x3C00 0x8000) 0xFC00 ∧ Gives16 (.div 0xBC00 0x0000) 0xFC00 ∧
  Gives16 (.div 0x0000 0x0000) 0x7E00 ∧ Gives16 (.div 0x7C00 0x7C00) 0x7E00 ∧
  Gives16 (.div 0x7C00 0x0000) 0x7C00 ∧ Gives16 (.div 0x3C00 0x7C00) 0x0000 ∧ Gives16 (.div 0xBC00 0x7C00) 0x8000 ∧
  Gives16 (.div 0x7BFF 0x0001) 0x7C00 ∧ Gives16 (.div 0x0001 0x7BFF) 0x0000 ∧ Gives16 (.div 0x0001 0x4000) 0x0000 ∧
  Gives16 (.div 0x0003 0x4000) 0x0002 ∧ Gives16 (.div 0x3C00 0x4200) 0x3555

/-- R129 for ADD and SUB, an inference of the spec: a nonzero sum or difference is the exact one rounded once. -/
def Obligations.SingleRoundingAddSub : Prop :=
  ∀ x y : Half, (category16 x).isFinite → (category16 y).isFinite →
    (∀ z : Fraction, 0 < z.den → z.num ≠ 0 → z.toRat = (val16 x).toRat + (val16 y).toRat →
      Gives16 (.add x y) ((if z.num < 0 then 1#1 else 0#1) ++ BitVec.ofNat 15 (mag16 z.abs))) ∧
    (∀ z : Fraction, 0 < z.den → z.num ≠ 0 → z.toRat = (val16 x).toRat - (val16 y).toRat →
      Gives16 (.sub x y) ((if z.num < 0 then 1#1 else 0#1) ++ BitVec.ofNat 15 (mag16 z.abs)))

/-- R129 for MUL, an inference of the spec: a nonzero product is the exact one rounded once. -/
def Obligations.SingleRoundingMul : Prop :=
  ∀ (x y : Half) (z : Fraction), (category16 x).isFinite → (category16 y).isFinite →
    0 < z.den → z.num ≠ 0 → z.toRat = (val16 x).toRat * (val16 y).toRat →
    Gives16 (.mul x y) ((if z.num < 0 then 1#1 else 0#1) ++ BitVec.ofNat 15 (mag16 z.abs))

/-- R129 for DIV, an inference of the spec: a nonzero quotient is the exact one rounded once, although the pipeline rounds twice
(90_conflicts.md C3). -/
def Obligations.SingleRoundingDiv : Prop :=
  ∀ (x y : Half) (z : Fraction), (category16 x).isFinite → (category16 y).isFinite → category16 y ≠ .zero →
    0 < z.den → z.num ≠ 0 → z.toRat = (val16 x).toRat / (val16 y).toRat →
    Gives16 (.div x y) ((if z.num < 0 then 1#1 else 0#1) ++ BitVec.ofNat 15 (mag16 z.abs))

/-- R124, an inference of the spec: on decoded finite operands the binary64 operations give no infinity and no subnormal. -/
def Obligations.WideOperationsStayNormal : Prop :=
  ∀ x y : Half, (category16 x).isFinite → (category16 y).isFinite →
    ∀ r ∈ [f64add (dec64 x) (dec64 y), f64sub (dec64 x) (dec64 y), f64mul (dec64 x) (dec64 y)] ++
        (if category16 y = .zero then [] else [f64div (dec64 x) (dec64 y)]),
      category64 r = .zero ∨ category64 r = .normalized

/-- R131, an inference of the spec: SUB is ADD of the negated operand, and NEG is not SUB from zero. -/
def Obligations.SubIsAddOfNegated : Prop :=
  (∀ (x y : Half) (s : State), ∃ t u, exec (.neg y) s = .next u ∧ exec (.add x u.outs.r16) s = .next t ∧
    exec (.sub x y) s = .next t) ∧
  Gives16 (.neg 0x0000) 0x8000 ∧ Gives16 (.sub 0x0000 0x0000) 0x0000 ∧
  (∀ x, isNaN16 x → Gives16 (.neg x) (x ^^^ 0x8000) ∧ Gives16 (.sub 0x0000 x) 0x7E00)

/-- R132, an inference of the spec: ADD and MUL are commutative bit for bit, NaN operands included. -/
def Obligations.AddAndMulCommute : Prop :=
  ∀ (x y : Half) (s : State),
    (∃ t, exec (.add x y) s = .next t ∧ exec (.add y x) s = .next t) ∧
    (∃ t, exec (.mul x y) s = .next t ∧ exec (.mul y x) s = .next t)

/-- R135, an inference of the spec: the arithmetic operations give 0x7E00 exactly on a NaN operand and on an invalid operation. -/
def Obligations.ArithmeticNaNExactly : Prop :=
  ∀ (x y : Half) (s : State), ∃ a b c d,
    exec (.add x y) s = .next a ∧ exec (.sub x y) s = .next b ∧ exec (.mul x y) s = .next c ∧ exec (.div x y) s = .next d ∧
    let nan := isNaN16 x = true ∨ isNaN16 y = true
    let bothInf := category16 x = .infinity ∧ category16 y = .infinity
    (a.outs.r16 = 0x7E00 ↔ nan ∨ (bothInf ∧ sign16 x ≠ sign16 y)) ∧
    (b.outs.r16 = 0x7E00 ↔ nan ∨ (bothInf ∧ sign16 x = sign16 y)) ∧
    (c.outs.r16 = 0x7E00 ↔ nan ∨ (category16 x = .infinity ∧ category16 y = .zero) ∨
      (category16 x = .zero ∧ category16 y = .infinity)) ∧
    (d.outs.r16 = 0x7E00 ↔ nan ∨ bothInf ∨ (category16 x = .zero ∧ category16 y = .zero))

/-- R137, an inference of the spec: the sign of a zero result. ADD gives `-0` only for two negative zeros and SUB only for `-0 - +0`;
every other exact-zero sum or difference is `+0`, and a nonzero one gives no zero. -/
def Obligations.SignOfZeroResults : Prop :=
  ∀ (x y : Half) (s : State), ∃ a b c d,
    exec (.add x y) s = .next a ∧ exec (.sub x y) s = .next b ∧ exec (.mul x y) s = .next c ∧ exec (.div x y) s = .next d ∧
    (a.outs.r16 = 0x8000 ↔ x = 0x8000 ∧ y = 0x8000) ∧
    (b.outs.r16 = 0x8000 ↔ x = 0x8000 ∧ y = 0x0000) ∧
    ((category16 x).isFinite → (category16 y).isFinite →
      ((val16 x).toRat + (val16 y).toRat = 0 → ¬(x = 0x8000 ∧ y = 0x8000) → a.outs.r16 = 0x0000) ∧
      ((val16 x).toRat - (val16 y).toRat = 0 → ¬(x = 0x8000 ∧ y = 0x0000) → b.outs.r16 = 0x0000) ∧
      ((val16 x).toRat + (val16 y).toRat ≠ 0 → category16 a.outs.r16 ≠ .zero) ∧
      ((val16 x).toRat - (val16 y).toRat ≠ 0 → category16 b.outs.r16 ≠ .zero)) ∧
    (category16 c.outs.r16 = .zero → sign16 c.outs.r16 = sign16 x ^^^ sign16 y) ∧
    (category16 d.outs.r16 = .zero → sign16 d.outs.r16 = sign16 x ^^^ sign16 y)

/-! ## Negation and raw bits -/

/-- R130: NEG. -/
def Obligations.NegDrivesItsRule : Prop :=
  (∀ (p : Inputs), p.op = 0x8 → decode p = some (.neg p.x) ∧ Gives16 (.neg p.x) (p.x ^^^ 0x8000)) ∧
  (∀ x : Half, Gives16 (.neg (x ^^^ 0x8000)) x ∧ category16 (x ^^^ 0x8000) = category16 x ∧
    frac16 (x ^^^ 0x8000) = frac16 x ∧ sign16 (x ^^^ 0x8000) = sign16 x ^^^ 1#1) ∧
  Gives16 (.neg 0x0000) 0x8000 ∧ Gives16 (.neg 0x8000) 0x0000 ∧ Gives16 (.neg 0x7C00) 0xFC00 ∧
  Gives16 (.neg 0x7E00) 0xFE00 ∧ Gives16 (.neg 0x7C01) 0xFC01 ∧ Gives16 (.neg 0x3C00) 0xBC00

/-- R150: MOV16. -/
def Obligations.Mov16DrivesItsRule : Prop :=
  (∀ p : Inputs, p.op = 0x9 → decode p = some (.mov16 p.x) ∧ Gives16 (.mov16 p.x) p.x) ∧
  Gives16 (.mov16 0x7C01) 0x7C01 ∧ Gives16 (.mov16 0x8000) 0x8000 ∧ Gives16 (.mov16 0x7BFF) 0x7BFF

/-! ## The binary64 operations -/

/-- R121: the binary64 sum and difference. A NaN operand, and infinities of opposite signs, give `DNAN`; an infinity beside a finite
operand, or beside one of its own sign, gives that infinity; the exact sum `z` of two finite operands is rounded once with its own
sign, but that a zero `z` is `+0` unless both operands are `-0`. The difference is the sum with the second sign bit flipped. -/
def Obligations.WideAddAndSubFollowTheirRule : Prop :=
  (∀ a b : Wide,
    (isNaN64 a ∨ isNaN64 b → f64add a b = 0x7FF8000000000000) ∧
    (isInf64 a ∧ isInf64 b → f64add a b = if sign64 a = sign64 b then a else 0x7FF8000000000000) ∧
    (isInf64 a ∧ (category64 b).isFinite → f64add a b = a ∧ f64add b a = a) ∧
    ((category64 a).isFinite → (category64 b).isFinite →
      ∀ z : Fraction, 0 < z.den → z.toRat = (val64 a).toRat + (val64 b).toRat →
        (z.num = 0 → f64add a b = if a = 0x8000000000000000 ∧ b = 0x8000000000000000 then 0x8000000000000000 else 0) ∧
        (z.num ≠ 0 → (f64add a b).toNat =
          (if z.num < 0 then 1 else 0) <<< 63 ||| packedMagnitude (rne 53 (-1022) 1023 z.abs)))) ∧
  (∀ a b : Wide, f64sub a b = f64add a (b ^^^ 0x8000000000000000))

/-- R122 and R123: the binary64 product and quotient, with `S` the exclusive or of the sign bits. The special values are the rules'
arms one by one; the exact magnitude `z` of two finite nonzero operands is rounded once with sign `S`. -/
def Obligations.WideMulAndDivFollowTheirRules : Prop :=
  ∀ a b : Wide,
    let S := a.toNat / 2 ^ 63 ^^^ b.toNat / 2 ^ 63
    let nonzero (c : Wide) := (category64 c).isFinite ∧ category64 c ≠ .zero
    (isNaN64 a ∨ isNaN64 b → f64mul a b = 0x7FF8000000000000 ∧ f64div a b = 0x7FF8000000000000) ∧
    ((isInf64 a ∧ isZero64 b) ∨ (isZero64 a ∧ isInf64 b) → f64mul a b = 0x7FF8000000000000) ∧
    ((isInf64 a ∧ (isInf64 b ∨ nonzero b)) ∨ (nonzero a ∧ isInf64 b) → (f64mul a b).toNat = S <<< 63 ||| 2047 <<< 52) ∧
    ((isZero64 a ∧ (category64 b).isFinite) ∨ ((category64 a).isFinite ∧ isZero64 b) → (f64mul a b).toNat = S <<< 63) ∧
    ((isInf64 a ∧ isInf64 b) ∨ (isZero64 a ∧ isZero64 b) → f64div a b = 0x7FF8000000000000) ∧
    (isInf64 a ∧ (category64 b).isFinite → (f64div a b).toNat = S <<< 63 ||| 2047 <<< 52) ∧
    ((category64 a).isFinite ∧ isInf64 b → (f64div a b).toNat = S <<< 63) ∧
    (nonzero a ∧ isZero64 b → (f64div a b).toNat = S <<< 63 ||| 2047 <<< 52) ∧
    (isZero64 a ∧ nonzero b → (f64div a b).toNat = S <<< 63) ∧
    (nonzero a ∧ nonzero b → ∀ z : Fraction, 0 < z.den →
      (z.toRat = |(val64 a).toRat| * |(val64 b).toRat| →
        (f64mul a b).toNat = S <<< 63 ||| packedMagnitude (rne 53 (-1022) 1023 z)) ∧
      (z.toRat = |(val64 a).toRat| / |(val64 b).toRat| →
        (f64div a b).toNat = S <<< 63 ||| packedMagnitude (rne 53 (-1022) 1023 z)))
end

