-- ==== Sys2Proof/Laws/Rounding.lean ====
section
/-!
SUPPORT. What the exact fractions of Machine/Rounding.lean stand for: each operation on fractions is the operation on rationals.
-/

namespace Sys2Proof.Machine

theorem Fraction.toRat_nonneg {v : Fraction} (h : 0 ≤ v.num) : 0 ≤ v.toRat :=
  div_nonneg (by exact_mod_cast h) (by positivity)

theorem Fraction.toRat_natAbs {v : Fraction} (h : 0 ≤ v.num) : v.toRat = (v.num.natAbs : ℚ) / v.den := by
  have e : (v.num : ℚ) = ((v.num.natAbs : ℤ) : ℚ) := by rw [Int.natAbs_of_nonneg h]
  rw [Fraction.toRat, e, Int.cast_natCast]

theorem Fraction.divPow2_den_pos {v : Fraction} (h : 0 < v.den) (e : Int) : 0 < (v.divPow2 e).den := by
  cases e with
  | ofNat k => exact Nat.mul_pos h (by positivity)
  | negSucc k => exact h

theorem Fraction.divPow2_toRat (v : Fraction) (e : Int) : (v.divPow2 e).toRat = v.toRat / 2 ^ e := by
  cases e with
  | ofNat k => simp [Fraction.divPow2, Fraction.toRat, div_div]
  | negSucc k =>
    simp only [Fraction.divPow2, Fraction.toRat, zpow_negSucc, div_inv_eq_mul]
    push_cast
    ring

theorem Fraction.scaled_den_pos (S : BitVec 1) (m : Nat) (e : Int) : 0 < (Fraction.scaled S m e).den :=
  Fraction.divPow2_den_pos Nat.one_pos _

/-- `(-1)^S * m * 2^e`. -/
theorem Fraction.scaled_toRat (S : BitVec 1) (m : Nat) (e : Int) :
    (Fraction.scaled S m e).toRat = (if S = 1#1 then -1 else 1) * (m : ℚ) * 2 ^ e := by
  rw [Fraction.scaled, Fraction.divPow2_toRat, zpow_neg, div_inv_eq_mul, Fraction.toRat]
  split <;> simp

@[simp] theorem Fraction.abs_den (v : Fraction) : v.abs.den = v.den := rfl

theorem Fraction.abs_num_nonneg (v : Fraction) : 0 ≤ v.abs.num := Int.natCast_nonneg _

theorem Fraction.abs_toRat (v : Fraction) : v.abs.toRat = |v.toRat| := by
  have e : ((v.num.natAbs : ℤ) : ℚ) = |(v.num : ℚ)| := by rw [Int.natCast_natAbs, Int.cast_abs]
  rw [Fraction.toRat, Fraction.abs, Fraction.toRat, abs_div, e, Nat.abs_cast]

theorem Fraction.add_toRat {u v : Fraction} (hu : 0 < u.den) (hv : 0 < v.den) :
    (u.add v).toRat = u.toRat + v.toRat := by
  have hu' : (u.den : ℚ) ≠ 0 := by exact_mod_cast hu.ne'
  have hv' : (v.den : ℚ) ≠ 0 := by exact_mod_cast hv.ne'
  simp only [Fraction.add, Fraction.toRat]
  push_cast
  field_simp

theorem Fraction.mul_toRat (u v : Fraction) : (u.mul v).toRat = u.toRat * v.toRat := by
  simp only [Fraction.mul, Fraction.toRat]
  push_cast
  rw [div_mul_div_comm]

theorem Fraction.div_toRat {u v : Fraction} (hv : 0 ≤ v.num) : (u.div v).toRat = u.toRat / v.toRat := by
  rw [Fraction.toRat_natAbs hv]
  simp only [Fraction.div, Fraction.toRat]
  push_cast
  rw [div_div_div_eq]

/-- The overflow threshold of R15. -/
theorem overflows_iff {p emax : Nat} {v : Fraction} (hn : 0 ≤ v.num) (hd : 0 < v.den) :
    overflows p emax v = true ↔ (2 : ℚ) ^ emax * (2 - 1 / 2 ^ p) ≤ v.toRat := by
  have hd' : (0 : ℚ) < v.den := by exact_mod_cast hd
  have hp : (0 : ℚ) < 2 ^ p := by positivity
  have one : 1 ≤ 2 ^ (p + 1) := Nat.one_le_two_pow
  rw [overflows, decide_eq_true_iff, Fraction.toRat_natAbs hn, le_div_iff₀ hd', ← Nat.cast_le (α := ℚ)]
  push_cast [one]
  rw [← mul_le_mul_iff_left₀ hp (b := (2 : ℚ) ^ emax * (2 - 1 / 2 ^ p) * v.den)]
  have e : (2 : ℚ) ^ emax * (2 - 1 / 2 ^ p) * v.den * 2 ^ p = v.den * (2 ^ emax * (2 ^ (p + 1) - 1)) := by
    field_simp
    ring
  rw [e]

/-- `floorLog2 v` is the largest `k` with `2^k ≤ v` (R15). -/
theorem floorLog2_spec {v : Fraction} (hn : 0 < v.num) (hd : 0 < v.den) :
    (2 : ℚ) ^ floorLog2 v ≤ v.toRat ∧ v.toRat < 2 ^ (floorLog2 v + 1) := by
  have hd' : (0 : ℚ) < v.den := by exact_mod_cast hd
  have hnpos : 0 < v.num.natAbs := Int.natAbs_pos.mpr hn.ne'
  have hn' : (0 : ℚ) < v.num.natAbs := by exact_mod_cast hnpos
  rw [Fraction.toRat_natAbs hn.le]
  simp only [floorLog2]
  generalize v.num.natAbs = n at *
  generalize v.den = d at *
  split
  · have hq : n / d ≠ 0 := (Nat.div_pos ‹_› (by exact_mod_cast hd')).ne'
    have lo : 2 ^ (n / d).log2 * d ≤ n := (Nat.mul_le_mul_right d (Nat.log2_self_le hq)).trans (Nat.div_mul_le_self n d)
    have hi : n < 2 ^ ((n / d).log2 + 1) * d := (Nat.div_lt_iff_lt_mul hd).mp Nat.lt_log2_self
    refine ⟨?_, ?_⟩
    · rw [zpow_natCast, le_div_iff₀ hd']; exact_mod_cast lo
    · rw [show ((n / d).log2 + 1 : ℤ) = (((n / d).log2 + 1 : ℕ) : ℤ) by push_cast; rfl, zpow_natCast, div_lt_iff₀ hd']
      exact_mod_cast hi
  · have hc : (d - 1) / n ≠ 0 := (Nat.div_pos (by omega) hnpos).ne'
    have lo : d ≤ n * 2 ^ (((d - 1) / n).log2 + 1) := by
      have := (Nat.div_lt_iff_lt_mul hnpos).mp (Nat.lt_log2_self (n := (d - 1) / n))
      rw [Nat.mul_comm] at this
      omega
    have hi : n * 2 ^ ((d - 1) / n).log2 < d := by
      have := (Nat.mul_le_mul_right n (Nat.log2_self_le hc)).trans (Nat.div_mul_le_self (d - 1) n)
      rw [Nat.mul_comm] at this
      omega
    refine ⟨?_, ?_⟩
    · rw [zpow_neg, inv_le_comm₀ (by positivity) (by positivity), inv_div, div_le_iff₀ hn', mul_comm]
      exact_mod_cast lo
    · rw [show (-(((d - 1) / n).log2 + 1 : ℤ) + 1) = -(((d - 1) / n).log2 : ℤ) by ring, zpow_neg, zpow_natCast,
        lt_inv_comm₀ (by positivity) (by positivity), inv_div, lt_div_iff₀ hn', mul_comm]
      exact_mod_cast hi

/-! Rounding reads the number a fraction stands for, not the fraction: fractions of one value round alike. -/

/-- Fractions of one value, cleared of their denominators. -/
theorem Fraction.cross_of_toRat_eq {u v : Fraction} (hu : 0 < u.den) (hv : 0 < v.den) (h : u.toRat = v.toRat) :
    u.num.natAbs * v.den = v.num.natAbs * u.den := by
  have e : u.num * v.den = v.num * u.den := by
    rw [Fraction.toRat, Fraction.toRat, div_eq_div_iff (by exact_mod_cast hu.ne') (by exact_mod_cast hv.ne')] at h
    exact_mod_cast h
  simpa [Int.natAbs_mul] using congrArg Int.natAbs e

theorem roundTE_congr {u v : Fraction} (hu : 0 < u.den) (hv : 0 < v.den) (h : u.toRat = v.toRat) :
    roundTE u = roundTE v := by
  have c := Fraction.cross_of_toRat_eq hu hv h
  simp only [roundTE]
  generalize u.num.natAbs = m at *
  generalize v.num.natAbs = n at *
  generalize u.den = d at *
  generalize v.den = e at *
  have q : m / d = n / e := by
    rw [← Nat.mul_div_mul_right m d hv, ← Nat.mul_div_mul_right n e hu, c, Nat.mul_comm d e]
  have r : m % d * e = n % e * d := by
    rw [← Nat.mul_mod_mul_right, ← Nat.mul_mod_mul_right, c, Nat.mul_comm d e]
  have r2 : 2 * (m % d) * e = 2 * (n % e) * d := by rw [Nat.mul_assoc, r, Nat.mul_assoc]
  have gt : 2 * (m % d) > d ↔ 2 * (n % e) > e := by
    rw [gt_iff_lt, gt_iff_lt, ← Nat.mul_lt_mul_right hv, r2, Nat.mul_comm d e, Nat.mul_lt_mul_right hu]
  have eq : 2 * (m % d) = d ↔ 2 * (n % e) = e := by
    rw [← Nat.mul_left_inj hv.ne', r2, Nat.mul_comm d e, Nat.mul_left_inj hu.ne']
  rw [q, if_congr (or_congr gt (and_congr_left' eq)) rfl rfl]

theorem floorLog2_congr {u v : Fraction} (hn : 0 < u.num) (hm : 0 < v.num) (hu : 0 < u.den) (hv : 0 < v.den)
    (h : u.toRat = v.toRat) : floorLog2 u = floorLog2 v := by
  have a := floorLog2_spec hn hu
  have b := floorLog2_spec hm hv
  rw [h] at a
  have le := (zpow_lt_zpow_iff_right₀ one_lt_two).mp (a.1.trans_lt b.2)
  have ge := (zpow_lt_zpow_iff_right₀ one_lt_two).mp (b.1.trans_lt a.2)
  omega

/-- `RNE` of positive fractions of one value. -/
theorem rne_congr (p : Nat) (emin : Int) (emax : Nat) {u v : Fraction} (hn : 0 < u.num) (hm : 0 < v.num) (hu : 0 < u.den)
    (hv : 0 < v.den) (h : u.toRat = v.toRat) : rne p emin emax u = rne p emin emax v := by
  have o : overflows p emax u = overflows p emax v := by
    rw [Bool.eq_iff_iff, overflows_iff hn.le hu, overflows_iff hm.le hv, h]
  simp only [rne, o, floorLog2_congr hn hm hu hv h]
  rw [roundTE_congr (Fraction.divPow2_den_pos hu _) (Fraction.divPow2_den_pos hv _)
    (by rw [Fraction.divPow2_toRat, Fraction.divPow2_toRat, h])]

/-! What `RNE` can answer: an exponent in its range and a significand of at most `p` bits, or the next power of two. -/

/-- Below the threshold of R15 the exponent is at most `emax`. -/
theorem floorLog2_le_emax {p emax : Nat} {v : Fraction} (hn : 0 < v.num) (hd : 0 < v.den) (h : overflows p emax v = false) :
    floorLog2 v ≤ emax := by
  have o : ¬ (2 : ℚ) ^ emax * (2 - 1 / 2 ^ p) ≤ v.toRat := by rw [← overflows_iff hn.le hd, h]; simp
  have step : (2 : ℚ) ^ emax * (2 - 1 / 2 ^ p) ≤ 2 ^ (emax + 1) := by
    rw [pow_succ]
    exact mul_le_mul_of_nonneg_left (sub_le_self _ (by positivity)) (by positivity)
  have lt : (2 : ℚ) ^ floorLog2 v < 2 ^ ((emax + 1 : ℕ) : ℤ) := by
    rw [zpow_natCast]
    exact (floorLog2_spec hn hd).1.trans_lt ((not_le.mp o).trans_le step)
  have := (zpow_lt_zpow_iff_right₀ one_lt_two).mp lt
  omega

/-- A value of at most `n` rounds to at most `n`. -/
theorem roundTE_le {v : Fraction} (hn : 0 ≤ v.num) (hd : 0 < v.den) {n : Nat} (h : v.toRat ≤ n) : roundTE v ≤ n := by
  have hd' : (0 : ℚ) < v.den := by exact_mod_cast hd
  rw [Fraction.toRat_natAbs hn, div_le_iff₀ hd'] at h
  have h : v.num.natAbs ≤ n * v.den := by exact_mod_cast h
  simp only [roundTE]
  generalize v.num.natAbs = m at *
  rcases Nat.lt_or_ge (m / v.den) n with l | l
  · split <;> omega
  · have e := Nat.div_add_mod m v.den
    have ge : n * v.den ≤ v.den * (m / v.den) := Nat.mul_comm n v.den ▸ Nat.mul_le_mul_left v.den l
    have r0 : m % v.den = 0 := by omega
    rw [r0, if_neg (by omega)]
    exact Nat.le_of_mul_le_mul_left (by rw [Nat.mul_comm v.den n]; omega) hd

/-- The pair that `RNE` answers: `k` from `emin` on and no larger than `emax` allows, `N` at most `2^p`. -/
theorem rne_fin_bounds {p emax N : Nat} {emin k : Int} {v : Fraction} (hn : 0 < v.num) (hd : 0 < v.den)
    (h : rne p emin emax v = .fin k N) : emin ≤ k ∧ k ≤ max emin emax ∧ N ≤ 2 ^ p := by
  simp only [rne] at h
  split at h
  · cases h
  · rename_i o
    have f := floorLog2_le_emax hn hd (Bool.not_eq_true _ ▸ o)
    cases h
    refine ⟨by omega, by omega, roundTE_le ?_ (Fraction.divPow2_den_pos hd _) ?_⟩
    · cases max emin (floorLog2 v) - (p : Int) + 1 <;> simp [Fraction.divPow2, hn.le]
    · rw [Fraction.divPow2_toRat, div_le_iff₀ (by positivity), Nat.cast_pow, Nat.cast_ofNat, ← zpow_natCast,
        ← zpow_add₀ two_ne_zero]
      exact (floorLog2_spec hn hd).2.le.trans (zpow_le_zpow_right₀ one_le_two (by omega))

end Sys2Proof.Machine
end

