-- ==== Sys2Proof/Laws/Arithmetic.lean ====
section
/-!
SUPPORT. What the packing of a binary64 result gives (42_arithmetic.md section 2): the number the rule writes with a shift and an
or, since the rounded magnitude never reaches the sign bit.
-/

namespace Sys2Proof.Machine

theorem signed64_toNat (S : BitVec 1) {M : Nat} (h : M < 2 ^ 63) : (S ++ BitVec.ofNat 63 M).toNat = S.toNat <<< 63 ||| M := by
  rw [BitVec.toNat_append, BitVec.toNat_ofNat, Nat.mod_eq_of_lt h]

theorem zero64_toNat : ∀ S : BitVec 1, (zero64 S).toNat = S.toNat <<< 63 := by decide +kernel

theorem inf64_toNat : ∀ S : BitVec 1, (inf64 S).toNat = S.toNat <<< 63 ||| packedMagnitude .inf := by decide +kernel

/-- A rounded magnitude fits the 63 bits below the sign. -/
theorem packedMagnitude_lt {v : Fraction} (hn : 0 < v.num) (hd : 0 < v.den) : packedMagnitude (rne64 v) < 2 ^ 63 := by
  cases e : rne64 v with
  | inf => decide
  | fin k N =>
    obtain ⟨-, hk, hN⟩ := rne_fin_bounds hn hd e
    have k' : (k + 1022).toNat ≤ 2045 := by omega
    calc (k + 1022).toNat * 2 ^ 52 + N ≤ 2045 * 2 ^ 52 + 2 ^ 53 := Nat.add_le_add (Nat.mul_le_mul_right _ k') hN
      _ < 2 ^ 63 := by norm_num

/-- `pack64(S, t)` as the number the rule writes. -/
theorem pack64_toNat (S : BitVec 1) {v : Fraction} (hn : 0 < v.num) (hd : 0 < v.den) :
    (pack64 S (rne64 v)).toNat = S.toNat <<< 63 ||| packedMagnitude (rne64 v) := by
  have lt := packedMagnitude_lt hn hd
  cases h : rne64 v with
  | inf => exact inf64_toNat S
  | fin k N => rw [h] at lt; exact signed64_toNat S lt

end Sys2Proof.Machine
end

