-- ==== Sys2Proof/Laws/Formats.lean ====
section
/-!
SUPPORT. The small lemmas of the formats: a pattern is its three fields, categories by fields, and the values as rationals.
-/

namespace Sys2Proof.Machine

/-! A pattern is its sign, exponent and fraction, and each field reads back. -/

theorem fields16 (h : Half) : sign16 h ++ exp16 h ++ frac16 h = h := by
  ext i hi
  simp only [sign16, exp16, frac16, BitVec.getElem_append, BitVec.getElem_extractLsb']
  split
  · simp [BitVec.getLsbD_eq_getElem hi]
  · split
    · simp [show 10 + (i - 10) = i by omega, BitVec.getLsbD_eq_getElem hi]
    · simp [show 15 + (i - 10 - 5) = i by omega, BitVec.getLsbD_eq_getElem hi]

theorem fields32 (b : Single) : sign32 b ++ exp32 b ++ frac32 b = b := by
  ext i hi
  simp only [sign32, exp32, frac32, BitVec.getElem_append, BitVec.getElem_extractLsb']
  split
  · simp [BitVec.getLsbD_eq_getElem hi]
  · split
    · simp [show 23 + (i - 23) = i by omega, BitVec.getLsbD_eq_getElem hi]
    · simp [show 31 + (i - 23 - 8) = i by omega, BitVec.getLsbD_eq_getElem hi]

theorem fields64 (a : Wide) : sign64 a ++ exp64 a ++ frac64 a = a := by
  ext i hi
  simp only [sign64, exp64, frac64, BitVec.getElem_append, BitVec.getElem_extractLsb']
  split
  · simp [BitVec.getLsbD_eq_getElem hi]
  · split
    · simp [show 52 + (i - 52) = i by omega, BitVec.getLsbD_eq_getElem hi]
    · simp [show 63 + (i - 52 - 11) = i by omega, BitVec.getLsbD_eq_getElem hi]

/-! The parts of a concatenation, at any widths. -/

theorem extract_low {a b : Nat} (A : BitVec a) (B : BitVec b) : (A ++ B).extractLsb' 0 b = B := by
  ext i hi
  simp [BitVec.getLsbD_append, hi, BitVec.getLsbD_eq_getElem]

theorem extract_high {a b : Nat} (A : BitVec a) (B : BitVec b) : (A ++ B).extractLsb' b a = A := by
  ext i hi
  simp [BitVec.getLsbD_append, BitVec.getLsbD_eq_getElem hi]

theorem extract_mid {a b c : Nat} (A : BitVec a) (B : BitVec b) (C : BitVec c) :
    (A ++ B ++ C).extractLsb' c b = B := by
  ext i hi
  simp [BitVec.getLsbD_append, hi, BitVec.getLsbD_eq_getElem]

theorem extract_top {a b c : Nat} (A : BitVec a) (B : BitVec b) (C : BitVec c) :
    (A ++ B ++ C).extractLsb' (b + c) a = A := by
  ext i hi
  simp [BitVec.getLsbD_append, BitVec.getLsbD_eq_getElem hi, show ¬b + c + i < c by omega,
    show b + c + i - c = b + i by omega]

/-! Each field of a pattern built from its fields. -/

@[simp] theorem sign16_append (S : BitVec 1) (E : BitVec 5) (F : BitVec 10) : sign16 (S ++ E ++ F) = S :=
  extract_top S E F

@[simp] theorem exp16_append (S : BitVec 1) (E : BitVec 5) (F : BitVec 10) : exp16 (S ++ E ++ F) = E :=
  extract_mid S E F

@[simp] theorem frac16_append (S : BitVec 1) (E : BitVec 5) (F : BitVec 10) : frac16 (S ++ E ++ F) = F :=
  extract_low (S ++ E) F

/-- The sign of a sign followed by a magnitude. -/
theorem sign16_magnitude (S : BitVec 1) (M : BitVec 15) : sign16 (S ++ M) = S := extract_high S M

/-- The magnitude of a sign followed by a magnitude. -/
theorem magnitude16_append (S : BitVec 1) (M : BitVec 15) : BitVec.extractLsb' 0 15 (S ++ M : Half) = M := extract_low S M

@[simp] theorem sign32_append (S : BitVec 1) (E : BitVec 8) (F : BitVec 23) : sign32 (S ++ E ++ F) = S :=
  extract_top S E F

@[simp] theorem exp32_append (S : BitVec 1) (E : BitVec 8) (F : BitVec 23) : exp32 (S ++ E ++ F) = E :=
  extract_mid S E F

@[simp] theorem frac32_append (S : BitVec 1) (E : BitVec 8) (F : BitVec 23) : frac32 (S ++ E ++ F) = F :=
  extract_low (S ++ E) F

/-- The sign of a sign followed by a magnitude. -/
theorem sign32_magnitude (S : BitVec 1) (M : BitVec 31) : sign32 (S ++ M) = S := extract_high S M

/-- The magnitude of a sign followed by a magnitude. -/
theorem magnitude32_append (S : BitVec 1) (M : BitVec 31) : BitVec.extractLsb' 0 31 (S ++ M : Single) = M := extract_low S M

@[simp] theorem sign64_append (S : BitVec 1) (E : BitVec 11) (F : BitVec 52) : sign64 (S ++ E ++ F) = S :=
  extract_top S E F

@[simp] theorem exp64_append (S : BitVec 1) (E : BitVec 11) (F : BitVec 52) : exp64 (S ++ E ++ F) = E :=
  extract_mid S E F

@[simp] theorem frac64_append (S : BitVec 1) (E : BitVec 11) (F : BitVec 52) : frac64 (S ++ E ++ F) = F :=
  extract_low (S ++ E) F

/-- The sign of a sign followed by a magnitude. -/
theorem sign64_magnitude (S : BitVec 1) (M : BitVec 63) : sign64 (S ++ M) = S := extract_high S M

/-- The magnitude of a sign followed by a magnitude. -/
theorem magnitude64_append (S : BitVec 1) (M : BitVec 63) : BitVec.extractLsb' 0 63 (S ++ M : Wide) = M := extract_low S M

/-! Each category is one condition on the fields (R61, R66, R67). -/

theorem categoryOf_nan {n m : Nat} (e : BitVec n) (f : BitVec m) (hn : 0 < n) :
    categoryOf e f = .nan ↔ e = BitVec.allOnes n ∧ f ≠ 0 := by
  unfold categoryOf
  have : BitVec.allOnes n ≠ 0#n := fun h => by
    have := congrArg (BitVec.getLsbD · 0) h
    simp [hn] at this
  split_ifs <;> simp_all

theorem categoryOf_infinity {n m : Nat} (e : BitVec n) (f : BitVec m) (hn : 0 < n) :
    categoryOf e f = .infinity ↔ e = BitVec.allOnes n ∧ f = 0 := by
  unfold categoryOf
  have : BitVec.allOnes n ≠ 0#n := fun h => by
    have := congrArg (BitVec.getLsbD · 0) h
    simp [hn] at this
  split_ifs <;> simp_all

theorem categoryOf_zero {n m : Nat} (e : BitVec n) (f : BitVec m) :
    categoryOf e f = .zero ↔ e = 0 ∧ f = 0 := by
  unfold categoryOf
  split_ifs <;> simp_all

theorem categoryOf_denormalized {n m : Nat} (e : BitVec n) (f : BitVec m) :
    categoryOf e f = .denormalized ↔ e = 0 ∧ f ≠ 0 := by
  unfold categoryOf
  split_ifs <;> simp_all

theorem categoryOf_normalized {n m : Nat} (e : BitVec n) (f : BitVec m) :
    categoryOf e f = .normalized ↔ e ≠ 0 ∧ e ≠ BitVec.allOnes n := by
  unfold categoryOf
  split_ifs <;> simp_all

/-! Every value's fraction has a positive denominator. -/

theorem val16_den_pos (h : Half) : 0 < (val16 h).den := by
  unfold val16
  split_ifs
  · exact Nat.one_pos
  all_goals exact Fraction.scaled_den_pos _ _ _

theorem val32_den_pos (b : Single) : 0 < (val32 b).den := by
  unfold val32
  split_ifs
  · exact Nat.one_pos
  all_goals exact Fraction.scaled_den_pos _ _ _

theorem val64_den_pos (a : Wide) : 0 < (val64 a).den := by
  unfold val64
  split_ifs
  · exact Nat.one_pos
  all_goals exact Fraction.scaled_den_pos _ _ _

end Sys2Proof.Machine
end

