-- ==== Sys2Proof/Laws/State.lean ====
section
/-!
SUPPORT. One lemma per field per named operation on the state, each true by unfolding once.
-/

namespace Sys2Proof.Machine

@[simp] theorem State.drive_ins (s : State) (p : Inputs) : (s.drive p).ins = p := rfl
@[simp] theorem State.drive_outs (s : State) (p : Inputs) : (s.drive p).outs = s.outs := rfl
@[simp] theorem State.drive_h (s : State) (p : Inputs) : (s.drive p).h = s.h := rfl
@[simp] theorem State.drive_w (s : State) (p : Inputs) : (s.drive p).w = s.w := rfl
@[simp] theorem State.drive_prog (s : State) (p : Inputs) : (s.drive p).prog = s.prog := rfl
@[simp] theorem State.drive_faults (s : State) (p : Inputs) : (s.drive p).faults = s.faults := rfl
@[simp] theorem State.drive_readH (s : State) (p : Inputs) (j : VarNo) : (s.drive p).readH j = s.readH j := rfl
@[simp] theorem State.drive_readW (s : State) (p : Inputs) (j : VarNo) : (s.drive p).readW j = s.readW j := rfl

@[simp] theorem State.driveHalf_ins (s : State) (r : Half) : (s.driveHalf r).ins = s.ins := rfl
@[simp] theorem State.driveHalf_outs (s : State) (r : Half) : (s.driveHalf r).outs = ⟨r, 0, false⟩ := rfl
@[simp] theorem State.driveHalf_h (s : State) (r : Half) : (s.driveHalf r).h = s.h := rfl
@[simp] theorem State.driveHalf_w (s : State) (r : Half) : (s.driveHalf r).w = s.w := rfl
@[simp] theorem State.driveHalf_prog (s : State) (r : Half) : (s.driveHalf r).prog = s.prog := rfl
@[simp] theorem State.driveHalf_faults (s : State) (r : Half) : (s.driveHalf r).faults = s.faults := rfl
@[simp] theorem State.driveHalf_readH (s : State) (r : Half) (j : VarNo) : (s.driveHalf r).readH j = s.readH j := rfl
@[simp] theorem State.driveHalf_readW (s : State) (r : Half) (j : VarNo) : (s.driveHalf r).readW j = s.readW j := rfl

@[simp] theorem State.driveWide_ins (s : State) (r : Wide) : (s.driveWide r).ins = s.ins := rfl
@[simp] theorem State.driveWide_outs (s : State) (r : Wide) : (s.driveWide r).outs = ⟨0, r, false⟩ := rfl
@[simp] theorem State.driveWide_h (s : State) (r : Wide) : (s.driveWide r).h = s.h := rfl
@[simp] theorem State.driveWide_w (s : State) (r : Wide) : (s.driveWide r).w = s.w := rfl
@[simp] theorem State.driveWide_prog (s : State) (r : Wide) : (s.driveWide r).prog = s.prog := rfl
@[simp] theorem State.driveWide_faults (s : State) (r : Wide) : (s.driveWide r).faults = s.faults := rfl
@[simp] theorem State.driveWide_readH (s : State) (r : Wide) (j : VarNo) : (s.driveWide r).readH j = s.readH j := rfl
@[simp] theorem State.driveWide_readW (s : State) (r : Wide) (j : VarNo) : (s.driveWide r).readW j = s.readW j := rfl

@[simp] theorem State.raiseBadOp_ins (s : State) : (s.raiseBadOp).ins = s.ins := rfl
@[simp] theorem State.raiseBadOp_outs (s : State) : (s.raiseBadOp).outs = ⟨0, 0, true⟩ := rfl
@[simp] theorem State.raiseBadOp_h (s : State) : (s.raiseBadOp).h = s.h := rfl
@[simp] theorem State.raiseBadOp_w (s : State) : (s.raiseBadOp).w = s.w := rfl
@[simp] theorem State.raiseBadOp_prog (s : State) : (s.raiseBadOp).prog = s.prog := rfl
@[simp] theorem State.raiseBadOp_faults (s : State) : (s.raiseBadOp).faults = s.faults := rfl
@[simp] theorem State.raiseBadOp_readH (s : State) (j : VarNo) : (s.raiseBadOp).readH j = s.readH j := rfl
@[simp] theorem State.raiseBadOp_readW (s : State) (j : VarNo) : (s.raiseBadOp).readW j = s.readW j := rfl

@[simp] theorem State.writeH_ins (s : State) (i : VarNo) (v : Half) : (s.writeH i v).ins = s.ins := rfl
@[simp] theorem State.writeH_outs (s : State) (i : VarNo) (v : Half) : (s.writeH i v).outs = s.outs := rfl
@[simp] theorem State.writeH_h (s : State) (i : VarNo) (v : Half) : (s.writeH i v).h = s.h.set i.val (some v) := rfl
@[simp] theorem State.writeH_w (s : State) (i : VarNo) (v : Half) : (s.writeH i v).w = s.w := rfl
@[simp] theorem State.writeH_prog (s : State) (i : VarNo) (v : Half) : (s.writeH i v).prog = s.prog := rfl
@[simp] theorem State.writeH_faults (s : State) (i : VarNo) (v : Half) : (s.writeH i v).faults = s.faults := rfl
@[simp] theorem State.writeH_readW (s : State) (i : VarNo) (v : Half) (j : VarNo) : (s.writeH i v).readW j = s.readW j := rfl

@[simp] theorem State.writeW_ins (s : State) (i : VarNo) (v : Wide) : (s.writeW i v).ins = s.ins := rfl
@[simp] theorem State.writeW_outs (s : State) (i : VarNo) (v : Wide) : (s.writeW i v).outs = s.outs := rfl
@[simp] theorem State.writeW_h (s : State) (i : VarNo) (v : Wide) : (s.writeW i v).h = s.h := rfl
@[simp] theorem State.writeW_w (s : State) (i : VarNo) (v : Wide) : (s.writeW i v).w = s.w.set i.val (some v) := rfl
@[simp] theorem State.writeW_prog (s : State) (i : VarNo) (v : Wide) : (s.writeW i v).prog = s.prog := rfl
@[simp] theorem State.writeW_faults (s : State) (i : VarNo) (v : Wide) : (s.writeW i v).faults = s.faults := rfl
@[simp] theorem State.writeW_readH (s : State) (i : VarNo) (v : Wide) (j : VarNo) : (s.writeW i v).readH j = s.readH j := rfl

@[simp] theorem State.record_ins (s : State) (f : Fault) : (s.record f).ins = s.ins := rfl
@[simp] theorem State.record_outs (s : State) (f : Fault) : (s.record f).outs = s.outs := rfl
@[simp] theorem State.record_h (s : State) (f : Fault) : (s.record f).h = s.h := rfl
@[simp] theorem State.record_w (s : State) (f : Fault) : (s.record f).w = s.w := rfl
@[simp] theorem State.record_prog (s : State) (f : Fault) : (s.record f).prog = s.prog := rfl
@[simp] theorem State.record_faults (s : State) (f : Fault) : (s.record f).faults = s.faults ++ [f] := rfl
@[simp] theorem State.record_readH (s : State) (f : Fault) (j : VarNo) : (s.record f).readH j = s.readH j := rfl
@[simp] theorem State.record_readW (s : State) (f : Fault) (j : VarNo) : (s.record f).readW j = s.readW j := rfl

@[simp] theorem State.withProgram_ins (s : State) (cs : List Command) : (s.withProgram cs).ins = s.ins := rfl
@[simp] theorem State.withProgram_outs (s : State) (cs : List Command) : (s.withProgram cs).outs = s.outs := rfl
@[simp] theorem State.withProgram_h (s : State) (cs : List Command) : (s.withProgram cs).h = s.h := rfl
@[simp] theorem State.withProgram_w (s : State) (cs : List Command) : (s.withProgram cs).w = s.w := rfl
@[simp] theorem State.withProgram_prog (s : State) (cs : List Command) : (s.withProgram cs).prog = cs := rfl
@[simp] theorem State.withProgram_faults (s : State) (cs : List Command) : (s.withProgram cs).faults = s.faults := rfl
@[simp] theorem State.withProgram_readH (s : State) (cs : List Command) (j : VarNo) : (s.withProgram cs).readH j = s.readH j := rfl
@[simp] theorem State.withProgram_readW (s : State) (cs : List Command) (j : VarNo) : (s.withProgram cs).readW j = s.readW j := rfl

@[simp] theorem State.pushCommand_ins (s : State) (c : Command) : (s.pushCommand c).ins = s.ins := rfl
@[simp] theorem State.pushCommand_outs (s : State) (c : Command) : (s.pushCommand c).outs = s.outs := rfl
@[simp] theorem State.pushCommand_h (s : State) (c : Command) : (s.pushCommand c).h = s.h := rfl
@[simp] theorem State.pushCommand_w (s : State) (c : Command) : (s.pushCommand c).w = s.w := rfl
@[simp] theorem State.pushCommand_prog (s : State) (c : Command) : (s.pushCommand c).prog = c :: s.prog := rfl
@[simp] theorem State.pushCommand_faults (s : State) (c : Command) : (s.pushCommand c).faults = s.faults := rfl
@[simp] theorem State.pushCommand_readH (s : State) (c : Command) (j : VarNo) : (s.pushCommand c).readH j = s.readH j := rfl
@[simp] theorem State.pushCommand_readW (s : State) (c : Command) (j : VarNo) : (s.pushCommand c).readW j = s.readW j := rfl

end Sys2Proof.Machine
end

