-- ==== Sys2Proof/Laws/Ops.lean ====
section
/-!
SUPPORT. What each shared operation can do, said once: reading back a written variable, sampling the outputs, reading sources.
-/

namespace Sys2Proof.Machine

/-- A variable reads back what was written to it. -/
@[simp] theorem State.writeH_readH_same (s : State) (i : VarNo) (v : Half) : (s.writeH i v).readH i = some v := by
  simp [State.readH, State.writeH]

/-- Writing one `h` variable leaves the others alone. -/
theorem State.writeH_readH_ne (s : State) {i j : VarNo} (v : Half) (h : i ≠ j) : (s.writeH i v).readH j = s.readH j := by
  have : i.val ≠ j.val := fun e => h (Fin.ext e)
  simp [State.readH, State.writeH, this]

/-- A variable reads back what was written to it. -/
@[simp] theorem State.writeW_readW_same (s : State) (i : VarNo) (v : Wide) : (s.writeW i v).readW i = some v := by
  simp [State.readW, State.writeW]

/-- Writing one `w` variable leaves the others alone. -/
theorem State.writeW_readW_ne (s : State) {i j : VarNo} (v : Wide) (h : i ≠ j) : (s.writeW i v).readW j = s.readW j := by
  have : i.val ≠ j.val := fun e => h (Fin.ext e)
  simp [State.readW, State.writeW, this]

/-- The `h` variables are equal when each reads the same. -/
theorem State.h_ext {s t : State} (hr : ∀ i, s.readH i = t.readH i) : s.h = t.h :=
  Vector.ext fun i hi => hr ⟨i, hi⟩

/-- The `w` variables are equal when each reads the same. -/
theorem State.w_ext {s t : State} (hr : ∀ i, s.readW i = t.readW i) : s.w = t.w :=
  Vector.ext fun i hi => hr ⟨i, hi⟩

/-- Writing the destination changes one variable at most. -/
theorem State.writeDest_frame (d : Dest) (s : State) :
    (s.writeDest d).ins = s.ins ∧ (s.writeDest d).outs = s.outs ∧ (s.writeDest d).prog = s.prog ∧
      (s.writeDest d).faults = s.faults := by
  cases d <;> exact ⟨rfl, rfl, rfl, rfl⟩

/-- What `h` variables read after the destination is written. -/
theorem State.writeDest_readH (d : Dest) (s : State) (j : VarNo) :
    (s.writeDest d).readH j = if d = .h j then some s.outs.r16 else s.readH j := by
  cases d with
  | nowhere | w _ => rfl
  | h i =>
    by_cases e : i = j
    · subst e; simp [State.writeDest]
    · simp [State.writeDest, State.writeH_readH_ne _ _ e, e]

/-- What `w` variables read after the destination is written. -/
theorem State.writeDest_readW (d : Dest) (s : State) (j : VarNo) :
    (s.writeDest d).readW j = if d = .w j then some s.outs.r64 else s.readW j := by
  cases d with
  | nowhere | h _ => rfl
  | w i =>
    by_cases e : i = j
    · subst e; simp [State.writeDest]
    · simp [State.writeDest, State.writeW_readW_ne _ _ e, e]

/-- Sampling either records `BadOp` or writes the destination, as `out.bad_op` says. -/
theorem State.sample_cases (d : Dest) (s : State) :
    (s.outs.badOp = true ∧ s.sample d = s.record (.badOp s.ins.op)) ∨
      (s.outs.badOp = false ∧ s.sample d = s.writeDest d) := by
  cases h : s.outs.badOp <;> simp [State.sample, h]

/-- The sources of a command do not depend on the program that follows it. -/
theorem commandInputs_withProgram (c : Command) (s : State) (cs : List Command) :
    commandInputs c (s.withProgram cs) = commandInputs c s := by
  cases c <;> rfl

/-- A command's port values are those that spell an instruction, but for a raw word. -/
theorem commandInputs_spells {c : Command} {s : State} {p : Inputs} (h : commandInputs c s = some p) :
    (∃ i, p = encode i) ∨ c = .raw p := by
  cases c with
  | raw q => exact .inr (by simpa [commandInputs] using h)
  | _ =>
    simp only [commandInputs, Option.map_eq_some_iff] at h
    obtain ⟨_, _, rfl⟩ := h
    exact .inl ⟨_, rfl⟩

/-- A command has port values exactly when every variable it reads holds a value. -/
theorem commandInputs_isSome (c : Command) (s : State) :
    (commandInputs c s).isSome = true ↔ SourcesHeld c s := by
  have h16 (src : Src 16) : (readSrc16 src s).isSome = true ↔ ∀ i ∈ srcVar src, (s.readH i).isSome := by
    cases src <;> simp [readSrc16, srcVar]
  have h64 (src : Src 64) : (readSrc64 src s).isSome = true ↔ ∀ i ∈ srcVar src, (s.readW i).isSome := by
    cases src <;> simp [readSrc64, srcVar]
  have h32 (src : Src 32) : (readSrc32 src s).isSome = true ↔ ∀ i ∈ srcVar src, (s.readW i).isSome := by
    cases src <;> simp [readSrc32, srcVar]
  have hp (l r : Src 16) : (readPair l r s).isSome = true ↔ ∀ i ∈ srcVar l ++ srcVar r, (s.readH i).isSome := by
    have e : (readPair l r s).isSome = ((readSrc16 l s).isSome && (readSrc16 r s).isSome) := by
      unfold readPair
      cases readSrc16 l s <;> cases readSrc16 r s <;> rfl
    rw [e, Bool.and_eq_true, h16, h16]
    simp only [List.mem_append, or_imp, forall_and]
  cases c <;> simp [commandInputs, SourcesHeld, sourcesH, sourcesW, h16, h64, h32, hp]

end Sys2Proof.Machine
end

