-- ==== Sys2Proof/Laws/PerInstr.lean ====
section
/-!
SUPPORT. The family `Spelling`: the command that spells an instruction has an assigned code (30_encoding.md R70, R73) and zero on
every port the operation does not read (R72; 10_state.md R28). One lemma per constructor of `Instr`.
-/

namespace Sys2Proof.Laws.Spelling

/-- The command of `encode` is one of R70's, in the form the harness drives it. -/
def Statement (i : Instr) : Prop := (encode i).WellFormed = true ∧ (encode i).masked = encode i

theorem enc64 (a : Wide) : Statement (.enc64 a) := ⟨rfl, rfl⟩

theorem enc32 (b : Single) : Statement (.enc32 b) := by
  refine ⟨rfl, ?_⟩
  have : (b.setWidth 64).extractLsb' 0 32 = b := by
    ext i hi
    simp [hi, show i < 64 by omega]
  simp [encode, Inputs.masked, this]

theorem dec64 (x : Half) : Statement (.dec64 x) := ⟨rfl, rfl⟩
theorem dec32 (x : Half) : Statement (.dec32 x) := ⟨rfl, rfl⟩
theorem add (x y : Half) : Statement (.add x y) := ⟨rfl, rfl⟩
theorem sub (x y : Half) : Statement (.sub x y) := ⟨rfl, rfl⟩
theorem mul (x y : Half) : Statement (.mul x y) := ⟨rfl, rfl⟩
theorem div (x y : Half) : Statement (.div x y) := ⟨rfl, rfl⟩
theorem neg (x : Half) : Statement (.neg x) := ⟨rfl, rfl⟩
theorem mov16 (x : Half) : Statement (.mov16 x) := ⟨rfl, rfl⟩

end Sys2Proof.Laws.Spelling
end

