-- ==== Sys2Proof/Laws/Step.lean ====
section
/-!
SUPPORT. What `exec`, one evaluation and one step can do, said once. Later proofs cite these and unfold none of them.
-/

namespace Sys2Proof.Machine

/-- An operation drives the outputs of its rule and changes nothing else. -/
theorem exec_eq (i : Instr) (s : State) : exec i s = .next { s with outs := instrOutputs i } := by
  cases i <;> rfl

/-- An evaluation drives the block's function of the inputs and changes nothing else. -/
theorem evaluate_eq (s : State) : evaluate s = .next { s with outs := blockFunction s.ins } := by
  unfold evaluate blockFunction
  cases decode s.ins with
  | none => rfl
  | some i => exact exec_eq i s

/-- The state after a command whose port values are `p`. -/
theorem runCommand_of_inputs {c : Command} {s : State} {p : Inputs} (h : commandInputs c s = some p) :
    runCommand c s = .next (State.sample (commandDest c) { s with ins := p, outs := blockFunction p }) := by
  simp [runCommand, h, evaluate_eq, State.drive]

/-- The state after a command that reads a variable with no value. -/
theorem runCommand_of_unwritten {c : Command} {s : State} (h : commandInputs c s = none) :
    runCommand c s = .next (s.record .unwrittenVariable) := by
  simp [runCommand, h]

/-- Everything one step can do: nothing is left to run, or a command reads a variable with no value, or a command is one use of
the block. -/
theorem step_cases {s t : State} (h : step s = .next t) :
    (s.prog = [] ∧ t = s) ∨
    (∃ c rest, s.prog = c :: rest ∧ commandInputs c s = none ∧
      t = (s.withProgram rest).record .unwrittenVariable) ∨
    (∃ c rest p, s.prog = c :: rest ∧ commandInputs c s = some p ∧
      t = State.sample (commandDest c) { s with prog := rest, ins := p, outs := blockFunction p }) := by
  unfold step at h
  split at h
  · exact .inl ⟨‹_›, by simpa using h.symm⟩
  · rename_i c rest hp
    cases hi : commandInputs c s with
    | none =>
      rw [runCommand_of_unwritten (by rw [commandInputs_withProgram, hi])] at h
      exact .inr (.inl ⟨c, rest, hp, hi, by simpa using h.symm⟩)
    | some p =>
      rw [runCommand_of_inputs (p := p) (by rw [commandInputs_withProgram, hi])] at h
      exact .inr (.inr ⟨c, rest, p, hp, hi, by simpa [State.withProgram] using h.symm⟩)

/-- `out.bad_op` of the block's function is 1 exactly for an unassigned code. -/
theorem blockFunction_badOp (p : Inputs) : (blockFunction p).badOp = (decode p).isNone := by
  unfold blockFunction
  cases decode p with
  | none => rfl
  | some i => cases i <;> rfl

end Sys2Proof.Machine
end

