-- ==== Sys2Proof/Tests/Slice0.lean ====
section
/-!
SUPPORT. Tests of the model. Expected values come from the vectors of 95_test_vectors.md (named by their row) or from the rules;
each runs at most one step. The last part gives, for each obligation with hypotheses, values that meet them.
-/

-- The kernel evaluates these tests one after another: each waits for what stands before it.
set_option Elab.async false

open Sys2Proof Sys2Proof.Machine

namespace Sys2Proof.Tests

/-! ## Well-formedness: an ill-formed term for each check -/

theorem test_wf_code_assigned : Inputs.WellFormed ⟨0x9, 0, 0, 0⟩ = true := by decide
theorem test_wf_code_unassigned : Inputs.WellFormed ⟨0xA, 0, 0, 0⟩ = false ∧ Inputs.WellFormed ⟨0xF, 0, 0, 0⟩ = false := by decide
theorem test_wf_raw_command : Command.WellFormed (.raw ⟨0xA, 0, 0, 0⟩) = false ∧ Command.WellFormed (.neg 0 (.var 1)) = true := by decide
/-- `ADD h15, h0, #0x3C00` is a line of R74. -/
theorem test_wf_line : Line.WellFormed ⟨.add, [.h 15, .h 0, .imm [3, 12, 0, 0]]⟩ = true := by decide
/-- There is no `h16` (R27). -/
theorem test_wf_line_variable_number : Line.WellFormed ⟨.add, [.h 16, .h 0, .h 1]⟩ = false ∧
    Line.WellFormed ⟨.add, [.h 0, .h 16, .h 1]⟩ = false ∧ Line.WellFormed ⟨.dec64, [.w 16, .h 0]⟩ = false := by decide
/-- DEC64 writes a `w`, the others an `h` (R74). -/
theorem test_wf_line_destination : Line.WellFormed ⟨.dec64, [.h 0, .h 0]⟩ = false ∧
    Line.WellFormed ⟨.neg, [.w 0, .h 0]⟩ = false ∧ Line.WellFormed ⟨.enc64, [.imm [0], .w 0]⟩ = false := by decide
/-- ENC64 and ENC32 read a `w`, the others an `h` (R74). -/
theorem test_wf_line_source : Line.WellFormed ⟨.enc64, [.h 0, .h 0]⟩ = false ∧
    Line.WellFormed ⟨.mov16, [.h 0, .w 0]⟩ = false ∧ Line.WellFormed ⟨.tobits, [.h 0, .imm [0, 0, 0, 0]]⟩ = false ∧
    Line.WellFormed ⟨.frombits, [.h 0, .h 1]⟩ = false := by decide
/-- An immediate has exactly the digits of its width (R74). -/
theorem test_wf_line_digits : Line.WellFormed ⟨.neg, [.h 0, .imm [3, 12, 0]]⟩ = false ∧
    Line.WellFormed ⟨.enc32, [.h 0, .imm [0, 0, 0, 0]]⟩ = false := by decide
/-- Each name takes its own number of operands (R74, R75). -/
theorem test_wf_line_arity : Line.WellFormed ⟨.add, [.h 0, .h 1]⟩ = false ∧ Line.WellFormed ⟨.adda, [.h 0, .h 1, .h 2]⟩ = false ∧
    Line.WellFormed ⟨.neg, []⟩ = false := by decide

/-! ## Decoding: words written out bit by bit from R70 and the table, one at least for every operation -/

theorem test_decode_enc64 : decodeTableWord 8 0b0000 = some (.enc64 0) := by decide
theorem test_decode_enc32 : decodeTableWord 100 (0b0001 + 0xFFFFFFFF3F800000 * 2 ^ 4) = some (.enc32 0x3F800000) := by decide
theorem test_decode_dec64 : decodeTableWord 100 (0b0010 + 0x3C00 * 2 ^ 68 + 0x7E00 * 2 ^ 84) = some (.dec64 0x3C00) := by decide
theorem test_decode_dec32 : decodeTableWord 100 (0b0011 + 0xBC00 * 2 ^ 68) = some (.dec32 0xBC00) := by decide
theorem test_decode_add : decodeTableWord 100 (0b0100 + 0x3C00 * 2 ^ 68 + 0xBC00 * 2 ^ 84) = some (.add 0x3C00 0xBC00) := by decide
theorem test_decode_sub : decodeTableWord 100 (0b0101 + 0x4000 * 2 ^ 68 + 0x3C00 * 2 ^ 84) = some (.sub 0x4000 0x3C00) := by decide
theorem test_decode_mul : decodeTableWord 8 0b0110 = some (.mul 0 0) := by decide
theorem test_decode_div : decodeTableWord 100 (0b0111 + 0x3C00 * 2 ^ 68 + 0x4200 * 2 ^ 84) = some (.div 0x3C00 0x4200) := by decide
theorem test_decode_neg : decodeTableWord 8 0b1000 = some (.neg 0) := by decide
theorem test_decode_mov16 : decodeTableWord 100 (0b1001 + 0xFFFF * 2 ^ 68) = some (.mov16 0xFFFF) := by decide
theorem test_decode_unassigned : decodeTableWord 8 0b1010 = none ∧ decodeTableWord 8 0b1111 = none := by decide

/-! ## Operations: two vectors each -/

/-- What a machine that answered a next state carries on its output ports. -/
def outsOf : Host.Outcome State Fault Refusal → Option Outputs
  | .next t => some t.outs
  | .fault _ | .refused _ => none

/-- E15: 65520 is the tie at the overflow threshold. E28: just above half the smallest denormalized. -/
theorem test_enc64_threshold : outsOf (exec (.enc64 0x40EFFE0000000000) State.reset) = some ⟨0x7C00, 0, false⟩ := by decide +kernel
theorem test_enc64_denormal : outsOf (exec (.enc64 0x3E60000000000001) State.reset) = some ⟨0x0001, 0, false⟩ := by decide +kernel
/-- F4 and F16. -/
theorem test_enc32_tenth : outsOf (exec (.enc32 0x3DCCCCCD) State.reset) = some ⟨0x2E66, 0, false⟩ := by decide +kernel
theorem test_enc32_nan : outsOf (exec (.enc32 0x7F802000) State.reset) = some ⟨0x7E01, 0, false⟩ := by decide +kernel
/-- DV7 and DV22. -/
theorem test_dec64_denormal : outsOf (exec (.dec64 0x03FF) State.reset) = some ⟨0, 0x3F0FF80000000000, false⟩ := by decide +kernel
theorem test_dec64_nan : outsOf (exec (.dec64 0x7C01) State.reset) = some ⟨0, 0x7FF8040000000000, false⟩ := by decide +kernel
/-- DV10 and U4. -/
theorem test_dec32_third : outsOf (exec (.dec32 0x3555) State.reset) = some ⟨0, 0x3EAAA000, false⟩ := by decide +kernel
theorem test_dec32_high_half_zero : outsOf (exec (.dec32 0xBC00) State.reset) = some ⟨0, 0x00000000BF800000, false⟩ := by decide +kernel
/-- A18 (tie, to even, up) and A6 (two negative zeros). -/
theorem test_add_tie : outsOf (exec (.add 0x3C01 0x1000) State.reset) = some ⟨0x3C02, 0, false⟩ := by decide +kernel
theorem test_add_zeros : outsOf (exec (.add 0x8000 0x8000) State.reset) = some ⟨0x8000, 0, false⟩ := by decide +kernel
/-- A30 (operand order) and A26 (invalid). -/
theorem test_sub_order : outsOf (exec (.sub 0x3C00 0x3C01) State.reset) = some ⟨0x9400, 0, false⟩ := by decide +kernel
theorem test_sub_infinities : outsOf (exec (.sub 0x7C00 0x7C00) State.reset) = some ⟨0x7E00, 0, false⟩ := by decide +kernel
/-- A40 and A44. -/
theorem test_mul_square : outsOf (exec (.mul 0x5BFF 0x5BFF) State.reset) = some ⟨0x7BFE, 0, false⟩ := by decide +kernel
theorem test_mul_underflow : outsOf (exec (.mul 0x8001 0x0001) State.reset) = some ⟨0x8000, 0, false⟩ := by decide +kernel
/-- A64 and A47. -/
theorem test_div_small : outsOf (exec (.div 0x3C00 0x5A40) State.reset) = some ⟨0x1D1F, 0, false⟩ := by decide +kernel
theorem test_div_by_negative_zero : outsOf (exec (.div 0x3C00 0x8000) State.reset) = some ⟨0xFC00, 0, false⟩ := by decide +kernel
/-- NV7 and NV10. -/
theorem test_neg_nan : outsOf (exec (.neg 0x7C01) State.reset) = some ⟨0xFC01, 0, false⟩ := by decide
theorem test_mov16_nan : outsOf (exec (.mov16 0x7C01) State.reset) = some ⟨0x7C01, 0, false⟩ := by decide

/-! ## The harness -/

/-- `h0 = 1.0`, `w1 = 0.1`, and one command to run. -/
def holding (c : Command) : State := ((State.reset.writeH 0 0x3C00).writeW 1 0x3FB999999999999A).withProgram [c]

/-- The state after one step, if there is one. -/
def after (s : State) : Option State :=
  match step s with
  | .next t => some t
  | .fault _ | .refused _ => none

/-- P2 step 1: `ENC64 h2, w1` reads `w1` and writes `h2`. -/
theorem test_step_enc64 : (after (holding (.enc64 2 (.var 1)))).map (·.readH 2) = some (some 0x2E66) := by decide +kernel
/-- ENC32 drives the low 32 bits of its variable, zero-extended (R74). -/
theorem test_step_enc32_ports : (after (holding (.enc32 2 (.var 1)))).map (·.ins) = some ⟨0x1, 0x9999999A, 0, 0⟩ := by decide +kernel
/-- DEC64 writes a `w` (R74). -/
theorem test_step_dec64 : (after (holding (.dec64 3 (.var 0)))).map (·.readW 3) = some (some 0x3FF0000000000000) := by decide +kernel
/-- P4 step 2: a raw word with code 0xA writes nothing and records `BadOp(0xA)`. -/
theorem test_step_badOp : (after (holding (.raw ⟨0xA, 0, 0, 0⟩))).map (fun t => (t.outs, t.faults, t.readH 0)) =
    some (⟨0, 0, true⟩, [.badOp 0xA], some 0x3C00) := by decide +kernel
/-- R27: `h1` holds no value; it is not read as zero. -/
theorem test_step_unwritten : (after (holding (.add 0 (.var 0) (.var 1)))).map (fun t => (t.faults, t.readH 0)) =
    some ([.unwrittenVariable], some 0x3C00) := by decide +kernel
/-- P4 step 4 from 1.0: `DIV h0, h0, #0x4200` is 1/3 (A45). -/
theorem test_step_compound : (after (holding (.div 0 (.var 0) (.imm 0x4200)))).map (·.readH 0) = some (some 0x3555) := by decide +kernel
/-- U1 and U2: ports an operation does not read change nothing. -/
theorem test_unread_ports : blockFunction ⟨0x1, 0xFFFFFFFF3F800000, 0x7E00, 0x7E00⟩ = ⟨0x3C00, 0, false⟩ ∧
    blockFunction ⟨0x4, 0xFFFFFFFFFFFFFFFF, 0x3C00, 0x3C00⟩ = ⟨0x4000, 0, false⟩ := by decide +kernel

/-! ## Program text -/

/-- `DIVA h0, #0x4200 ; c` (P4): a compound form over an immediate, with a comment. -/
theorem test_text_compound : parseProgram ["DIVA h0, #0x4200 ; c".toList, "".toList] =
    some [.div 0 (.var 0) (.imm 0x4200)] := by decide +kernel
/-- A method name of R75, operands in the order written. -/
theorem test_text_method : parseProgram ["subtract h1, h0, #0x3C00".toList, "divide h2, #0x3C00, h1".toList] =
    some [.sub 1 (.var 0) (.imm 0x3C00), .div 2 (.imm 0x3C00) (.var 1)] := by decide +kernel
/-- The other spellings of R75. -/
theorem test_text_pseudo : parseProgram ["FROMBITS h3, #0x4000".toList, "TOBITS h4, h3".toList, "negate h1, h0".toList] =
    some [.mov16 3 (.imm 0x4000), .mov16 4 (.var 3), .neg 1 (.var 0)] := by decide +kernel
/-- A line that is no command is refused. -/
theorem test_text_refused : parseProgram ["ADD h0, h1,".toList] = none ∧ parseProgram ["FOO h0, h1".toList] = none ∧
    parseProgram ["ADD h0, h16, h1".toList] = none := by decide +kernel
/-- P3 step 8: an immediate of 8 digits. -/
theorem test_text_round_trip : (disassemble (.enc32 7 (.imm 0x33D6BF95))).bind assemble = some (.enc32 7 (.imm 0x33D6BF95)) := by
  decide +kernel

/-! ## A host's bytes (20_memory.md R43) -/

theorem test_bytes_little : hostBytes .little 0x3C01 = [0x01, 0x3C] ∧ ofHostBytes .little 0x01 0x3C = 0x3C01 := by decide
theorem test_bytes_big : hostBytes .big 0x3C01 = [0x3C, 0x01] ∧ ofHostBytes .big 0x3C 0x01 = 0x3C01 := by decide

/-! ## Witnesses: values that meet the hypotheses of each obligation, for each clause -/

theorem witness_EncodeOfDecodedPorts : decode ⟨0x1, 0xFFFFFFFF3F800000, 1, 2⟩ = some (.enc32 0x3F800000) ∧
    encode (.neg 3) = encode (.neg 3) := by decide
theorem witness_DecodeByOperationCode : ∀ n : Nat, n < 10 → (decode ⟨BitVec.ofNat 4 n, 1, 2, 3⟩).isSome = true := by decide
theorem witness_DecodeByOperationCode_unassigned : 0xA ≤ (0xA#4).toNat ∧ 0xA ≤ (0xF#4).toNat := by decide
theorem witness_OutputsDependOnInputsAlone : (State.reset.writeH 0 1).ins = State.reset.ins ∧ State.reset.writeH 0 1 ≠ State.reset := by
  decide +kernel
theorem witness_UnreadPortsHaveNoEffect : Inputs.masked ⟨0x1, 0xFFFFFFFF00000001, 5, 6⟩ = Inputs.masked ⟨0x1, 1, 7, 8⟩ := by decide
theorem witness_OutputPortsByOperation : (0x2#4).toNat = 0x2 ∧ (0x3#4).toNat = 0x3 ∧ 0xA ≤ (0xA#4).toNat ∧
    ((0x4#4).toNat ≠ 0x2 ∧ (0x4#4).toNat ≠ 0x3) ∧ decode ⟨0x9, 0, 1, 0⟩ = some (.mov16 1) := by decide
theorem witness_ExecFrame : exec (.neg 1) State.reset = .next (State.reset.driveHalf 0x8001) := rfl
theorem witness_StepKeepsCombinational : Combinational State.reset ∧
    step (State.reset.withFetchWord 8 7) = .next { State.reset with ins := ⟨7, 0, 0, 0⟩, outs := ⟨0x7E00, 0, false⟩ } := ⟨by decide, rfl⟩
theorem witness_StepKeepsCombinational_start : Combinational (State.reset.withFetchWord 8 7) := by decide
theorem witness_FaultsAreNeverCleared : step State.reset = .next State.reset ∧
    (after (holding (.raw ⟨0xF, 0, 0, 0⟩))).map (·.faults) = some [.badOp 0xF] := ⟨rfl, by decide +kernel⟩
theorem witness_StepRunsTheDecodedInstruction : (holding (.neg 1 (.var 0))).prog = [.neg 1 (.var 0)] ∧
    commandInputs (.neg 1 (.var 0)) (holding (.neg 1 (.var 0))) = some ⟨0x8, 0, 0x3C00, 0⟩ ∧
    decode ⟨0x8, 0, 0x3C00, 0⟩ = some (.neg 0x3C00) := by decide +kernel
theorem witness_FetchedWordRuns : decodeTableWord 8 0 = some (.enc64 0) ∧ decodeTableWord 8 9 = some (.mov16 0) := by decide
theorem witness_CommandIsOneUseOfTheBlock : SourcesHeld (.neg 1 (.var 0)) (holding (.neg 1 (.var 0))) ∧
    (holding (.neg 1 (.var 0))).prog = .neg 1 (.var 0) :: [] ∧ SourcesHeld (.enc64 15 (.var 1)) (holding (.enc64 15 (.var 1))) := by
  decide +kernel
theorem witness_CommandIsOneUseOfTheBlock_badOp : SourcesHeld (.raw ⟨0xA, 0, 0, 0⟩) (holding (.raw ⟨0xA, 0, 0, 0⟩)) ∧
    (blockFunction ⟨0xA, 0, 0, 0⟩).badOp = true ∧ (blockFunction ⟨0x9, 0, 0, 0⟩).badOp = false := by decide +kernel
theorem witness_BadOpIsRecorded : (holding (.raw ⟨0xA, 1, 2, 3⟩)).prog = .raw ⟨0xA, 1, 2, 3⟩ :: [] ∧ 0xA ≤ (0xA#4).toNat ∧
    ((holding (.neg 0 (.var 0))).ins.op.toNat < 0xA) := by decide +kernel
theorem witness_UnwrittenVariableIsRecorded :
    ((holding (.neg 0 (.var 15))).prog = .neg 0 (.var 15) :: [] ∧
      ∃ j ∈ sourcesH (.neg 0 (.var 15)), (holding (.neg 0 (.var 15))).readH j = none) ∧
    ((holding (.enc32 0 (.var 0))).prog = .enc32 0 (.var 0) :: [] ∧
      ∃ j ∈ sourcesW (.enc32 0 (.var 0)), (holding (.enc32 0 (.var 0))).readW j = none) := by decide +kernel
theorem witness_OnlyTheDestinationChanges : (holding (.neg 1 (.var 0))).prog = .neg 1 (.var 0) :: [] ∧
    (after (holding (.neg 1 (.var 0)))).isSome = true ∧ commandDest (.neg 1 (.var 0)) ≠ .h 0 ∧
    commandDest (.neg 1 (.var 0)) ≠ .w 1 := by decide +kernel
theorem witness_OnlyTheDestinationChanges_idle : State.reset.prog = [] ∧ step State.reset = .next State.reset := ⟨rfl, rfl⟩
theorem witness_HeldVariablesStayHeld : (after (holding (.neg 1 (.var 0)))).isSome = true ∧
    ((holding (.neg 1 (.var 0))).readH 0).isSome = true ∧ ((holding (.neg 1 (.var 0))).readW 1).isSome = true := by decide +kernel
theorem witness_IndependentCommandsCommute : Independent (.neg 1 (.var 0)) (.add 2 (.var 0) (.imm 0x3C00)) := by decide
theorem witness_IndependentCommandsCommute_widths : Independent (.dec64 1 (.var 0)) (.enc64 1 (.var 0)) := by decide
theorem witness_IndependentCommandsCommute_raw : Independent (.raw ⟨0xA, 0, 0, 0⟩) (.raw ⟨0xB, 0, 0, 0⟩) := by decide
/-- The two forms of the second operand, the destination itself among the variables. -/
theorem witness_CompoundAssignment : (holding (.neg 1 (.var 0))).readH 0 = some 0x3C00 ∧
    readSrc16 (.var 0) (holding (.neg 1 (.var 0))) = some 0x3C00 ∧
    readSrc16 (.imm 0x4200) (holding (.neg 1 (.var 0))) = some 0x4200 := by decide +kernel
theorem witness_AssembleOfDisassembled : ∀ p, Command.enc32 15 (.imm 0xFFFFFFFF) ≠ .raw p := nofun
theorem witness_ProgramTextNeverRaisesBadOp : assemble ⟨.neg, [.h 1, .h 0]⟩ = some (.neg 1 (.var 0)) ∧
    (holding (.neg 1 (.var 0))).prog = .neg 1 (.var 0) :: [] ∧ (after (holding (.neg 1 (.var 0)))).isSome = true ∧
    (after (((holding (.neg 1 (.var 0))).record (.badOp 0xA)))).map (·.faults) = some [.badOp 0xA] := by decide +kernel
theorem witness_RoundTEIsNearestEven : (0 ≤ (⟨5, 2⟩ : Fraction).num ∧ 0 < (⟨5, 2⟩ : Fraction).den) ∧ 3 ≠ roundTE ⟨5, 2⟩ ∧
    |(roundTE ⟨5, 2⟩ : ℚ) - (⟨5, 2⟩ : Fraction).toRat| = |((3 : ℕ) : ℚ) - (⟨5, 2⟩ : Fraction).toRat| := by decide +kernel
theorem witness_RNERoundsOnItsGrid : (0 < (⟨65520, 1⟩ : Fraction).num ∧ 0 < (⟨65520, 1⟩ : Fraction).den) ∧
    rne 11 (-14) 15 ⟨65520, 1⟩ = .inf ∧ rne 11 (-14) 15 ⟨65519, 1⟩ = .fin 15 2047 ∧ rne 11 (-14) 15 ⟨1, 2 ^ 25⟩ = .fin (-14) 0 := by
  decide +kernel
theorem witness_Mag16IsNearest : (65536 < (⟨65537, 1⟩ : Fraction).toRat) ∧ ((⟨65536, 1⟩ : Fraction).toRat ≤ 65536) ∧
    (0x7BFF ≠ mag16 ⟨65520, 1⟩ ∧ |magnitudeValue (mag16 ⟨65520, 1⟩) - (⟨65520, 1⟩ : Fraction).toRat| =
      |magnitudeValue 0x7BFF - (⟨65520, 1⟩ : Fraction).toRat|) := by decide +kernel
theorem witness_Enc64DrivesItsRule : (⟨0x0, 0x7FF4000000000000, 1, 2⟩ : Inputs).op = 0x0 := by decide
theorem witness_Enc32DrivesItsRule : (⟨0x1, 0xFFFFFFFF7FA00000, 1, 2⟩ : Inputs).op = 0x1 := by decide
theorem witness_BitLevelFormsAgree :
    ((category64 0x0000000000000001).isFinite = true ∧ category64 0x0000000000000001 ≠ .zero) ∧
    ((category32 0x7F7FFFFF).isFinite = true ∧ category32 0x7F7FFFFF ≠ .zero) := by decide
theorem witness_EncoderOverflowThreshold :
    ((category64 0x40EFFDE000000000).isFinite = true ∧ 65504 < |(val64 0x40EFFDE000000000).toRat| ∧
      |(val64 0x40EFFDE000000000).toRat| < 65520) ∧
    ((category32 0x477FEFFF).isFinite = true ∧ 65504 < |(val32 0x477FEFFF).toRat| ∧ |(val32 0x477FEFFF).toRat| < 65520) := by
  decide +kernel
theorem witness_EncoderOverflowThreshold_at : (category64 0xC0EFFE0000000000).isFinite = true ∧
    65520 ≤ |(val64 0xC0EFFE0000000000).toRat| ∧ (category32 0x477FF000).isFinite = true ∧ 65520 ≤ |(val32 0x477FF000).toRat| := by
  decide +kernel
theorem witness_EncoderUnderflow :
    (0 < |(val64 0x3E60000000000000).toRat| ∧ |(val64 0x3E60000000000000).toRat| < 1 / 2 ^ 14 ∧
      |(val64 0x3E60000000000000).toRat| ≤ 1 / 2 ^ 25) ∧
    (0 < |(val32 0xB3D6BF95).toRat| ∧ |(val32 0xB3D6BF95).toRat| < 1 / 2 ^ 14) := by decide +kernel
/-- The least denormalized, an infinity, and the least and greatest fraction of a NaN. -/
theorem witness_EncoderWidthIndependence : (category32 0x00000001).isFinite = true ∧ category32 0xFF800000 ≠ .nan ∧
    category32 0x7F800001 = .nan ∧ category32 0xFFFFFFFF = .nan := by decide
theorem witness_ExactRoundTrip : isNaN16 0x7BFF = false ∧ isNaN16 0x7C01 = true := by decide
theorem witness_NearRoundTrip : (category64 0x40EFFDE000000000).isFinite = true ∧ |(val64 0x40EFFDE000000000).toRat| < 65520 ∧
    (-14 : ℤ) ≤ 15 ∧ |(val64 0x40EFFDE000000000).toRat| < 2 ^ ((15 : ℕ) + 1) := by decide +kernel
theorem witness_NearRoundTrip_exact : (category16 0x7BFF).isFinite = true ∧ (val16 0x7BFF).toRat = (val64 0x40EFFC0000000000).toRat := by
  decide +kernel
theorem witness_EncoderIsMonotone : (category64 0xC0EFFE0000000000).isFinite = true ∧ (category64 0x3FF0000000000000).isFinite = true ∧
    (val64 0xC0EFFE0000000000).toRat ≤ (val64 0x3FF0000000000000).toRat := by decide +kernel
/-- The five clauses, at the least and greatest pattern of each: zero, denormalized (leading 1 at bit 0 and at bit 9), normalized
(`e = 1`, `e = 30`), infinity, NaN. -/
theorem witness_Dec64DrivesItsRule : (⟨0x2, 1, 0x0000, 3⟩ : Inputs).op = 0x2 ∧
    (2 ^ 0 ≤ 0x0001 % 2 ^ 10 ∧ 0x0001 % 2 ^ 10 < 2 ^ (0 + 1)) ∧ (2 ^ 9 ≤ 0x03FF % 2 ^ 10 ∧ 0x03FF % 2 ^ 10 < 2 ^ (9 + 1)) ∧
    (1 ≤ 0x0400 / 2 ^ 10 % 2 ^ 5 ∧ 0x7BFF / 2 ^ 10 % 2 ^ 5 ≤ 30) ∧ (0x7C00 / 2 ^ 10 % 2 ^ 5 = 31 ∧ 0x7C00 % 2 ^ 10 = 0) ∧
    (0x7C01 / 2 ^ 10 % 2 ^ 5 = 31 ∧ 0x7C01 % 2 ^ 10 ≠ 0) := by decide
theorem witness_Dec32DrivesItsRule : (⟨0x3, 1, 0x8001, 3⟩ : Inputs).op = 0x3 ∧
    (2 ^ 0 ≤ 0x8001 % 2 ^ 10 ∧ 0x8001 % 2 ^ 10 < 2 ^ (0 + 1)) ∧ (0x8000 / 2 ^ 10 % 2 ^ 5 = 0 ∧ 0x8000 % 2 ^ 10 = 0) ∧
    (1 ≤ 0x8400 / 2 ^ 10 % 2 ^ 5 ∧ 0xFBFF / 2 ^ 10 % 2 ^ 5 ≤ 30) ∧ (0xFC00 / 2 ^ 10 % 2 ^ 5 = 31 ∧ 0xFC00 % 2 ^ 10 = 0) ∧
    (0xFFFF / 2 ^ 10 % 2 ^ 5 = 31 ∧ 0xFFFF % 2 ^ 10 ≠ 0) := by decide
theorem witness_DecoderIsExact : isNaN16 0x8001 = false ∧ isNaN16 0xFC00 = false := by decide
/-- A NaN operand on either side; an infinity beside the least and the greatest finite patterns; a finite operand. -/
theorem witness_AddDrivesItsRule : (⟨0x4, 1, 0x3C00, 0x3C00⟩ : Inputs).op = 0x4 ∧ (isNaN16 0x3C00 = true ∨ isNaN16 0x7C01 = true) ∧
    (category16 0xFC00 = .infinity ∧ (category16 0x0000).isFinite = true ∧ (category16 0xFBFF).isFinite = true) := by decide
theorem witness_SubDrivesItsRule : (⟨0x5, 1, 0x3C00, 0x3C00⟩ : Inputs).op = 0x5 ∧ (isNaN16 0xFFFF = true ∨ isNaN16 0x3C00 = true) ∧
    (category16 0x7C00 = .infinity ∧ (category16 0x8000).isFinite = true ∧ (category16 0x7BFF).isFinite = true) := by decide
theorem witness_MulDrivesItsRule : (⟨0x6, 1, 0x3C00, 0x8000⟩ : Inputs).op = 0x6 ∧ isNaN16 (mulHalf 0x3C00 0x8000) = false := by
  decide +kernel
/-- One pair for each arm: NaN, infinity by zero, infinity by the least finite and by an infinity, zero by the greatest finite. -/
theorem witness_MulDrivesItsRule_arms : (isNaN16 0x7E00 = true ∨ isNaN16 0x0000 = true) ∧
    (category16 0x7C00 = .infinity ∧ category16 0x8000 = .zero) ∧
    (category16 0xFC00 = .infinity ∧ category16 0x8001 ≠ .zero ∧ category16 0x8001 ≠ .nan) ∧
    (category16 0xFC00 ≠ .zero ∧ category16 0xFC00 ≠ .nan) ∧
    (category16 0x0000 = .zero ∧ (category16 0xFBFF).isFinite = true) := by decide
/-- Likewise: NaN, infinity by infinity, zero by zero, infinity and a finite operand, zero and a nonzero finite operand. -/
theorem witness_DivDrivesItsRule : (⟨0x7, 1, 0x3C00, 0x8000⟩ : Inputs).op = 0x7 ∧ (isNaN16 0xFFFF = true ∨ isNaN16 0x0000 = true) ∧
    (category16 0x7C00 = .infinity ∧ category16 0xFC00 = .infinity) ∧ (category16 0x0000 = .zero ∧ category16 0x8000 = .zero) ∧
    (category16 0xFC00 = .infinity ∧ (category16 0x8000).isFinite = true) ∧
    (category16 0x8000 = .zero ∧ (category16 0x8001).isFinite = true ∧ category16 0x8001 ≠ .zero) := by decide
theorem witness_SingleRoundingAddSub : ((category16 0x7BFF).isFinite = true ∧ (category16 0x0001).isFinite = true) ∧
    (0 < (⟨65504 * 2 ^ 24 + 1, 2 ^ 24⟩ : Fraction).den ∧ (⟨65504 * 2 ^ 24 + 1, 2 ^ 24⟩ : Fraction).num ≠ 0) ∧
    (⟨65504 * 2 ^ 24 + 1, 2 ^ 24⟩ : Fraction).toRat = (val16 0x7BFF).toRat + (val16 0x0001).toRat ∧
    (⟨65504 * 2 ^ 24 - 1, 2 ^ 24⟩ : Fraction).toRat = (val16 0x7BFF).toRat - (val16 0x0001).toRat := by decide +kernel
theorem witness_SingleRoundingMul : ((category16 0x8001).isFinite = true ∧ (category16 0x3800).isFinite = true) ∧
    (0 < (⟨-1, 2 ^ 25⟩ : Fraction).den ∧ (⟨-1, 2 ^ 25⟩ : Fraction).num ≠ 0) ∧
    (⟨-1, 2 ^ 25⟩ : Fraction).toRat = (val16 0x8001).toRat * (val16 0x3800).toRat := by decide +kernel
theorem witness_SingleRoundingDiv : ((category16 0x3C00).isFinite = true ∧ (category16 0x4200).isFinite = true ∧
      category16 0x4200 ≠ .zero) ∧ (0 < (⟨1, 3⟩ : Fraction).den ∧ (⟨1, 3⟩ : Fraction).num ≠ 0) ∧
    (⟨1, 3⟩ : Fraction).toRat = (val16 0x3C00).toRat / (val16 0x4200).toRat := by decide +kernel
theorem witness_WideOperationsStayNormal : (category16 0x7BFF).isFinite = true ∧ (category16 0x8001).isFinite = true ∧
    category16 0x8001 ≠ .zero ∧ (category16 0x8000).isFinite = true ∧ category16 0x8000 = .zero := by decide
theorem witness_SubIsAddOfNegated : isNaN16 0x7C01 = true ∧ isNaN16 0xFE00 = true := by decide
theorem witness_SignOfZeroResults_sums : ((category16 0xFBFF).isFinite = true ∧ (category16 0x7BFF).isFinite = true ∧
      (val16 0xFBFF).toRat + (val16 0x7BFF).toRat = 0 ∧ ¬((0xFBFF : Half) = 0x8000 ∧ (0x7BFF : Half) = 0x8000)) ∧
    ((category16 0x0000).isFinite = true ∧ (category16 0x8000).isFinite = true ∧
      (val16 0x0000).toRat - (val16 0x8000).toRat = 0 ∧ ¬((0x0000 : Half) = 0x8000 ∧ (0x8000 : Half) = 0x0000)) ∧
    ((category16 0x0001).isFinite = true ∧ (val16 0x0001).toRat + (val16 0x0000).toRat ≠ 0 ∧
      (val16 0x0001).toRat - (val16 0x0000).toRat ≠ 0) := by decide +kernel
theorem witness_SignOfZeroResults : category16 (mulHalf 0x8001 0x0001) = .zero ∧ category16 (divHalf 0x0001 0xFBFF) = .zero := by
  decide +kernel
theorem witness_NegDrivesItsRule : (⟨0x8, 1, 0x7C01, 3⟩ : Inputs).op = 0x8 := by decide
theorem witness_Mov16DrivesItsRule : (⟨0x9, 1, 0x7C01, 3⟩ : Inputs).op = 0x9 := by decide
/-- Each arm of R121; the exact sums are 0 of two operands of opposite sign, and twice the greatest binary64 value. -/
theorem witness_WideAddAndSubFollowTheirRule : (isNaN64 0x7FF0000000000001 = true ∨ isNaN64 0 = true) ∧
    (isInf64 0x7FF0000000000000 = true ∧ isInf64 0xFFF0000000000000 = true) ∧
    (isInf64 0xFFF0000000000000 = true ∧ (category64 0x7FEFFFFFFFFFFFFF).isFinite = true) ∧
    ((category64 0x0000000000000001).isFinite = true ∧ (category64 0x8000000000000001).isFinite = true ∧
      (⟨0, 1⟩ : Fraction).toRat = (val64 0x0000000000000001).toRat + (val64 0x8000000000000001).toRat) ∧
    (⟨(2 ^ 53 - 1) * 2 ^ 972, 1⟩ : Fraction).toRat = (val64 0x7FEFFFFFFFFFFFFF).toRat + (val64 0x7FEFFFFFFFFFFFFF).toRat := by
  decide +kernel
/-- The exact zero sum of two negative zeros. -/
theorem witness_WideAddAndSubFollowTheirRule_zeros : (category64 0x8000000000000000).isFinite = true ∧ 0 < (⟨0, 1⟩ : Fraction).den ∧
    (⟨0, 1⟩ : Fraction).toRat = (val64 0x8000000000000000).toRat + (val64 0x8000000000000000).toRat := by decide +kernel
/-- Each arm of R122 and R123 at the values where two arms meet. -/
theorem witness_WideMulAndDivFollowTheirRules : (isNaN64 0 = true ∨ isNaN64 0xFFFFFFFFFFFFFFFF = true) ∧
    (isInf64 0x7FF0000000000000 = true ∧ isZero64 0x8000000000000000 = true) ∧
    (isInf64 0xFFF0000000000000 = true ∧ isInf64 0x7FF0000000000000 = true) ∧
    ((category64 0x0000000000000001).isFinite = true ∧ category64 0x0000000000000001 ≠ .zero) ∧
    (isZero64 0 = true ∧ (category64 0x8000000000000000).isFinite = true) := by decide +kernel
/-- The exact product and quotient of 3 and 7. -/
theorem witness_WideMulAndDivFollowTheirRules_exact :
    ((category64 0x4008000000000000).isFinite = true ∧ category64 0x4008000000000000 ≠ .zero) ∧
    ((category64 0xC01C000000000000).isFinite = true ∧ category64 0xC01C000000000000 ≠ .zero) ∧
    (0 < (⟨21, 1⟩ : Fraction).den ∧ (⟨21, 1⟩ : Fraction).toRat = |(val64 0x4008000000000000).toRat| * |(val64 0xC01C000000000000).toRat|) ∧
    (0 < (⟨3, 7⟩ : Fraction).den ∧ (⟨3, 7⟩ : Fraction).toRat = |(val64 0x4008000000000000).toRat| / |(val64 0xC01C000000000000).toRat|) := by
  decide +kernel

end Sys2Proof.Tests
end

section
/-!
PROOFS. The rounding statements of 00_scope.md: `roundTE` is nearest, ties to even (R13, R14), and `RNE` rounds on its grid (R15).
Both turn on one fact: `roundTE` is off by at most a half, and by exactly a half only where its answer is even.
-/

namespace Sys2Proof.Machine

/-! ## The error of `roundTE` -/

/-- The error of `roundTE`, cleared of the denominator: at most half of it, and exactly half only at an even answer. -/
theorem roundTE_error_mul_den {v : Fraction} (hd : 0 < v.den) :
    2 * |(roundTE v : ℤ) * v.den - v.num.natAbs| ≤ v.den ∧
    (2 * |(roundTE v : ℤ) * v.den - v.num.natAbs| = v.den → roundTE v % 2 = 0) := by
  simp only [roundTE]
  generalize v.num.natAbs = n
  have hr : n % v.den < v.den := Nat.mod_lt n hd
  have hn : (n : ℤ) = (n / v.den : ℕ) * v.den + (n % v.den : ℕ) := by exact_mod_cast (Nat.div_add_mod' n v.den).symm
  generalize n / v.den = q at *
  generalize n % v.den = r at *
  split
  · have e : ((q + 1 : ℕ) : ℤ) * v.den - n = ((v.den - r : ℕ) : ℤ) := by
      rw [hn, Nat.cast_sub hr.le]
      push_cast
      ring
    rw [e, Nat.abs_cast]
    omega
  · have e : (q : ℤ) * v.den - n = -(r : ℤ) := by rw [hn]; ring
    rw [e, abs_neg, Nat.abs_cast]
    omega

/-- `roundTE v` is off by at most a half, and by exactly a half only where it is even. -/
theorem roundTE_error {v : Fraction} (hn : 0 ≤ v.num) (hd : 0 < v.den) :
    |(roundTE v : ℚ) - v.toRat| ≤ 1 / 2 ∧ (|(roundTE v : ℚ) - v.toRat| = 1 / 2 → roundTE v % 2 = 0) := by
  have hd' : (0 : ℚ) < v.den := by exact_mod_cast hd
  have e : |(roundTE v : ℚ) - v.toRat| = (|(roundTE v : ℤ) * v.den - v.num.natAbs| : ℤ) / v.den := by
    rw [Fraction.toRat_natAbs hn, sub_div' hd'.ne', abs_div, Nat.abs_cast]
    push_cast [Nat.cast_natAbs]
    rfl
  obtain ⟨le, even⟩ := roundTE_error_mul_den hd
  rw [e, div_le_div_iff₀ hd' two_pos, div_eq_div_iff hd'.ne' two_ne_zero, mul_comm, one_mul]
  exact ⟨by exact_mod_cast le, fun h => even (by exact_mod_cast h)⟩

/-- A natural number within a half of `x` is a nearest one, and another is equally near only at exactly a half. -/
theorem nearest_of_abs_sub_le_half {N : ℕ} {x : ℚ} (h : |(N : ℚ) - x| ≤ 1 / 2) (n : ℕ) :
    |(N : ℚ) - x| ≤ |(n : ℚ) - x| ∧ (n ≠ N → |(N : ℚ) - x| = |(n : ℚ) - x| → |(N : ℚ) - x| = 1 / 2) := by
  rcases eq_or_ne n N with rfl | ne
  · exact ⟨le_rfl, fun ne => absurd rfl ne⟩
  · have apart : (1 : ℚ) ≤ |(n : ℚ) - N| := by
      exact_mod_cast Int.one_le_abs (sub_ne_zero.mpr (Nat.cast_injective.ne ne) : (n : ℤ) - N ≠ 0)
    have tri : |(n : ℚ) - N| ≤ |(n : ℚ) - x| + |(N : ℚ) - x| := by
      rw [abs_sub_comm (N : ℚ) x]
      exact abs_sub_le _ _ _
    exact ⟨by linarith, fun _ eq => by linarith⟩

/-- R13 is R14 at a power of two: the remainder passes half of `2^sh` where its double passes `2^sh`. -/
theorem roundTE_den_two_pow (M sh : ℕ) : roundTE ⟨M, 2 ^ sh⟩ = rte M sh := by
  cases sh with
  | zero => simp [roundTE, rte, Nat.mod_one]
  | succ k =>
    have gt (r : ℕ) : 2 * r > 2 ^ (k + 1) ↔ r > 2 ^ k := by rw [pow_succ]; omega
    have eq (r : ℕ) : 2 * r = 2 ^ (k + 1) ↔ r = 2 ^ k := by rw [pow_succ]; omega
    simp [roundTE, rte, gt, eq]

/-- Settles O26: the error of `roundTE` is at most a half, and is a half only at an even answer. -/
theorem roundTEIsNearestEven : Obligations.RoundTEIsNearestEven := by
  refine ⟨fun v hn hd n => ?_, roundTE_den_two_pow⟩
  obtain ⟨half, even⟩ := roundTE_error hn hd
  obtain ⟨nearest, tie⟩ := nearest_of_abs_sub_le_half half n
  exact ⟨nearest, fun ne eq => even (tie ne eq)⟩

/-! ## The grid of `RNE` -/

theorem Fraction.divPow2_num_nonneg {v : Fraction} (h : 0 ≤ v.num) (e : Int) : 0 ≤ (v.divPow2 e).num := by
  cases e with
  | ofNat k => exact h
  | negSucc k => exact Int.mul_nonneg h (by positivity)

/-- Rounding on the grid of spacing `2^e` moves the value by at most half a spacing. -/
theorem roundTE_divPow2_error {v : Fraction} (hn : 0 ≤ v.num) (hd : 0 < v.den) (e : Int) :
    |(roundTE (v.divPow2 e) : ℚ) * 2 ^ e - v.toRat| ≤ 2 ^ e / 2 := by
  have pos : (0 : ℚ) < 2 ^ e := by positivity
  obtain ⟨half, -⟩ := roundTE_error (Fraction.divPow2_num_nonneg hn e) (Fraction.divPow2_den_pos hd e)
  rw [Fraction.divPow2_toRat] at half
  calc |(roundTE (v.divPow2 e) : ℚ) * 2 ^ e - v.toRat|
      = |(roundTE (v.divPow2 e) : ℚ) - v.toRat / 2 ^ e| * 2 ^ e := by
        rw [← abs_of_pos pos, ← abs_mul, abs_of_pos pos, sub_mul, div_mul_cancel₀ _ pos.ne']
    _ ≤ 1 / 2 * 2 ^ e := mul_le_mul_of_nonneg_right half pos.le
    _ = 2 ^ e / 2 := by ring

/-- The exponent of `RNE`, `max(emin, floor(log2 v))`: `v` is below `2^(k+1)`, and from `2^k` on unless `k` is `emin`. -/
theorem rne_exponent_spec (emin : Int) {v : Fraction} (hn : 0 < v.num) (hd : 0 < v.den) :
    v.toRat < 2 ^ (max emin (floorLog2 v) + 1) ∧
    (max emin (floorLog2 v) ≠ emin → (2 : ℚ) ^ max emin (floorLog2 v) ≤ v.toRat) := by
  obtain ⟨lo, hi⟩ := floorLog2_spec hn hd
  refine ⟨hi.trans_le (zpow_le_zpow_right₀ one_le_two (by omega)), fun ne => ?_⟩
  rwa [show max emin (floorLog2 v) = floorLog2 v by omega]

/-- Settles O27: the threshold is `overflows_iff`, the exponent `rne_exponent_spec`, and the significand the rounding on the grid. -/
theorem rneRoundsOnItsGrid : Obligations.RNERoundsOnItsGrid := by
  intro p emin emax v hn hd
  have threshold := overflows_iff (p := p) (emax := emax) hn.le hd
  split
  next h =>
    by_cases o : overflows p emax v = true
    · exact threshold.mp o
    · simp [rne, o] at h
  next k N h =>
    obtain ⟨emin_le, -, N_le⟩ := rne_fin_bounds hn hd h
    by_cases o : overflows p emax v = true
    · simp [rne, o] at h
    · simp only [rne, o, Bool.false_eq_true, if_false, Rounded.fin.injEq] at h
      obtain ⟨rfl, rfl⟩ := h
      obtain ⟨below, above⟩ := rne_exponent_spec emin hn hd
      exact ⟨not_le.mp (mt threshold.mpr o), emin_le, below, above, rfl, N_le, roundTE_divPow2_error hn.le hd _⟩

end Sys2Proof.Machine
end

section
/-!
PROOFS. The block as a function of its ports (10_state.md R23 to R25; 30_encoding.md R72): the decoder reads no port that the mask
clears and selects nothing for an unassigned code, and each operation drives what its code says. The function is `blockFunction`,
which `evaluate_eq` ties to the machine.
-/

namespace Sys2Proof

/-! ## The operation that the ports select -/

theorem decode_eq_none_iff (p : Inputs) : decode p = none ↔ 0xA ≤ p.op.toNat := by
  unfold decode
  split
  case h_11 =>
    simp only [imp_false, true_iff] at *
    omega
  all_goals simp [*]

/-- R72: what the mask clears, the operation does not read. -/
theorem decode_masked (p : Inputs) : decode p.masked = decode p := by
  unfold Inputs.masked
  split
  case h_2 h => simp [decode, h, BitVec.extractLsb'_setWidth_of_le]
  case h_11 =>
    have unassigned : 0xA ≤ p.op.toNat := by
      simp only [imp_false] at *
      omega
    rw [(decode_eq_none_iff p).mpr unassigned, decode_eq_none_iff]
    exact unassigned
  all_goals simp [decode, *]

/-- What `Spelling` says constructor by constructor, of every instruction. -/
theorem Laws.Spelling.statement (i : Instr) : Statement i := by
  cases i with
  | enc64 a => exact enc64 a
  | enc32 b => exact enc32 b
  | dec64 x => exact dec64 x
  | dec32 x => exact dec32 x
  | add x y => exact add x y
  | sub x y => exact sub x y
  | mul x y => exact mul x y
  | div x y => exact div x y
  | neg x => exact neg x
  | mov16 x => exact mov16 x

end Sys2Proof

namespace Sys2Proof.Machine

/-! ## The outputs by operation -/

theorem blockFunction_of_decode {p : Inputs} {i : Instr} (h : decode p = some i) : blockFunction p = instrOutputs i := by
  simp [blockFunction, h]

theorem blockFunction_masked (p : Inputs) : blockFunction p.masked = blockFunction p := by
  simp only [blockFunction, decode_masked]

theorem blockFunction_dec64 {p : Inputs} (h : p.op.toNat = 0x2) : blockFunction p = ⟨0, dec64 p.x, false⟩ :=
  blockFunction_of_decode (i := .dec64 p.x) (by simp [decode, h])

theorem blockFunction_dec32 {p : Inputs} (h : p.op.toNat = 0x3) : blockFunction p = ⟨0, (dec32 p.x).setWidth 64, false⟩ :=
  blockFunction_of_decode (i := .dec32 p.x) (by simp [decode, h])

theorem blockFunction_unassigned {p : Inputs} (h : 0xA ≤ p.op.toNat) : blockFunction p = ⟨0, 0, true⟩ := by
  simp [blockFunction, (decode_eq_none_iff p).mpr h]

theorem blockFunction_badOp_iff (p : Inputs) : (blockFunction p).badOp = true ↔ 0xA ≤ p.op.toNat := by
  rw [blockFunction_badOp, Option.isNone_iff_eq_none, decode_eq_none_iff]

/-- Only DEC64 and DEC32 drive a wide result. -/
theorem blockFunction_r64_eq_zero {p : Inputs} (h2 : p.op.toNat ≠ 0x2) (h3 : p.op.toNat ≠ 0x3) : (blockFunction p).r64 = 0 := by
  unfold blockFunction decode
  split
  case h_1 i h =>
    split at h <;> cases h
    case h_3 h => exact absurd h h2
    case h_4 h => exact absurd h h3
    all_goals rfl
  case h_2 => rfl

theorem blockFunction_encode_badOp (i : Instr) : (blockFunction (encode i)).badOp = false := by
  obtain ⟨assigned, -⟩ := Laws.Spelling.statement i
  simpa [← not_le, ← blockFunction_badOp_iff, Inputs.WellFormed, unassigned] using assigned

/-- Settles O5: an evaluation drives the block's function of the input ports. -/
theorem outputsDependOnInputsAlone : Obligations.OutputsDependOnInputsAlone := fun s u same =>
  ⟨_, _, evaluate_eq s, evaluate_eq u, congrArg blockFunction same⟩

/-- Settles O6: the mask of R72 does not change the block's function. -/
theorem unreadPortsHaveNoEffect : Obligations.UnreadPortsHaveNoEffect := by
  intro s p q same
  refine ⟨_, _, evaluate_eq _, evaluate_eq _, ?_⟩
  calc blockFunction p = blockFunction p.masked := (blockFunction_masked p).symm
    _ = blockFunction q.masked := by rw [same]
    _ = blockFunction q := blockFunction_masked q

/-- Settles O7: the outputs of DEC64, DEC32 and an unassigned code are written out; of the others only `out.r64` is claimed. -/
theorem outputPortsByOperation : Obligations.OutputPortsByOperation := by
  intro s
  refine ⟨_, evaluate_eq s, ?_, ?_, fun ⟨h2, h3⟩ => blockFunction_r64_eq_zero h2 h3, blockFunction_badOp_iff s.ins,
    fun i h => blockFunction_of_decode h⟩
  · rintro (h | h | h)
    · simp [blockFunction_dec64 h]
    · simp [blockFunction_dec32 h]
    · simp [blockFunction_unassigned h]
  · intro h
    rw [blockFunction_dec32 h]
    ext i hi
    simp

/-- Settles O9: an instruction changes the output ports and nothing else. -/
theorem execFrame : Obligations.ExecFrame := by
  intro i s t h
  rw [exec_eq, Host.Outcome.next.injEq] at h
  subst h
  exact ⟨rfl, fun _ => rfl, fun _ => rfl, rfl, rfl⟩

end Sys2Proof.Machine
end

section
/-!
PROOFS. One step of the host harness (10_state.md R27 to R29): each form of step as an equation, then what a step does to the ports
and to each variable.
-/

namespace Sys2Proof.Machine

/-! ## Sampling -/

@[simp] theorem State.writeDest_faults (d : Dest) (s : State) : (s.writeDest d).faults = s.faults := by
  obtain ⟨-, -, -, faults⟩ := s.writeDest_frame d
  exact faults

/-- Sampling leaves the ports and the program as they are, whether it records or writes. -/
theorem State.sample_frame (d : Dest) (s : State) :
    (s.sample d).ins = s.ins ∧ (s.sample d).outs = s.outs ∧ (s.sample d).prog = s.prog := by
  obtain ⟨ins, outs, prog, -⟩ := s.writeDest_frame d
  rcases s.sample_cases d with ⟨-, recorded⟩ | ⟨-, written⟩
  · rw [recorded]
    exact ⟨rfl, rfl, rfl⟩
  · rw [written]
    exact ⟨ins, outs, prog⟩

@[simp] theorem State.sample_ins (d : Dest) (s : State) : (s.sample d).ins = s.ins := (s.sample_frame d).1
@[simp] theorem State.sample_outs (d : Dest) (s : State) : (s.sample d).outs = s.outs := (s.sample_frame d).2.1
@[simp] theorem State.sample_prog (d : Dest) (s : State) : (s.sample d).prog = s.prog := (s.sample_frame d).2.2

theorem State.sample_of_badOp (d : Dest) {s : State} (h : s.outs.badOp = true) : s.sample d = s.record (.badOp s.ins.op) :=
  if_pos h

theorem State.sample_of_not_badOp (d : Dest) {s : State} (h : s.outs.badOp = false) : s.sample d = s.writeDest d := by
  simp [State.sample, h]

/-- Sampling leaves an `h` variable as it is, or it is the destination and takes `out.r16`. -/
theorem State.sample_readH (d : Dest) (s : State) (j : VarNo) :
    (s.sample d).readH j = s.readH j ∨ (d = .h j ∧ (s.sample d).readH j = some s.outs.r16) := by
  rcases s.sample_cases d with ⟨-, recorded⟩ | ⟨-, written⟩
  · exact .inl (by rw [recorded, State.record_readH])
  · rw [written, State.writeDest_readH]
    by_cases named : d = .h j <;> simp [named]

/-- Sampling leaves a `w` variable as it is, or it is the destination and takes `out.r64`. -/
theorem State.sample_readW (d : Dest) (s : State) (j : VarNo) :
    (s.sample d).readW j = s.readW j ∨ (d = .w j ∧ (s.sample d).readW j = some s.outs.r64) := by
  rcases s.sample_cases d with ⟨-, recorded⟩ | ⟨-, written⟩
  · exact .inl (by rw [recorded, State.record_readW])
  · rw [written, State.writeDest_readW]
    by_cases named : d = .w j <;> simp [named]

/-! ## The three forms of step -/

theorem step_of_idle {s : State} (h : s.prog = []) : step s = .next s := by
  simp [step, h]

theorem step_of_unwritten {s : State} {c : Command} {rest : List Command} (hprog : s.prog = c :: rest)
    (hin : commandInputs c s = none) : step s = .next ((s.withProgram rest).record .unwrittenVariable) := by
  simp only [step, hprog]
  exact runCommand_of_unwritten (by rw [commandInputs_withProgram, hin])

theorem step_of_inputs {s : State} {c : Command} {rest : List Command} {p : Inputs} (hprog : s.prog = c :: rest)
    (hin : commandInputs c s = some p) :
    step s = .next (State.sample (commandDest c) { s with prog := rest, ins := p, outs := blockFunction p }) := by
  simp only [step, hprog]
  exact runCommand_of_inputs (by rw [commandInputs_withProgram, hin])

/-- R29: after a step an `h` variable reads as before, or the command that ran names it and it holds a value. -/
theorem step_readH {s t : State} (h : step s = .next t) (j : VarNo) :
    t.readH j = s.readH j ∨ (s.prog.head?.map commandDest = some (.h j) ∧ (t.readH j).isSome) := by
  obtain ⟨-, rfl⟩ | ⟨_, _, -, -, rfl⟩ | ⟨_, _, _, hprog, -, rfl⟩ := step_cases h
  · exact .inl rfl
  · exact .inl rfl
  · exact (State.sample_readH _ _ j).imp id fun ⟨named, written⟩ => ⟨by simp [hprog, named], by simp [written]⟩

/-- R29: after a step a `w` variable reads as before, or the command that ran names it and it holds a value. -/
theorem step_readW {s t : State} (h : step s = .next t) (j : VarNo) :
    t.readW j = s.readW j ∨ (s.prog.head?.map commandDest = some (.w j) ∧ (t.readW j).isSome) := by
  obtain ⟨-, rfl⟩ | ⟨_, _, -, -, rfl⟩ | ⟨_, _, _, hprog, -, rfl⟩ := step_cases h
  · exact .inl rfl
  · exact .inl rfl
  · exact (State.sample_readW _ _ j).imp id fun ⟨named, written⟩ => ⟨by simp [hprog, named], by simp [written]⟩

/-! ## What every step keeps -/

/-- Settles O11: a step leaves both kinds of port alone, or drives the inputs and the block's function of them together. -/
theorem stepKeepsCombinational : Obligations.StepKeepsCombinational := by
  intro s t comb h
  obtain ⟨-, rfl⟩ | ⟨_, _, -, -, rfl⟩ | ⟨_, _, _, -, -, rfl⟩ := step_cases h
  · exact comb
  · exact comb
  · rw [Combinational, State.sample_ins, State.sample_outs]

/-- Settles O12: each of the three forms of step answers a next state. -/
theorem nothingStopsTheMachine : Obligations.NothingStopsTheMachine := by
  intro s
  cases hprog : s.prog with
  | nil => exact ⟨s, step_of_idle hprog⟩
  | cons c rest =>
    cases hin : commandInputs c s with
    | none => exact ⟨_, step_of_unwritten hprog hin⟩
    | some p => exact ⟨_, step_of_inputs hprog hin⟩

/-- Settles O19: `step_readH` and `step_readW` for a command that does not name the variable. -/
theorem onlyTheDestinationChanges : Obligations.OnlyTheDestinationChanges := by
  intro s t h
  refine ⟨fun hprog => ?_, fun c rest hprog => ⟨fun j ne => ?_, fun j ne => ?_⟩⟩
  · rw [step_of_idle hprog, Host.Outcome.next.injEq] at h
    exact h.symm
  · exact (step_readH h j).resolve_right fun ⟨named, _⟩ => ne (by simpa [hprog] using named)
  · exact (step_readW h j).resolve_right fun ⟨named, _⟩ => ne (by simpa [hprog] using named)

/-- Settles O20: a variable keeps its value, or takes the one that the command writes. -/
theorem heldVariablesStayHeld : Obligations.HeldVariablesStayHeld := by
  refine fun s t h => ⟨fun j held => ?_, fun j held => ?_⟩
  · exact (step_readH h j).elim (fun same => same ▸ held) And.right
  · exact (step_readW h j).elim (fun same => same ▸ held) And.right

/-! ## What a command does -/

/-- Settles O14: `exec` drives the outputs of the decoded instruction, which are the block's function of the ports. -/
theorem stepRunsTheDecodedInstruction : Obligations.StepRunsTheDecodedInstruction := by
  intro s c rest p i hprog hin hdec
  rw [step_of_inputs hprog hin, blockFunction_of_decode hdec, exec_eq]
  rfl

/-- Settles O18: a source without a value leaves the command without port values. -/
theorem unwrittenVariableIsRecorded : Obligations.UnwrittenVariableIsRecorded := by
  intro s c rest hprog unwritten
  have notHeld : ¬ SourcesHeld c s := by
    rintro ⟨heldH, heldW⟩
    rcases unwritten with ⟨j, read, empty⟩ | ⟨j, read, empty⟩
    · simpa [empty] using heldH j read
    · simpa [empty] using heldW j read
  have hin : commandInputs c s = none := by
    rw [← commandInputs_isSome] at notHeld
    simpa using notHeld
  exact step_of_unwritten hprog hin

/-- R28: a named command drives the ports of an assigned code, and zero on the ports its operation does not read. -/
theorem commandInputs_masked {c : Command} {s : State} {p : Inputs} (h : commandInputs c s = some p) :
    (∃ q, c = .raw q ∧ p = q) ∨ (p.masked = p ∧ (blockFunction p).badOp = false) := by
  obtain ⟨i, rfl⟩ | rfl := commandInputs_spells h
  · obtain ⟨-, masked⟩ := Laws.Spelling.statement i
    exact .inr ⟨masked, blockFunction_encode_badOp i⟩
  · exact .inl ⟨p, rfl, rfl⟩

/-- Settles O16: the step samples the block's function of the command's ports, and `out.bad_op` decides what sampling does. -/
theorem commandIsOneUseOfTheBlock : Obligations.CommandIsOneUseOfTheBlock := by
  intro s c rest hprog held
  obtain ⟨p, hin⟩ := Option.isSome_iff_exists.mp ((commandInputs_isSome c s).mpr held)
  refine ⟨_, p, step_of_inputs hprog hin, hin, State.sample_ins _ _, State.sample_outs _ _, State.sample_prog _ _, ?_⟩
  rw [State.sample_outs]
  refine ⟨commandInputs_masked hin, fun bad => ?_, fun good => ?_⟩
  · rw [State.sample_of_badOp _ bad]
    exact ⟨rfl, rfl, rfl⟩
  · rw [State.sample_of_not_badOp _ good]
    exact ⟨State.writeDest_faults _ _, State.writeDest_readH _ _, State.writeDest_readW _ _⟩

end Sys2Proof.Machine
end

section
/-!
PROOFS. Operations have no side effect (20_memory.md R45), and commands with no variable in common run in either order (R47 (b)).
A command acts through its port values alone: where these and a variable agree before it, they leave the variable alike and record
the same fault. A command that writes none of its sources leaves it its port values.
-/

namespace Sys2Proof.Machine

/-- Settles O8: an evaluation drives the block's function of input ports that it leaves as they are. -/
theorem evaluationIsIdempotent : Obligations.EvaluationIsIdempotent := fun s =>
  ⟨_, evaluate_eq s, rfl, evaluate_eq _⟩

/-! ## Sampling, variable by variable -/

theorem State.sample_readH_eq_ite (d : Dest) (s : State) (j : VarNo) :
    (s.sample d).readH j = if s.outs.badOp = false ∧ d = .h j then some s.outs.r16 else s.readH j := by
  rcases s.sample_cases d with ⟨bad, recorded⟩ | ⟨good, written⟩
  · simp [recorded, bad]
  · simp [written, good, State.writeDest_readH]

theorem State.sample_readW_eq_ite (d : Dest) (s : State) (j : VarNo) :
    (s.sample d).readW j = if s.outs.badOp = false ∧ d = .w j then some s.outs.r64 else s.readW j := by
  rcases s.sample_cases d with ⟨bad, recorded⟩ | ⟨good, written⟩
  · simp [recorded, bad]
  · simp [written, good, State.writeDest_readW]

theorem State.sample_faults (d : Dest) (s : State) :
    (s.sample d).faults = s.faults ++ if s.outs.badOp then [.badOp s.ins.op] else [] := by
  rcases s.sample_cases d with ⟨bad, recorded⟩ | ⟨good, written⟩
  · simp [recorded, bad]
  · simp [written, good]

/-! ## Port values depend on the sources alone -/

theorem readSrc16_congr {src : Src 16} {s t : State} (h : ∀ i ∈ srcVar src, s.readH i = t.readH i) :
    readSrc16 src s = readSrc16 src t := by
  cases src with
  | var i => exact h i (List.mem_singleton_self i)
  | imm v => rfl

theorem readSrc64_congr {src : Src 64} {s t : State} (h : ∀ i ∈ srcVar src, s.readW i = t.readW i) :
    readSrc64 src s = readSrc64 src t := by
  cases src with
  | var i => exact h i (List.mem_singleton_self i)
  | imm v => rfl

theorem readSrc32_congr {src : Src 32} {s t : State} (h : ∀ i ∈ srcVar src, s.readW i = t.readW i) :
    readSrc32 src s = readSrc32 src t := by
  cases src with
  | var i => exact congrArg (Option.map _) (h i (List.mem_singleton_self i))
  | imm v => rfl

theorem readPair_congr {l r : Src 16} {s t : State} (h : ∀ i ∈ srcVar l ++ srcVar r, s.readH i = t.readH i) :
    readPair l r s = readPair l r t := by
  have left : readSrc16 l s = readSrc16 l t := readSrc16_congr fun i mem => h i (List.mem_append_left _ mem)
  have right : readSrc16 r s = readSrc16 r t := readSrc16_congr fun i mem => h i (List.mem_append_right _ mem)
  rw [readPair, readPair, left, right]

theorem commandInputs_congr {c : Command} {s t : State} (hH : ∀ i ∈ sourcesH c, s.readH i = t.readH i)
    (hW : ∀ i ∈ sourcesW c, s.readW i = t.readW i) : commandInputs c s = commandInputs c t := by
  cases c with
  | raw p => rfl
  | enc64 d src => exact congrArg (Option.map _) (readSrc64_congr hW)
  | enc32 d src => exact congrArg (Option.map _) (readSrc32_congr hW)
  | dec64 d src | dec32 d src | neg d src | mov16 d src => exact congrArg (Option.map _) (readSrc16_congr hH)
  | add d l r | sub d l r | mul d l r | div d l r => exact congrArg (Option.map _) (readPair_congr hH)

/-- A command that writes no source of `c` leaves the port values of `c` as they are. -/
theorem commandInputs_of_leavesAlone {c d : Command} {s t : State} {rest : List Command} (alone : LeavesAlone c d)
    (hprog : s.prog = d :: rest) (h : step s = .next t) : commandInputs c t = commandInputs c s := by
  obtain ⟨-, frame⟩ := onlyTheDestinationChanges s t h
  obtain ⟨frameH, frameW⟩ := frame d rest hprog
  obtain ⟨aloneH, aloneW⟩ := alone
  exact commandInputs_congr (fun i read => frameH i fun dest => (aloneH i dest).2 read)
    (fun i read => frameW i fun dest => (aloneW i dest).2 read)

/-! ## What a command does depends on its port values alone -/

theorem step_prog {s t : State} (h : step s = .next t) : t.prog = s.prog.tail := by
  obtain ⟨hprog, rfl⟩ | ⟨_, _, hprog, -, rfl⟩ | ⟨_, _, _, hprog, -, rfl⟩ := step_cases h <;> simp [hprog]

/-- Two states in which a command has the same port values: a variable that reads alike in both reads alike after it, and it
records the same faults from both. -/
theorem step_congr {c : Command} {s s' t t' : State} {rest rest' : List Command} (hprog : s.prog = c :: rest)
    (hprog' : s'.prog = c :: rest') (ports : commandInputs c s = commandInputs c s') (h : step s = .next t)
    (h' : step s' = .next t') :
    (∀ j, s.readH j = s'.readH j → t.readH j = t'.readH j) ∧ (∀ j, s.readW j = s'.readW j → t.readW j = t'.readW j) ∧
      ∃ fs, t.faults = s.faults ++ fs ∧ t'.faults = s'.faults ++ fs := by
  cases hin : commandInputs c s' with
  | none =>
    rw [step_of_unwritten hprog (ports.trans hin), Host.Outcome.next.injEq] at h
    rw [step_of_unwritten hprog' hin, Host.Outcome.next.injEq] at h'
    subst h h'
    exact ⟨fun _ same => same, fun _ same => same, _, rfl, rfl⟩
  | some p =>
    rw [step_of_inputs hprog (ports.trans hin), Host.Outcome.next.injEq] at h
    rw [step_of_inputs hprog' hin, Host.Outcome.next.injEq] at h'
    subst h h'
    refine ⟨fun j same => ?_, fun j same => ?_, _, State.sample_faults _ _, State.sample_faults _ _⟩
    · rw [State.sample_readH_eq_ite, State.sample_readH_eq_ite]
      exact congrArg _ same
    · rw [State.sample_readW_eq_ite, State.sample_readW_eq_ite]
      exact congrArg _ same

/-! ## Two commands in either order -/

theorem run_two {s t u : State} (h : step s = .next t) (h' : step t = .next u) :
    Host.Core.run Sys2Proof.core 2 s = .next u := by
  simp [Host.Core.run, Sys2Proof.core, h, h']

/-- `d` beside `c`: both orders leave a variable that `d` does not name as `c` alone leaves it, and record the faults of `c`. -/
theorem step_beside {c d : Command} {s s₁ s₂ t u : State} (alone : LeavesAlone c d)
    (hc : step (s.withProgram [c, d]) = .next s₁) (hcd : step s₁ = .next t)
    (hd : step (s.withProgram [d, c]) = .next s₂) (hdc : step s₂ = .next u) :
    (∀ j, commandDest d ≠ .h j → t.readH j = u.readH j) ∧ (∀ j, commandDest d ≠ .w j → t.readW j = u.readW j) ∧
      ∃ fs, s₁.faults = s.faults ++ fs ∧ u.faults = s₂.faults ++ fs := by
  have ports : commandInputs c (s.withProgram [c, d]) = commandInputs c s₂ := by
    rw [commandInputs_of_leavesAlone alone rfl hd, commandInputs_withProgram, commandInputs_withProgram]
  obtain ⟨sameH, sameW, faults⟩ := step_congr rfl (step_prog hd) ports hc hdc
  obtain ⟨frameH, frameW⟩ := (onlyTheDestinationChanges _ _ hcd).2 d [] (step_prog hc)
  obtain ⟨frameH', frameW'⟩ := (onlyTheDestinationChanges _ _ hd).2 d [c] rfl
  exact ⟨fun j ne => (frameH j ne).trans (sameH j (frameH' j ne).symm),
    fun j ne => (frameW j ne).trans (sameW j (frameW' j ne).symm), faults⟩

/-- Settles O21: no variable is the destination of both commands, so `step_beside` gives each, for one of the two commands. -/
theorem independentCommandsCommute : Obligations.IndependentCommandsCommute := by
  rintro s c d ⟨cAlone, dAlone⟩
  obtain ⟨s₁, hc⟩ := nothingStopsTheMachine (s.withProgram [c, d])
  obtain ⟨s₂, hd⟩ := nothingStopsTheMachine (s.withProgram [d, c])
  obtain ⟨t, hcd⟩ := nothingStopsTheMachine s₁
  obtain ⟨u, hdc⟩ := nothingStopsTheMachine s₂
  obtain ⟨keepsH, keepsW, fc, hfc, hfc'⟩ := step_beside cAlone hc hcd hd hdc
  obtain ⟨keepsH', keepsW', fd, hfd, hfd'⟩ := step_beside dAlone hd hdc hc hcd
  obtain ⟨cAloneH, cAloneW⟩ := cAlone
  refine ⟨t, u, run_two hc hcd, run_two hd hdc, State.h_ext fun j => ?_, State.w_ext fun j => ?_, ?_⟩
  · by_cases dest : commandDest d = .h j
    · exact (keepsH' j (cAloneH j dest).1).symm
    · exact keepsH j dest
  · by_cases dest : commandDest d = .w j
    · exact (keepsW' j (cAloneW j dest).1).symm
    · exact keepsW j dest
  · rw [hfd', hfc', hfc, hfd, List.append_assoc, List.append_assoc]
    exact List.perm_append_comm.append_left s.faults

end Sys2Proof.Machine
end

section
/-!
PROOFS. The encoding on the ports (30_encoding.md R69 to R73): the ten operation codes, and that decoding and encoding undo each
other up to the ports an operation does not read.
-/

namespace Sys2Proof

/-- R70, R71: the decoder reads back the instruction that the ports spell. -/
theorem decode_encode (i : Instr) : decode (encode i) = some i := by
  cases i with
  | enc32 b => simp [encode, decode, BitVec.extractLsb'_setWidth_of_le]
  | _ => rfl

/-- No two instructions are spelled alike. -/
theorem encode_injective : Function.Injective encode := fun i j same =>
  Option.some.inj <| calc
    some i = decode (encode i) := (decode_encode i).symm
    _ = decode (encode j) := by rw [same]
    _ = some j := decode_encode j

/-- The spelling of a decoded instruction differs from the ports it came from only where the operation does not read (R72). -/
theorem encode_of_decode {p : Inputs} {i : Instr} (h : decode p = some i) : encode i = p.masked := by
  unfold decode at h
  split at h <;> cases h
  all_goals simp [encode, Inputs.masked, *, ← BitVec.toNat_inj]

/-- Settles O2: the mask clears what encoding leaves at zero, and decoding undoes encoding. -/
theorem encodeOfDecodedPorts : Obligations.EncodeOfDecodedPorts :=
  ⟨fun _ _ => encode_of_decode, fun _ _ same => encode_injective same⟩

/-- Settles O3: an assigned code selects its arm of the decoder, and `decode_eq_none_iff` is the rest. -/
theorem decodeByOperationCode : Obligations.DecodeByOperationCode := by
  intro p
  refine ⟨?_, ?_, ?_, ?_, ?_, ?_, ?_, ?_, ?_, ?_, (decode_eq_none_iff p).mpr⟩
  all_goals
    intro code
    simp [decode, code]

/-- Settles O4: seven closed words, each evaluated. -/
theorem decodedWordsAreRight : Obligations.DecodedWordsAreRight := by
  unfold Obligations.DecodedWordsAreRight
  decide

end Sys2Proof
end

section
/-!
PROOFS. The assembler (30_encoding.md R74, R75). Each reader of an operand succeeds exactly on the operands that well-formedness
allows it, and reads back what the disassembler writes. A line is well formed exactly when its expansion is, and then the expansion
has a core mnemonic.
-/

namespace Sys2Proof.Machine

/-! ## Hexadecimal digits -/

theorem length_hexDigits (k v : Nat) : (hexDigits k v).length = k := by
  induction k generalizing v with
  | zero => rfl
  | succ k ih => simp [hexDigits, ih]

theorem digitsValue_concat (ds : List (Fin 16)) (d : Fin 16) : digitsValue (ds ++ [d]) = 16 * digitsValue ds + d.val := by
  simp [digitsValue]

theorem digitsValue_hexDigits (k v : Nat) : digitsValue (hexDigits k v) = v % 16 ^ k := by
  induction k generalizing v with
  | zero => simp [hexDigits, digitsValue, Nat.mod_one]
  | succ k ih => rw [hexDigits, digitsValue_concat, ih, pow_succ', Nat.mod_mul, add_comm]

/-! ## The readers of operands on what the disassembler writes -/

@[simp] theorem varNo_val (i : VarNo) : varNo i.val = some i := by simp [varNo]

@[simp] theorem hVar_h (i : VarNo) : hVar (.h i.val) = some i := varNo_val i

@[simp] theorem wVar_w (i : VarNo) : wVar (.w i.val) = some i := varNo_val i

@[simp] theorem halfSrc_h (i : VarNo) : halfSrc (.h i.val) = some (.var i) := by simp [halfSrc]

/-- `k` digits hold every pattern of at most `4 * k` bits. -/
theorem immSrc_hexDigits {k n : Nat} (fits : n ≤ 4 * k) (v : BitVec n) :
    immSrc k n (.imm (hexDigits k v.toNat)) = some (.imm v) := by
  have small : v.toNat < 16 ^ k := calc
    v.toNat < 2 ^ n := v.isLt
    _ ≤ 2 ^ (4 * k) := Nat.pow_le_pow_right (by decide) fits
    _ = 16 ^ k := pow_mul 2 4 k
  simp [immSrc, length_hexDigits, digitsValue_hexDigits, Nat.mod_eq_of_lt small]

@[simp] theorem halfSrc_srcOperand (x : Src 16) : halfSrc (srcOperand false 4 x) = some x := by
  cases x with
  | var i => exact halfSrc_h i
  | imm v => exact immSrc_hexDigits (k := 4) (by decide) v

theorem wideSrc_srcOperand {k n : Nat} (fits : n ≤ 4 * k) (x : Src n) : wideSrc k n (srcOperand true k x) = some x := by
  cases x with
  | var i => simp [srcOperand, wideSrc]
  | imm v => exact immSrc_hexDigits fits v

@[simp] theorem oneSource_some {n : Nat} (f : VarNo → Src n → Command) (d : VarNo) (x : Src n) :
    oneSource f (some d) (some x) = some (f d x) := rfl

@[simp] theorem twoSources_some (f : VarNo → Src 16 → Src 16 → Command) (d : VarNo) (x y : Src 16) :
    twoSources f (some d) (some x) (some y) = some (f d x y) := rfl

/-! ## Where the readers of operands succeed -/

@[simp] theorem varNo_isSome (n : Nat) : (varNo n).isSome = decide (n < 16) := by
  by_cases h : n < 16 <;> simp [varNo, h]

@[simp] theorem hVar_isSome (o : Operand) : (hVar o).isSome = o.isH := by
  cases o with
  | h n => exact varNo_isSome n
  | w _ | imm _ => rfl

@[simp] theorem wVar_isSome (o : Operand) : (wVar o).isSome = o.isW := by
  cases o with
  | w n => exact varNo_isSome n
  | h _ | imm _ => rfl

@[simp] theorem immSrc_isSome (k n : Nat) (o : Operand) : (immSrc k n o).isSome = o.isImm k := by
  cases o with
  | imm ds => by_cases h : ds.length = k <;> simp [immSrc, Operand.isImm, h]
  | h _ | w _ => rfl

@[simp] theorem halfSrc_isSome (o : Operand) : (halfSrc o).isSome = o.isHalfSource := by
  cases o with
  | h n => simp [halfSrc, Operand.isHalfSource, Operand.isH, Operand.isImm]
  | w _ => rfl
  | imm ds => exact immSrc_isSome 4 16 (.imm ds)

@[simp] theorem wideSrc_isSome (k n : Nat) (o : Operand) : (wideSrc k n o).isSome = (o.isW || o.isImm k) := by
  cases o with
  | w i => simp [wideSrc, Operand.isW, Operand.isImm]
  | h _ => rfl
  | imm ds => exact immSrc_isSome k n (.imm ds)

@[simp] theorem oneSource_isSome {n : Nat} (f : VarNo → Src n → Command) (d : Option VarNo) (x : Option (Src n)) :
    (oneSource f d x).isSome = (d.isSome && x.isSome) := by
  cases d <;> simp [oneSource]

@[simp] theorem twoSources_isSome (f : VarNo → Src 16 → Src 16 → Command) (d : Option VarNo) (x y : Option (Src 16)) :
    (twoSources f d x y).isSome = (d.isSome && x.isSome && y.isSome) := by
  cases d <;> cases x <;> simp [twoSources]

/-! ## Well-formed lines -/

/-- One of the ten mnemonics of R70, the names that `assembleCore` reads. -/
def isCore : OpName → Bool
  | .enc64 | .enc32 | .dec64 | .dec32 | .add | .sub | .mul | .div | .neg | .mov16 => true
  | .adda | .suba | .mula | .diva | .frombits | .tobits
  | .methodAdd | .methodSubtract | .methodMultiply | .methodDivide | .methodNegate => false

theorem assembleCore_isSome (l : Line) : (assembleCore l).isSome = (isCore l.name && l.WellFormed) := by
  obtain ⟨name, operands⟩ := l
  cases name with
  | enc64 | enc32 | dec64 | dec32 | neg | mov16 =>
    match operands with
    | [d, s] => simp [assembleCore, isCore, Line.WellFormed]
    | [] | [_] | _ :: _ :: _ :: _ => rfl
  | add | sub | mul | div =>
    match operands with
    | [d, x, y] => simp [assembleCore, isCore, Line.WellFormed]
    | [] | [_] | [_, _] | _ :: _ :: _ :: _ :: _ => rfl
  | _ => rfl

/-- An `h` variable is a 16-bit source, so a compound form may repeat its first operand (R133). -/
theorem isH_and_isHalfSource (o : Operand) : (o.isH && o.isHalfSource) = o.isH := by
  cases h : o.isH <;> simp [Operand.isHalfSource, h]

/-- R75: a well-formed line expands to a well-formed line with a core mnemonic, and no other line does. -/
theorem expandLine_wellFormed (l : Line) : (isCore (expandLine l).name && (expandLine l).WellFormed) = l.WellFormed := by
  obtain ⟨name, operands⟩ := l
  cases name with
  | enc64 | enc32 | dec64 | dec32 | add | sub | mul | div | neg | mov16 => rfl
  | adda | suba | mula | diva =>
    match operands with
    | [y, x] => simp [expandLine, isCore, Line.WellFormed, isH_and_isHalfSource]
    | [] | [_] | _ :: _ :: _ :: _ => rfl
  | frombits =>
    match operands with
    | [d, .h _] | [d, .w _] => exact (Bool.and_false d.isH).symm
    | [_, .imm _] | [] | [_] => rfl
    | _ :: o :: _ :: _ => cases o <;> rfl
  | tobits =>
    match operands with
    | [d, .w _] | [d, .imm _] => exact (Bool.and_false d.isH).symm
    | [d, .h n] => simp [expandLine, isCore, Line.WellFormed, Operand.isHalfSource, Operand.isImm]
    | [] | [_] => rfl
    | _ :: o :: _ :: _ => cases o <;> rfl
  | methodAdd | methodSubtract | methodMultiply | methodDivide =>
    match operands with
    | [_, _, _] | [] | [_] | [_, _] | _ :: _ :: _ :: _ :: _ => rfl
  | methodNegate =>
    match operands with
    | [_, _] | [] | [_] | _ :: _ :: _ :: _ => rfl

theorem assemble_isSome (l : Line) : (assemble l).isSome = l.WellFormed := by
  rw [assemble, assembleCore_isSome, expandLine_wellFormed]

/-! ## The commands of lines -/

theorem exists_of_oneSource {n : Nat} {f : VarNo → Src n → Command} {d : Option VarNo} {x : Option (Src n)} {c : Command}
    (h : oneSource f d x = some c) : ∃ d' x', f d' x' = c := by
  cases d <;> cases x <;> cases h
  exact ⟨_, _, rfl⟩

theorem exists_of_twoSources {f : VarNo → Src 16 → Src 16 → Command} {d : Option VarNo} {x y : Option (Src 16)} {c : Command}
    (h : twoSources f d x y = some c) : ∃ d' x' y', f d' x' y' = c := by
  cases d <;> cases x <;> cases y <;> cases h
  exact ⟨_, _, _, rfl⟩

/-- R73: no line spells the values on the ports as such. -/
theorem assemble_ne_raw (l : Line) (p : Inputs) : assemble l ≠ some (.raw p) := by
  intro h
  unfold assemble assembleCore at h
  split at h
  case h_11 => cases h
  case h_5 | h_6 | h_7 | h_8 =>
    obtain ⟨_, _, _, named⟩ := exists_of_twoSources h
    cases named
  all_goals
    obtain ⟨_, _, named⟩ := exists_of_oneSource h
    cases named

/-- R74: the line that the disassembler writes for a command is read as the command. -/
theorem assembleCore_of_disassemble {c : Command} {l : Line} (h : disassemble c = some l) : assembleCore l = some c := by
  cases c <;> cases h
  all_goals simp [assembleCore, wideSrc_srcOperand]

/-- R75: so is every line that expands to it. -/
theorem assemble_of_expandLine {c : Command} {l : Line} (h : disassemble c = some (expandLine l)) : assemble l = some c :=
  assembleCore_of_disassemble h

/-- R75, R9: FROMBITS reads the four digits of its immediate most significant first. -/
theorem assemble_frombits (d : VarNo) (p q r t : Fin 16) : assemble ⟨.frombits, [.h d.val, .imm [p, q, r, t]]⟩ =
    some (.mov16 d (.imm (BitVec.ofNat 16 (p.val * 4096 + q.val * 256 + r.val * 16 + t.val)))) := by
  have value : digitsValue [p, q, r, t] = p.val * 4096 + q.val * 256 + r.val * 16 + t.val := by
    simp only [digitsValue, List.foldl_cons, List.foldl_nil]
    omega
  simp [assemble, expandLine, assembleCore, halfSrc, immSrc, value]

/-- Settles O23: a line is accepted as its expansion is, and every other spelling expands to the line that the disassembler writes
for the command; only the digits after FROMBITS are read here. -/
theorem assemblerAcceptsWellFormedLines : Obligations.AssemblerAcceptsWellFormedLines := by
  refine ⟨assemble_isSome, assemble_frombits, fun d i => assemble_of_expandLine rfl,
    fun d x y => ⟨?_, assemble_of_expandLine rfl, ?_⟩⟩
  all_goals
    simp only [List.forall_mem_cons]
    exact ⟨assemble_of_expandLine rfl, assemble_of_expandLine rfl, assemble_of_expandLine rfl,
      assemble_of_expandLine rfl, nofun⟩

/-- Settles O24: a named command is read back from the disassembler's line, which is its own expansion. -/
theorem assembleOfDisassembled : Obligations.AssembleOfDisassembled := by
  refine ⟨fun c named => ?_, fun p => ⟨rfl, fun l => assemble_ne_raw l p⟩⟩
  cases c with
  | raw p => exact absurd rfl (named p)
  | _ => exact ⟨_, rfl, assemble_of_expandLine rfl⟩

end Sys2Proof.Machine
end

section
/-!
PROOFS. Patterns as numbers: each field as the bits cut out of its pattern, and the categories by the numbers of the fields
(30_encoding.md R60, R61, R66, R67).
-/

namespace Sys2Proof.Machine

theorem eq_zero_iff_toNat {n : ℕ} (v : BitVec n) : v = 0 ↔ v.toNat = 0 := by
  rw [← BitVec.toNat_inj]
  simp

theorem toNat_ofNat_of_lt {n x : ℕ} (h : x < 2 ^ n) : (BitVec.ofNat n x).toNat = x := by
  rw [BitVec.toNat_ofNat, Nat.mod_eq_of_lt h]

theorem toNat_append_eq_add {n m : ℕ} (S : BitVec n) (M : BitVec m) : (S ++ M).toNat = S.toNat * 2 ^ m + M.toNat := by
  rw [BitVec.toNat_append, ← Nat.shiftLeft_add_eq_or_of_lt M.isLt, Nat.shiftLeft_eq]

/-! ## The fields -/

theorem sign64_toNat (a : Wide) : (sign64 a).toNat = a.toNat / 2 ^ 63 := by
  have lt := a.isLt
  simp only [sign64, BitVec.extractLsb'_toNat, Nat.shiftRight_eq_div_pow]
  omega

theorem exp64_toNat (a : Wide) : (exp64 a).toNat = a.toNat / 2 ^ 52 % 2 ^ 11 := by
  simp only [exp64, BitVec.extractLsb'_toNat, Nat.shiftRight_eq_div_pow]

theorem frac64_toNat (a : Wide) : (frac64 a).toNat = a.toNat % 2 ^ 52 := by
  simp only [frac64, BitVec.extractLsb'_toNat, Nat.shiftRight_zero]

theorem sign32_toNat (b : Single) : (sign32 b).toNat = b.toNat / 2 ^ 31 := by
  have lt := b.isLt
  simp only [sign32, BitVec.extractLsb'_toNat, Nat.shiftRight_eq_div_pow]
  omega

theorem exp32_toNat (b : Single) : (exp32 b).toNat = b.toNat / 2 ^ 23 % 2 ^ 8 := by
  simp only [exp32, BitVec.extractLsb'_toNat, Nat.shiftRight_eq_div_pow]

theorem frac32_toNat (b : Single) : (frac32 b).toNat = b.toNat % 2 ^ 23 := by
  simp only [frac32, BitVec.extractLsb'_toNat, Nat.shiftRight_zero]

/-- R90: the payload bits below the quiet bit, cut out of the fraction. -/
theorem payload64_toNat (a : Wide) : (a.extractLsb' 42 9).toNat = (frac64 a).toNat / 2 ^ 42 % 2 ^ 9 := by
  rw [frac64_toNat]
  simp only [BitVec.extractLsb'_toNat, Nat.shiftRight_eq_div_pow]
  omega

theorem payload32_toNat (b : Single) : (b.extractLsb' 13 9).toNat = (frac32 b).toNat / 2 ^ 13 % 2 ^ 9 := by
  rw [frac32_toNat]
  simp only [BitVec.extractLsb'_toNat, Nat.shiftRight_eq_div_pow]
  omega

theorem getLsbD_sign16 (h : Half) : (sign16 h).getLsbD 0 = h.getLsbD 15 := by simp [sign16]

theorem getLsbD_sign32 (b : Single) : (sign32 b).getLsbD 0 = b.getLsbD 31 := by simp [sign32]

theorem getLsbD_sign64 (a : Wide) : (sign64 a).getLsbD 0 = a.getLsbD 63 := by simp [sign64]

/-! ## The categories -/

theorem categoryOf_zero_iff_toNat {n m : ℕ} (e : BitVec n) (f : BitVec m) :
    categoryOf e f = .zero ↔ e.toNat = 0 ∧ f.toNat = 0 := by
  rw [categoryOf_zero, eq_zero_iff_toNat, eq_zero_iff_toNat]

theorem categoryOf_denormalized_iff_toNat {n m : ℕ} (e : BitVec n) (f : BitVec m) :
    categoryOf e f = .denormalized ↔ e.toNat = 0 ∧ f.toNat ≠ 0 := by
  rw [categoryOf_denormalized, eq_zero_iff_toNat, Ne, eq_zero_iff_toNat]

/-- R61, R66, R67: an infinity or a NaN has every bit of its exponent field set. -/
theorem isFinite_categoryOf_iff {n m : ℕ} (e : BitVec n) (f : BitVec m) (hn : 0 < n) :
    (categoryOf e f).isFinite ↔ e ≠ BitVec.allOnes n := by
  have inf := categoryOf_infinity e f hn
  have nan := categoryOf_nan e f hn
  cases c : categoryOf e f <;> simp_all [Category.isFinite]

/-- With every bit of the exponent field set, the fraction tells a NaN from an infinity. -/
theorem categoryOf_allOnes {n m : ℕ} (f : BitVec m) (hn : 0 < n) :
    categoryOf (BitVec.allOnes n) f = if f.toNat = 0 then .infinity else .nan := by
  split_ifs with h
  · exact (categoryOf_infinity _ _ hn).mpr ⟨rfl, (eq_zero_iff_toNat f).mpr h⟩
  · exact (categoryOf_nan _ _ hn).mpr ⟨rfl, mt (eq_zero_iff_toNat f).mp h⟩

theorem categoryOf_of_not_isFinite {n m : ℕ} {e : BitVec n} {f : BitVec m} (hn : 0 < n) (special : ¬ (categoryOf e f).isFinite) :
    categoryOf e f = if f.toNat = 0 then .infinity else .nan := by
  rw [isFinite_categoryOf_iff e f hn, not_ne_iff] at special
  rw [special, categoryOf_allOnes f hn]

end Sys2Proof.Machine
end

section
/-!
PROOFS. The magnitude of a pattern by its exponent and fraction fields (30_encoding.md R62, R66, R67): one formula for the three
formats. On binary16 it is a strictly increasing function of the pattern, and the patterns of one binade form a grid.
-/

namespace Sys2Proof.Machine

/-! ## The magnitude of fields -/

/-- The magnitude that an exponent field `E` and a fraction field `F` of `w` bits stand for, in a format of this bias. -/
def fieldsMagnitude (w bias E F : ℕ) : ℚ :=
  if E = 0 then F * 2 ^ (1 - bias - w : ℤ) else (2 ^ w + F) * 2 ^ (E - bias - w : ℤ)

theorem fieldsMagnitude_nonneg (w bias E F : ℕ) : 0 ≤ fieldsMagnitude w bias E F := by
  unfold fieldsMagnitude
  split <;> positivity

theorem fieldsMagnitude_eq_zero_iff (w bias E F : ℕ) : fieldsMagnitude w bias E F = 0 ↔ E = 0 ∧ F = 0 := by
  unfold fieldsMagnitude
  split
  · have : (2 : ℚ) ^ (1 - bias - w : ℤ) ≠ 0 := by positivity
    simp [*]
  · have : (2 ^ w + F : ℚ) * 2 ^ (E - bias - w : ℤ) ≠ 0 := by positivity
    simp [*]

/-- A significand of `w + 1` bits lies in the binade of its exponent. -/
theorem significand_binade {w M : ℕ} (e : ℤ) (lo : 2 ^ w ≤ M) (hi : M < 2 ^ (w + 1)) :
    (2 : ℚ) ^ e ≤ M * 2 ^ (e - w) ∧ (M : ℚ) * 2 ^ (e - w) < 2 ^ (e + 1) := by
  have pos : (0 : ℚ) < 2 ^ (e - w) := by positivity
  have shift (n : ℕ) : (2 : ℚ) ^ (e - w + n) = 2 ^ n * 2 ^ (e - w) := by
    rw [zpow_add₀ two_ne_zero, zpow_natCast, mul_comm]
  have lo_eq : (2 : ℚ) ^ e = 2 ^ w * 2 ^ (e - w) := by rw [← shift, sub_add_cancel]
  have hi_eq : (2 : ℚ) ^ (e + 1) = 2 ^ (w + 1) * 2 ^ (e - w) := by
    rw [← shift]
    congr 1
    push_cast
    ring
  rw [lo_eq, hi_eq, mul_le_mul_iff_left₀ pos, mul_lt_mul_iff_left₀ pos]
  exact ⟨by exact_mod_cast lo, by exact_mod_cast hi⟩

/-- A normalized pattern lies in the binade of its exponent field. -/
theorem fieldsMagnitude_binade {w E F : ℕ} (bias : ℕ) (hE : E ≠ 0) (hF : F < 2 ^ w) :
    (2 : ℚ) ^ (E - bias : ℤ) ≤ fieldsMagnitude w bias E F ∧ fieldsMagnitude w bias E F < 2 ^ (E - bias + 1 : ℤ) := by
  have := significand_binade (M := 2 ^ w + F) (E - bias) (Nat.le_add_right _ _) (by rw [pow_succ]; omega)
  simpa [fieldsMagnitude, hE] using this

theorem fieldsMagnitude_subnormal_lt {w F : ℕ} (bias : ℕ) (hF : F < 2 ^ w) : fieldsMagnitude w bias 0 F < 2 ^ (1 - bias : ℤ) := by
  have e : (2 : ℚ) ^ (1 - bias : ℤ) = 2 ^ w * 2 ^ (1 - bias - w : ℤ) := by
    rw [← zpow_natCast, ← zpow_add₀ two_ne_zero, add_sub_cancel]
  rw [fieldsMagnitude, if_pos rfl, e]
  gcongr
  exact_mod_cast hF

/-- The three rows of R62, R66 and R67 with their sign. -/
theorem toRat_of_fields {n m : ℕ} (w bias : ℕ) (S : BitVec 1) (E : BitVec n) (F : BitVec m) :
    (if E = 0 ∧ F = 0 then ⟨0, 1⟩
      else if E = 0 then Fraction.scaled S F.toNat (1 - bias - w)
      else Fraction.scaled S (2 ^ w + F.toNat) (E.toNat - (bias + w : ℕ)) : Fraction).toRat =
    (if S = 1#1 then -1 else 1) * fieldsMagnitude w bias E.toNat F.toNat := by
  rw [fieldsMagnitude]
  simp only [eq_zero_iff_toNat]
  by_cases hE : E.toNat = 0
  · by_cases hF : F.toNat = 0
    · simp [hE, hF, Fraction.toRat]
    · rw [if_neg (by simp [hF]), if_pos hE, if_pos hE, Fraction.scaled_toRat, mul_assoc]
  · rw [if_neg (by simp [hE]), if_neg hE, if_neg hE, Fraction.scaled_toRat, mul_assoc]
    push_cast
    rw [sub_sub]

/-! ## The values of the three formats -/

theorem val16_toRat (h : Half) :
    (val16 h).toRat = (if sign16 h = 1#1 then -1 else 1) * fieldsMagnitude 10 15 (exp16 h).toNat (frac16 h).toNat :=
  toRat_of_fields 10 15 (sign16 h) (exp16 h) (frac16 h)

theorem val32_toRat (b : Single) :
    (val32 b).toRat = (if sign32 b = 1#1 then -1 else 1) * fieldsMagnitude 23 127 (exp32 b).toNat (frac32 b).toNat :=
  toRat_of_fields 23 127 (sign32 b) (exp32 b) (frac32 b)

theorem val64_toRat (a : Wide) :
    (val64 a).toRat = (if sign64 a = 1#1 then -1 else 1) * fieldsMagnitude 52 1023 (exp64 a).toNat (frac64 a).toNat :=
  toRat_of_fields 52 1023 (sign64 a) (exp64 a) (frac64 a)

theorem abs_signed (S : BitVec 1) {x : ℚ} (h : 0 ≤ x) : |(if S = 1#1 then -1 else 1) * x| = x := by
  split <;> simp [abs_of_nonneg h]

theorem abs_val16 (h : Half) : |(val16 h).toRat| = fieldsMagnitude 10 15 (exp16 h).toNat (frac16 h).toNat := by
  rw [val16_toRat, abs_signed _ (fieldsMagnitude_nonneg ..)]

theorem abs_val32 (b : Single) : |(val32 b).toRat| = fieldsMagnitude 23 127 (exp32 b).toNat (frac32 b).toNat := by
  rw [val32_toRat, abs_signed _ (fieldsMagnitude_nonneg ..)]

theorem abs_val64 (a : Wide) : |(val64 a).toRat| = fieldsMagnitude 52 1023 (exp64 a).toNat (frac64 a).toNat := by
  rw [val64_toRat, abs_signed _ (fieldsMagnitude_nonneg ..)]

/-! ## The magnitude patterns of binary16 -/

/-- The number of a binary16 magnitude pattern, bits 14..0; 0x7C00 counts as 65536. -/
def halfValue (m : ℕ) : ℚ := fieldsMagnitude 10 15 (m / 1024) (m % 1024)

theorem halfValue_nonneg (m : ℕ) : 0 ≤ halfValue m := fieldsMagnitude_nonneg ..

theorem halfValue_zero : halfValue 0 = 0 := (fieldsMagnitude_eq_zero_iff ..).mpr ⟨rfl, rfl⟩

/-- The patterns from `j * 1024` on, for half of them only where `j = 0` alone, are the multiples of `2^(j - 24)`. -/
theorem halfValue_grid {j N : ℕ} (lo : j = 0 ∨ 1024 ≤ N) (hi : N ≤ 2048) :
    halfValue (j * 1024 + N) = N * 2 ^ (j - 24 : ℤ) := by
  rcases Nat.lt_or_ge N 1024 with subnormal | lo'
  · obtain rfl : j = 0 := by omega
    simp [halfValue, fieldsMagnitude, Nat.div_eq_of_lt subnormal, Nat.mod_eq_of_lt subnormal]
  rcases Nat.eq_or_lt_of_le hi with rfl | hi'
  · have quot : (j * 1024 + 2048) / 1024 = j + 2 := by omega
    have rem : (j * 1024 + 2048) % 1024 = 0 := by omega
    have shift : (((j + 2 : ℕ) : ℤ) - (15 : ℕ) - (10 : ℕ)) = j - 24 + 1 := by push_cast; ring
    rw [halfValue, fieldsMagnitude, quot, rem, if_neg (by omega), shift, zpow_add_one₀ two_ne_zero]
    norm_num
    ring
  · have quot : (j * 1024 + N) / 1024 = j + 1 := by omega
    have rem : (j * 1024 + N) % 1024 = N - 1024 := by omega
    have shift : (((j + 1 : ℕ) : ℤ) - (15 : ℕ) - (10 : ℕ)) = j - 24 := by push_cast; ring
    rw [halfValue, fieldsMagnitude, quot, rem, if_neg (by omega), shift, Nat.cast_sub lo']
    norm_num

/-- Every pattern stands on the grid of its binade. -/
theorem exists_grid (m : ℕ) : ∃ j N, m = j * 1024 + N ∧ (j = 0 ∨ 1024 ≤ N) ∧ N < 2048 := by
  rcases Nat.lt_or_ge m 2048 with lt | ge
  · exact ⟨0, m, by omega, .inl rfl, lt⟩
  · exact ⟨m / 1024 - 1, m % 1024 + 1024, by omega, by omega, by omega⟩

/-- Patterns are ordered as the numbers they stand for. -/
theorem halfValue_strictMono : StrictMono halfValue := by
  refine strictMono_nat_of_lt_succ fun m => ?_
  obtain ⟨j, N, rfl, lo, hi⟩ := exists_grid m
  rw [Nat.add_assoc, halfValue_grid lo hi.le, halfValue_grid (by omega) hi]
  gcongr
  exact Nat.lt_succ_self N

theorem halfValue_7BFF : halfValue 0x7BFF = 65504 := by norm_num [halfValue, fieldsMagnitude]

theorem halfValue_7C00 : halfValue 0x7C00 = 65536 := by norm_num [halfValue, fieldsMagnitude]

/-! ## A pattern as its sign and its magnitude -/

/-- A pattern is its sign and its magnitude. -/
theorem sign16_append_magnitude (h : Half) : sign16 h ++ h.extractLsb' 0 15 = h :=
  (BitVec.extractLsb'_append_extractLsb'_eq_extractLsb' rfl).trans BitVec.extractLsb'_eq_self

theorem exp16_magnitude_toNat (S : BitVec 1) (M : BitVec 15) : (exp16 (S ++ M)).toNat = M.toNat / 1024 := by
  have e : (exp16 (S ++ M)).toNat = (S ++ M).toNat / 2 ^ 10 % 2 ^ 5 := by
    simp [exp16, Nat.shiftRight_eq_div_pow]
  have lt := M.isLt
  rw [e, toNat_append_eq_add]
  omega

theorem frac16_magnitude_toNat (S : BitVec 1) (M : BitVec 15) : (frac16 (S ++ M)).toNat = M.toNat % 1024 := by
  have e : (frac16 (S ++ M)).toNat = (S ++ M).toNat % 2 ^ 10 := by
    simp [frac16]
  rw [e, toNat_append_eq_add]
  omega

/-- The number of a pattern is that of its magnitude, with its sign. -/
theorem val16_magnitude (S : BitVec 1) (M : BitVec 15) :
    (val16 (S ++ M)).toRat = (if S = 1#1 then -1 else 1) * halfValue M.toNat := by
  rw [val16_toRat, sign16_magnitude, exp16_magnitude_toNat, frac16_magnitude_toNat, halfValue]

/-- The finite patterns are those below 0x7C00. -/
theorem isFinite_magnitude16_iff (S : BitVec 1) (M : BitVec 15) : (category16 (S ++ M)).isFinite ↔ M.toNat < 0x7C00 := by
  have lt := M.isLt
  have fin : (category16 (S ++ M)).isFinite ↔ (exp16 (S ++ M)).toNat ≠ 31 := by
    rw [category16, isFinite_categoryOf_iff _ _ (by decide)]
    simp [← BitVec.toNat_inj]
  rw [fin, exp16_magnitude_toNat]
  omega

/-- R81 reads a magnitude as `halfValue` does. -/
theorem magnitudeValue_eq {m : ℕ} (h : m ≤ 0x7C00) : magnitudeValue m = halfValue m := by
  rcases Nat.lt_or_eq_of_le h with lt | rfl
  · have e : BitVec.ofNat 16 m = 0#1 ++ BitVec.ofNat 15 m := by
      apply BitVec.eq_of_toNat_eq
      rw [toNat_append_eq_add, BitVec.toNat_ofNat, BitVec.toNat_ofNat]
      simp
      omega
    rw [magnitudeValue, if_pos lt, e, val16_magnitude, BitVec.toNat_ofNat, Nat.mod_eq_of_lt (by omega)]
    simp
  · rw [halfValue_7C00]
    rfl

end Sys2Proof.Machine
end

section
/-!
PROOFS. `mag16` (40_encoder.md R81): in the binade of its argument it is the rounding on that binade's grid, across the overflow
threshold too, and so it answers a nearest magnitude pattern, the even one of two.
-/

namespace Sys2Proof.Machine

/-! ## `mag16` as a packing -/

/-- The magnitude pattern of what `RNE` answers (R81). -/
def packHalf : Rounded → ℕ
  | .inf => 0x7C00
  | .fin k N => (k + 14).toNat * 1024 + N

/-- `mag16` is unfolded through a variable: where it stands applied, the kernel would evaluate the threshold test on its numerals. -/
theorem mag16_eq (v : Fraction) : mag16 v = packHalf (rne 11 (-14) 15 v) := by
  suffices e : ∀ f, f = mag16 → f v = packHalf (rne 11 (-14) 15 v) from e mag16 rfl
  intro f unfolded
  delta mag16 at unfolded
  subst unfolded
  dsimp only
  generalize rne 11 (-14) 15 v = t
  cases t with
  | inf => rfl
  | fin k N => rfl
/-! ## What `roundTE` and `floorLog2` answer -/

/-- A value of at least `n` rounds to at least `n`. -/
theorem le_roundTE {v : Fraction} (hn : 0 ≤ v.num) (hd : 0 < v.den) {n : ℕ} (h : (n : ℚ) ≤ v.toRat) : n ≤ roundTE v := by
  obtain ⟨half, -⟩ := roundTE_error hn hd
  have : (n : ℚ) < roundTE v + 1 := by linarith [(abs_le.mp half).1]
  exact Nat.lt_succ_iff.mp (by exact_mod_cast this)

theorem roundTE_eq_zero_iff {v : Fraction} (hn : 0 ≤ v.num) (hd : 0 < v.den) : roundTE v = 0 ↔ v.toRat ≤ 1 / 2 := by
  obtain ⟨half, even⟩ := roundTE_error hn hd
  have bound := abs_le.mp half
  constructor
  · intro zero
    rw [zero] at bound
    linarith [bound.1]
  · intro le
    by_contra ne
    have one : (1 : ℚ) ≤ roundTE v := by exact_mod_cast Nat.one_le_iff_ne_zero.mpr ne
    have tie : v.toRat = 1 / 2 := by linarith [bound.2]
    have eq_one : roundTE v = 1 := by
      have : (roundTE v : ℚ) ≤ 1 := by linarith [bound.2]
      exact le_antisymm (by exact_mod_cast this) (by exact_mod_cast one)
    have := even (by rw [eq_one, tie]; norm_num)
    omega

theorem floorLog2_eq {v : Fraction} (hn : 0 < v.num) (hd : 0 < v.den) {k : ℤ} (lo : (2 : ℚ) ^ k ≤ v.toRat)
    (hi : v.toRat < 2 ^ (k + 1)) : floorLog2 v = k := by
  obtain ⟨lo', hi'⟩ := floorLog2_spec hn hd
  have le := (zpow_lt_zpow_iff_right₀ one_lt_two).mp (lo'.trans_lt hi)
  have ge := (zpow_lt_zpow_iff_right₀ one_lt_two).mp (lo.trans_lt hi')
  omega

/-! ## The binade of a value -/

/-- `x` lies in binade `j` of binary16, whose patterns have spacing `2^(j - 24)`. Binade 0 takes everything below `2^-13`. -/
def InBinade (j : ℕ) (x : ℚ) : Prop := (j = 0 ∨ (2 : ℚ) ^ (j - 14 : ℤ) ≤ x) ∧ x < 2 ^ (j - 13 : ℤ)

theorem exists_inBinade {x : ℚ} : ∀ n : ℕ, x < 2 ^ (n - 13 : ℤ) → ∃ j ≤ n, InBinade j x
  | 0, hi => ⟨0, le_rfl, .inl rfl, hi⟩
  | n + 1, hi => by
    by_cases below : x < 2 ^ (n - 13 : ℤ)
    · obtain ⟨j, le, b⟩ := exists_inBinade n below
      exact ⟨j, le.trans n.le_succ, b⟩
    · have e : (((n + 1 : ℕ) : ℤ) - 14) = n - 13 := by push_cast; ring
      exact ⟨n + 1, le_rfl, .inr (by rw [e]; exact not_lt.mp below), hi⟩

/-- A value in a binade, measured in the binade's spacing. -/
theorem InBinade.scaled {j : ℕ} {x : ℚ} (b : InBinade j x) :
    (j = 0 ∨ 1024 ≤ x / 2 ^ (j - 24 : ℤ)) ∧ x / 2 ^ (j - 24 : ℤ) < 2048 := by
  obtain ⟨lo, hi⟩ := b
  have pos : (0 : ℚ) < 2 ^ (j - 24 : ℤ) := by positivity
  have e10 : (2 : ℚ) ^ (j - 14 : ℤ) = 1024 * 2 ^ (j - 24 : ℤ) := by
    rw [show (j - 14 : ℤ) = 10 + (j - 24) by ring, zpow_add₀ two_ne_zero]
    norm_num
  have e11 : (2 : ℚ) ^ (j - 13 : ℤ) = 2048 * 2 ^ (j - 24 : ℤ) := by
    rw [show (j - 13 : ℤ) = 11 + (j - 24) by ring, zpow_add₀ two_ne_zero]
    norm_num
  rw [le_div_iff₀ pos, div_lt_iff₀ pos, ← e10, ← e11]
  exact ⟨lo, hi⟩

/-- The significand that a value of binade `j` is rounded to. -/
def gridSignificand (j : ℕ) (v : Fraction) : ℕ := roundTE (v.divPow2 (j - 24))

section Binade
variable {j : ℕ} {v : Fraction} (hn : 0 < v.num) (hd : 0 < v.den) (b : InBinade j v.toRat)
include hn hd

theorem gridSignificand_error : |(gridSignificand j v : ℚ) - v.toRat / 2 ^ (j - 24 : ℤ)| ≤ 1 / 2 ∧
    (|(gridSignificand j v : ℚ) - v.toRat / 2 ^ (j - 24 : ℤ)| = 1 / 2 → gridSignificand j v % 2 = 0) := by
  rw [← Fraction.divPow2_toRat]
  exact roundTE_error (Fraction.divPow2_num_nonneg hn.le _) (Fraction.divPow2_den_pos hd _)

include b

theorem gridSignificand_range : (j = 0 ∨ 1024 ≤ gridSignificand j v) ∧ gridSignificand j v ≤ 2048 := by
  obtain ⟨lo, hi⟩ := b.scaled
  have num := Fraction.divPow2_num_nonneg hn.le (j - 24)
  have den := Fraction.divPow2_den_pos hd (j - 24)
  rw [← Fraction.divPow2_toRat] at lo hi
  exact ⟨lo.imp_right fun lo => le_roundTE num den (by exact_mod_cast lo), roundTE_le num den (by exact_mod_cast hi.le)⟩

/-- The exponent of `RNE` is the binade's. -/
theorem rne_exponent_of_inBinade : max (-14) (floorLog2 v) = j - 14 := by
  obtain ⟨rfl | lo, hi⟩ := b
  · have := (zpow_lt_zpow_iff_right₀ one_lt_two).mp ((floorLog2_spec hn hd).1.trans_lt hi)
    omega
  · have := floorLog2_eq hn hd lo (by convert hi using 2; ring)
    omega

/-- From the threshold on, the grid of binade 29 rounds up to its end, which is the pattern 0x7C00 of R15's `INF`. -/
theorem gridSignificand_of_overflow (h : 65520 ≤ v.toRat) (hj : j ≤ 29) : j = 29 ∧ gridSignificand j v = 2048 := by
  obtain ⟨-, le⟩ := gridSignificand_range hn hd b
  have lt : (2 : ℚ) ^ (15 : ℤ) < 2 ^ (j - 13 : ℤ) := lt_of_lt_of_le (by norm_num) h |>.trans b.2
  have := (zpow_lt_zpow_iff_right₀ one_lt_two).mp lt
  obtain rfl : j = 29 := by omega
  obtain ⟨half, even⟩ := gridSignificand_error (j := 29) hn hd
  have x_ge : 2047 + 1 / 2 ≤ v.toRat / 2 ^ ((29 : ℕ) - 24 : ℤ) := by
    rw [le_div_iff₀ (by positivity)]
    norm_num
    exact h
  have bound := abs_le.mp half
  have ge : (2047 : ℚ) ≤ gridSignificand 29 v := by linarith [bound.1]
  have ge' : 2047 ≤ gridSignificand 29 v := by exact_mod_cast ge
  have ne : gridSignificand 29 v ≠ 2047 := by
    intro eq
    have eq' : (gridSignificand 29 v : ℚ) = 2047 := by exact_mod_cast eq
    have tie : v.toRat / 2 ^ ((29 : ℕ) - 24 : ℤ) = 2047 + 1 / 2 := by linarith [bound.1]
    have := even (by rw [eq', tie]; norm_num)
    omega
  exact ⟨rfl, by omega⟩

/-- R81 in the binade of its argument. -/
theorem mag16_of_inBinade (hj : j ≤ 29) : mag16 v = j * 1024 + gridSignificand j v := by
  have threshold := overflows_iff (p := 11) (emax := 15) hn.le hd
  by_cases o : overflows 11 15 v = true
  · have big : 65520 ≤ v.toRat := le_trans (by norm_num) (threshold.mp o)
    obtain ⟨rfl, e⟩ := gridSignificand_of_overflow hn hd b big hj
    rw [mag16_eq, rne, if_pos o, e]
    rfl
  · have j' : (j - 14 + 14 : ℤ).toNat = j := by omega
    have g : (j - 14 - (11 : ℕ) + 1 : ℤ) = j - 24 := by push_cast; ring
    rw [mag16_eq, rne, if_neg o, rne_exponent_of_inBinade hn hd b]
    simp only [packHalf, j', g]
    rfl

/-- `mag16` is off by at most half the spacing of a binade its argument lies in. -/
theorem mag16_error (hj : j ≤ 29) : |halfValue (mag16 v) - v.toRat| ≤ 2 ^ (j - 25 : ℤ) := by
  obtain ⟨lo, hi⟩ := gridSignificand_range hn hd b
  rw [mag16_of_inBinade hn hd b hj, halfValue_grid lo hi]
  calc |(gridSignificand j v : ℚ) * 2 ^ (j - 24 : ℤ) - v.toRat| ≤ 2 ^ (j - 24 : ℤ) / 2 := roundTE_divPow2_error hn.le hd _
    _ = 2 ^ (j - 25 : ℤ) := by
      rw [show (j - 24 : ℤ) = j - 25 + 1 by ring, zpow_add_one₀ two_ne_zero, mul_div_cancel_right₀ _ two_ne_zero]

omit b in
/-- A pattern of the binade's grid is no nearer than the rounding, and is as near only where the rounding is even. -/
theorem gridSignificand_nearest (n : ℕ) :
    |(gridSignificand j v : ℚ) * 2 ^ (j - 24 : ℤ) - v.toRat| ≤ |n * 2 ^ (j - 24 : ℤ) - v.toRat| ∧
    (n ≠ gridSignificand j v → |(gridSignificand j v : ℚ) * 2 ^ (j - 24 : ℤ) - v.toRat| = |n * 2 ^ (j - 24 : ℤ) - v.toRat| →
      gridSignificand j v % 2 = 0) := by
  have pos : (0 : ℚ) < 2 ^ (j - 24 : ℤ) := by positivity
  have unit (n : ℕ) : |n * 2 ^ (j - 24 : ℤ) - v.toRat| = |n - v.toRat / 2 ^ (j - 24 : ℤ)| * 2 ^ (j - 24 : ℤ) := by
    rw [← abs_of_pos pos, ← abs_mul, abs_of_pos pos, sub_mul, div_mul_cancel₀ _ pos.ne']
  obtain ⟨half, even⟩ := gridSignificand_error (j := j) hn hd
  obtain ⟨nearest, tie⟩ := nearest_of_abs_sub_le_half half n
  rw [unit, unit, mul_le_mul_iff_left₀ pos, mul_left_inj' pos.ne']
  exact ⟨nearest, fun ne eq => even (tie ne eq)⟩

end Binade

/-! ## The nearest pattern -/

/-- R15's threshold on binary16. -/
theorem mag16_of_ge {v : Fraction} (hn : 0 ≤ v.num) (hd : 0 < v.den) (ge : 65520 ≤ v.toRat) : mag16 v = 0x7C00 := by
  have o : overflows 11 15 v = true := (overflows_iff hn hd).mpr (ge.trans' (by norm_num))
  rw [mag16_eq, rne, if_pos o]
  rfl

theorem exists_inBinade_of_lt {x : ℚ} (lt : x < 65536) : ∃ j ≤ 29, InBinade j x :=
  exists_inBinade 29 (lt.trans_le (by norm_num))

theorem mag16_le {v : Fraction} (hn : 0 < v.num) (hd : 0 < v.den) : mag16 v ≤ 0x7C00 := by
  rcases le_or_gt 65520 v.toRat with ge | lt
  · exact (mag16_of_ge hn.le hd ge).le
  · obtain ⟨j, hj, b⟩ := exists_inBinade_of_lt (lt.trans (by norm_num))
    obtain ⟨-, le⟩ := gridSignificand_range hn hd b
    rw [mag16_of_inBinade hn hd b hj]
    omega

/-- A pattern stands on the grid of the binade, or is further off than an end of the grid. -/
theorem grid_or_further {j : ℕ} {x : ℚ} (b : InBinade j x) (m : ℕ) :
    ∃ n : ℕ, (j = 0 ∨ 1024 ≤ n) ∧ n ≤ 2048 ∧ (m = j * 1024 + n ∨ |n * 2 ^ (j - 24 : ℤ) - x| < |halfValue m - x|) := by
  obtain ⟨lo, hi⟩ := b.scaled
  have pos : (0 : ℚ) < 2 ^ (j - 24 : ℤ) := by positivity
  rw [div_lt_iff₀ pos] at hi
  rw [le_div_iff₀ pos] at lo
  by_cases below : j ≠ 0 ∧ m < j * 1024 + 1024
  · have lt := halfValue_strictMono below.2
    rw [halfValue_grid (.inr le_rfl) (by norm_num)] at lt
    have lo := lo.resolve_left below.1
    refine ⟨1024, .inr le_rfl, by norm_num, .inr ?_⟩
    push_cast at lt ⊢
    rw [abs_of_nonpos (by linarith), abs_of_neg (by linarith)]
    linarith
  by_cases above : j * 1024 + 2048 < m
  · have lt := halfValue_strictMono above
    rw [halfValue_grid (.inr (by norm_num)) le_rfl] at lt
    refine ⟨2048, .inr (by norm_num), le_rfl, .inr ?_⟩
    push_cast at lt ⊢
    rw [abs_of_pos (by linarith), abs_of_pos (by linarith)]
    linarith
  · exact ⟨m - j * 1024, by omega, by omega, .inl (by omega)⟩

theorem mag16_nearest {v : Fraction} (hn : 0 < v.num) (hd : 0 < v.den) (le : v.toRat ≤ 65536) (m : ℕ) :
    |halfValue (mag16 v) - v.toRat| ≤ |halfValue m - v.toRat| ∧
    (m ≠ mag16 v → |halfValue (mag16 v) - v.toRat| = |halfValue m - v.toRat| → mag16 v % 2 = 0) := by
  rcases le.lt_or_eq with lt | eq
  · obtain ⟨j, hj, b⟩ := exists_inBinade_of_lt lt
    obtain ⟨lo, hi⟩ := gridSignificand_range hn hd b
    obtain ⟨n, n_lo, n_hi, grid⟩ := grid_or_further b m
    obtain ⟨nearest, tie⟩ := gridSignificand_nearest (j := j) hn hd n
    rw [mag16_of_inBinade hn hd b hj, halfValue_grid lo hi]
    obtain rfl | further := grid
    · rw [halfValue_grid n_lo n_hi]
      exact ⟨nearest, fun ne eq => by have := tie (by omega) eq; omega⟩
    · exact ⟨nearest.trans further.le, fun _ eq => absurd eq (nearest.trans_lt further).ne⟩
  · rw [mag16_of_ge hn.le hd (eq ▸ by norm_num), halfValue_7C00, eq]
    simp

/-- Settles O28: `mag16` answers the nearest pattern of the binade's grid, and a pattern outside the grid is further off. -/
theorem mag16IsNearest : Obligations.Mag16IsNearest := by
  intro v hn hd
  refine ⟨mag16_le hn hd, fun gt => mag16_of_ge hn.le hd (gt.le.trans' (by norm_num)), fun le m hm => ?_⟩
  rw [magnitudeValue_eq (mag16_le hn hd), magnitudeValue_eq hm]
  exact mag16_nearest hn hd le m

end Sys2Proof.Machine
end

section
/-!
PROOFS. The bit-level magnitudes of 40_encoder.md R84 and R85: a significand shifted to the grid of its binade and rounded by `rte` is
`mag16`. Both widths are instances of one statement about a format's fields.
-/

namespace Sys2Proof.Machine

theorem Fraction.num_pos {v : Fraction} (h : 0 < v.toRat) : 0 < v.num := by
  by_contra neg
  exact absurd h (not_lt.mpr (div_nonpos_of_nonpos_of_nonneg (by exact_mod_cast not_lt.mp neg) (by positivity)))

/-- What is at most half the least subnormal rounds to zero. -/
theorem mag16_of_tiny {v : Fraction} (hn : 0 < v.num) (hd : 0 < v.den) (h : v.toRat ≤ 2 ^ (-25 : ℤ)) : mag16 v = 0 := by
  have b : InBinade 0 v.toRat := ⟨.inl rfl, h.trans_lt (by norm_num)⟩
  have zero : gridSignificand 0 v = 0 := by
    rw [gridSignificand, roundTE_eq_zero_iff (Fraction.divPow2_num_nonneg hn.le _) (Fraction.divPow2_den_pos hd _),
      Fraction.divPow2_toRat, div_le_iff₀ (by positivity)]
    exact h.trans (by norm_num)
  rw [mag16_of_inBinade hn hd b (by norm_num), zero]

/-- `mag16` of a significand `M` of `w + 1` bits at the exponent `e`, by a shift and `rte`. -/
theorem mag16_of_significand {w M : ℕ} {e : ℤ} {v : Fraction} (hn : 0 < v.num) (hd : 0 < v.den) (hw : 10 ≤ w) (lo : 2 ^ w ≤ M)
    (hi : M < 2 ^ (w + 1)) (val : v.toRat = M * 2 ^ (e - w)) (small : e < 16) :
    mag16 v = (max e (-14) + 14).toNat * 1024 + rte M (max (w - 10 : ℤ) (w - 24 - e)).toNat := by
  obtain ⟨lo', hi'⟩ := significand_binade e lo hi
  rw [← val] at lo' hi'
  obtain ⟨j, hj⟩ : ∃ j : ℕ, (j : ℤ) = max e (-14) + 14 := ⟨_, Int.toNat_of_nonneg (by omega)⟩
  obtain ⟨sh, hsh⟩ : ∃ sh : ℕ, (sh : ℤ) = max (w - 10 : ℤ) (w - 24 - e) := ⟨_, Int.toNat_of_nonneg (by omega)⟩
  have b : InBinade j v.toRat := by
    refine ⟨?_, hi'.trans_le (zpow_le_zpow_right₀ one_le_two (by omega))⟩
    rcases le_or_gt e (-14) with h | h
    · exact .inl (by omega)
    · exact .inr ((zpow_le_zpow_right₀ one_le_two (by omega)).trans lo')
  have round : gridSignificand j v = rte M sh := by
    have den_pos : 0 < (⟨M, 2 ^ sh⟩ : Fraction).den := Nat.two_pow_pos sh
    rw [← roundTE_den_two_pow]
    refine roundTE_congr (Fraction.divPow2_den_pos hd _) den_pos ?_
    rw [Fraction.divPow2_toRat, val, mul_div_assoc, ← zpow_sub₀ two_ne_zero, Fraction.toRat, div_eq_mul_inv, Nat.cast_pow,
      Nat.cast_ofNat, ← zpow_natCast, ← zpow_neg, show e - w - (j - 24) = -(sh : ℤ) by omega]
    rfl
  rw [mag16_of_inBinade hn hd b (by omega), round, ← hj, ← hsh, Int.toNat_natCast, Int.toNat_natCast]

/-- R84 and R85 at once: the exponent is cut off at binade 0, and from `2^16` on the answer is 0x7C00. -/
theorem mag16_of_normalized {w bias E F : ℕ} {c d : ℤ} {v : Fraction} (hd : 0 < v.den) (hw : 10 ≤ w) (hE : E ≠ 0) (hF : F < 2 ^ w)
    (hc : c = w - 10) (hb : d = w - 24) (val : v.toRat = fieldsMagnitude w bias E F) :
    mag16 v = if 16 ≤ (E - bias : ℤ) then 0x7C00
      else (max (E - bias : ℤ) (-14) + 14).toNat * 1024 + rte (2 ^ w + F) (max c (d - (E - bias))).toNat := by
  subst hc hb
  obtain ⟨lo, -⟩ := fieldsMagnitude_binade bias hE hF
  rw [← val] at lo
  have hn := Fraction.num_pos (lo.trans_lt' (by positivity))
  split_ifs with big
  · exact mag16_of_ge hn.le hd (le_trans (by norm_num) ((zpow_le_zpow_right₀ one_le_two big).trans lo))
  · refine mag16_of_significand hn hd hw (Nat.le_add_right _ _) (by rw [pow_succ]; omega) ?_ (not_le.mp big)
    rw [val, fieldsMagnitude, if_neg hE]
    push_cast
    rfl

/-- A subnormal of the wider formats is too small for binary16. -/
theorem mag16_of_subnormal {w bias F : ℕ} {v : Fraction} (hd : 0 < v.den) (hb : 26 ≤ bias) (h0 : F ≠ 0) (hF : F < 2 ^ w)
    (val : v.toRat = fieldsMagnitude w bias 0 F) : mag16 v = 0 := by
  have pos : 0 < v.toRat := by
    rw [val]
    exact lt_of_le_of_ne (fieldsMagnitude_nonneg ..) fun eq => h0 ((fieldsMagnitude_eq_zero_iff ..).mp eq.symm).2
  refine mag16_of_tiny (Fraction.num_pos pos) hd (val ▸ (fieldsMagnitude_subnormal_lt bias hF).le.trans ?_)
  exact zpow_le_zpow_right₀ one_le_two (by omega)

/-- R84 and R85 as one formula over the fields of a nonzero finite input. -/
theorem mag16_of_fields {w bias E F : ℕ} {c d : ℤ} {v : Fraction} (hd : 0 < v.den) (hw : 10 ≤ w) (hb : 26 ≤ bias)
    (h0 : ¬ (E = 0 ∧ F = 0)) (hF : F < 2 ^ w) (hc : c = w - 10) (hd' : d = w - 24) (val : v.toRat = fieldsMagnitude w bias E F) :
    mag16 v = if E = 0 then 0 else if 16 ≤ (E - bias : ℤ) then 0x7C00
      else (max (E - bias : ℤ) (-14) + 14).toNat * 1024 + rte (2 ^ w + F) (max c (d - (E - bias))).toNat := by
  split_ifs with hE
  · subst hE
    exact mag16_of_subnormal hd hb (fun eq => h0 ⟨rfl, eq⟩) hF val
  all_goals simp only [mag16_of_normalized hd hw hE hF hc hd' val, *, if_true, if_false]

/-- Settles O31: both bit-level magnitudes are that formula, at the value of their fields. -/
theorem bitLevelFormsAgree : Obligations.BitLevelFormsAgree := by
  refine ⟨fun a _ nonzero => ?_, fun b _ nonzero => ?_⟩
  · rw [category64, Ne, categoryOf_zero_iff_toNat] at nonzero
    have val : (val64 a).abs.toRat = fieldsMagnitude 52 1023 (exp64 a).toNat (frac64 a).toNat := by
      rw [Fraction.abs_toRat, abs_val64]
    exact (mag16_of_fields (v := (val64 a).abs) (bias := 1023) (c := 42) (d := 28) (val64_den_pos a) (by norm_num) (by norm_num)
      nonzero (frac64 a).isLt (by norm_num) (by norm_num) val).symm
  · rw [category32, Ne, categoryOf_zero_iff_toNat] at nonzero
    have val : (val32 b).abs.toRat = fieldsMagnitude 23 127 (exp32 b).toNat (frac32 b).toNat := by
      rw [Fraction.abs_toRat, abs_val32]
    exact (mag16_of_fields (v := (val32 b).abs) (bias := 127) (c := 13) (d := -1) (val32_den_pos b) (by norm_num) (by norm_num)
      nonzero (frac32 b).isLt (by norm_num) (by norm_num) val).symm

end Sys2Proof.Machine
end

section
/-!
PROOFS. The rounding of the encoder as a function of the exact magnitude, zero included (40_encoder.md R80, R81): nearest, increasing,
and exact on the values of binary16. `roundHalf` is `mag16` made independent of the fraction that spells the magnitude.
-/

namespace Sys2Proof.Machine

/-- The magnitude pattern of the exact magnitude `x`. -/
def roundHalf (x : ℚ) : ℕ := if x = 0 then 0 else mag16 ⟨x.num, x.den⟩

/-- The least fraction of a rational stands for it. -/
theorem toRat_num_den (x : ℚ) : (⟨x.num, x.den⟩ : Fraction).toRat = x := Rat.num_div_den x

theorem roundHalf_zero : roundHalf 0 = 0 := if_pos rfl

theorem roundHalf_of_pos {x : ℚ} (h : 0 < x) : roundHalf x = mag16 ⟨x.num, x.den⟩ := if_neg h.ne'

/-- Every fraction of a positive number has the same `mag16`. -/
theorem mag16_eq_roundHalf {v : Fraction} (hd : 0 < v.den) (h : 0 < v.toRat) : mag16 v = roundHalf v.toRat := by
  rw [roundHalf_of_pos h, mag16_eq, mag16_eq,
    rne_congr 11 (-14) 15 (Fraction.num_pos h) (Rat.num_pos.mpr h) hd v.toRat.den_pos (toRat_num_den _).symm]

theorem roundHalf_le {x : ℚ} (h : 0 ≤ x) : roundHalf x ≤ 0x7C00 := by
  rcases h.eq_or_lt with rfl | pos
  · rw [roundHalf_zero]; norm_num
  · rw [roundHalf_of_pos pos]
    exact mag16_le (Rat.num_pos.mpr pos) x.den_pos

theorem roundHalf_nearest {x : ℚ} (h : 0 ≤ x) (le : x ≤ 65536) (m : ℕ) :
    |halfValue (roundHalf x) - x| ≤ |halfValue m - x| := by
  rcases h.eq_or_lt with rfl | pos
  · simp [roundHalf_zero, halfValue_zero]
  · rw [roundHalf_of_pos pos]
    simpa only [toRat_num_den] using
      (mag16_nearest (v := ⟨x.num, x.den⟩) (Rat.num_pos.mpr pos) x.den_pos (by rwa [toRat_num_den]) m).1

/-- Half the spacing of the binade of `2^k`, or of a lower one, bounds the error. -/
theorem roundHalf_error {x : ℚ} {k : ℤ} (h : 0 ≤ x) (lt : x < 65536) (hk : -14 ≤ k) (below : x < 2 ^ (k + 1)) :
    |halfValue (roundHalf x) - x| ≤ 2 ^ (k - 11) := by
  rcases h.eq_or_lt with rfl | pos
  · rw [roundHalf_zero, halfValue_zero, sub_zero, abs_zero]
    positivity
  obtain ⟨j, hj, b⟩ := exists_inBinade_of_lt lt
  have j_le : (j : ℤ) - 25 ≤ k - 11 := by
    rcases b.1 with rfl | lo
    · omega
    · have := (zpow_lt_zpow_iff_right₀ one_lt_two).mp (lo.trans_lt below)
      omega
  rw [roundHalf_of_pos pos]
  have error := mag16_error (v := ⟨x.num, x.den⟩) (Rat.num_pos.mpr pos) x.den_pos (by rwa [toRat_num_den]) hj
  rw [toRat_num_den] at error
  exact error.trans (zpow_le_zpow_right₀ one_le_two j_le)

/-- A value of binary16 is rounded to its own pattern. -/
theorem roundHalf_halfValue {m : ℕ} (h : m ≤ 0x7C00) : roundHalf (halfValue m) = m := by
  have le : halfValue m ≤ 65536 := halfValue_7C00 ▸ halfValue_strictMono.monotone h
  have near := roundHalf_nearest (halfValue_nonneg m) le m
  rw [sub_self, abs_zero, abs_nonpos_iff, sub_eq_zero] at near
  exact halfValue_strictMono.injective near

theorem roundHalf_of_ge {x : ℚ} (h : 65520 ≤ x) : roundHalf x = 0x7C00 := by
  have pos : 0 < x := h.trans_lt' (by norm_num)
  rw [roundHalf_of_pos pos]
  exact mag16_of_ge (Rat.num_pos.mpr pos).le x.den_pos (by rwa [toRat_num_den])

/-- Below the threshold 0x7BFF is nearer than 0x7C00. -/
theorem roundHalf_eq_7C00_iff {x : ℚ} (h : 0 ≤ x) : roundHalf x = 0x7C00 ↔ 65520 ≤ x := by
  refine ⟨fun eq => ?_, roundHalf_of_ge⟩
  by_contra lt
  have near := roundHalf_nearest h (by linarith) 0x7BFF
  rw [eq, halfValue_7C00, halfValue_7BFF, abs_of_pos (by linarith)] at near
  have : |65504 - x| < 65536 - x := abs_lt.mpr ⟨by linarith, by linarith⟩
  linarith

theorem roundHalf_lt {x : ℚ} (h : 0 ≤ x) (lt : x < 65520) : roundHalf x < 0x7C00 :=
  lt_of_le_of_ne (roundHalf_le h) (mt (roundHalf_eq_7C00_iff h).mp lt.not_ge)

theorem midpoint_le_of_nearer {a b x : ℚ} (lt : a < b) (h : |b - x| ≤ |a - x|) : (a + b) / 2 ≤ x := by
  by_contra below
  have : |a - x| < b - x := abs_lt.mpr ⟨by linarith, by linarith⟩
  linarith [le_abs_self (b - x)]

theorem le_midpoint_of_nearer {a b x : ℚ} (lt : a < b) (h : |a - x| ≤ |b - x|) : x ≤ (a + b) / 2 := by
  by_contra above
  have : |b - x| < x - a := abs_lt.mpr ⟨by linarith, by linarith⟩
  linarith [neg_abs_le (a - x)]

/-- Of two values in order, the greater is not rounded to a lesser pattern: each would be nearer to the other's. -/
theorem roundHalf_mono {x y : ℚ} (h : 0 ≤ x) (le : x ≤ y) : roundHalf x ≤ roundHalf y := by
  rcases le_or_gt 65520 y with big | small
  · rw [roundHalf_of_ge big]
    exact roundHalf_le h
  by_contra gt
  have apart := halfValue_strictMono (not_le.mp gt)
  have near_x := roundHalf_nearest h (by linarith) (roundHalf y)
  have near_y := roundHalf_nearest (h.trans le) (by linarith) (roundHalf x)
  have x_ge := midpoint_le_of_nearer apart near_x
  have y_le := le_midpoint_of_nearer apart near_y
  exact gt (by rw [show x = y by linarith])

theorem roundHalf_eq_7BFF {x : ℚ} (gt : 65504 < x) (lt : x < 65520) : roundHalf x = 0x7BFF := by
  have ge := roundHalf_mono (by norm_num) gt.le
  rw [← halfValue_7BFF, roundHalf_halfValue (by norm_num)] at ge
  have := roundHalf_lt (by linarith) lt
  omega

/-- Binade 0 begins at zero, so its grid is the rounding. -/
theorem roundHalf_of_underflow {v : Fraction} (hd : 0 < v.den) (pos : 0 < v.toRat) (small : v.toRat < 1 / 2 ^ 14) :
    roundHalf v.toRat = roundTE (v.divPow2 (-24)) ∧ (roundHalf v.toRat = 0 ↔ v.toRat ≤ 1 / 2 ^ 25) := by
  have hn := Fraction.num_pos pos
  have b : InBinade 0 v.toRat := ⟨.inl rfl, small.trans (by norm_num)⟩
  have round : roundHalf v.toRat = roundTE (v.divPow2 (-24)) := by
    rw [← mag16_eq_roundHalf hd pos, mag16_of_inBinade hn hd b (by norm_num), Nat.zero_mul, Nat.zero_add]
    rfl
  refine ⟨round, ?_⟩
  rw [round, roundTE_eq_zero_iff (Fraction.divPow2_num_nonneg hn.le _) (Fraction.divPow2_den_pos hd _), Fraction.divPow2_toRat,
    div_le_iff₀ (by positivity)]
  norm_num

end Sys2Proof.Machine
end

section
/-!
PROOFS. The pattern that ENC64 and ENC32 drive (40_encoder.md): a sign with a rounded magnitude (R80), and the chain of cases over the
fields that R82 and R83 write.
-/

namespace Sys2Proof.Machine

/-! ## The encoder's pattern -/

/-- R88, R90: the sign of the input stands above whatever magnitude the category gives. -/
theorem sign16_encodeBy (c : Category) (S : BitVec 1) (P : BitVec 9) (v : Fraction) : sign16 (encodeBy c S P v) = S := by
  cases c with
  | nan => exact extract_top S 0b111111#6 P
  | infinity => exact sign16_magnitude S _
  | zero => exact sign16_magnitude S _
  | denormalized => exact sign16_magnitude S _
  | normalized => exact sign16_magnitude S _

/-- R80: a finite input is rounded, and keeps its sign. -/
theorem encodeBy_of_isFinite {c : Category} (S : BitVec 1) (P : BitVec 9) {v : Fraction} (fin : c.isFinite)
    (hd : 0 < v.den) (h : 0 ≤ v.toRat) (zero : c = .zero ↔ v.toRat = 0) :
    encodeBy c S P v = S ++ BitVec.ofNat 15 (roundHalf v.toRat) := by
  have nonzero (ne : c ≠ .zero) : mag16 v = roundHalf v.toRat :=
    mag16_eq_roundHalf hd (h.lt_of_ne fun eq => ne (zero.mpr eq.symm))
  cases c with
  | zero => rw [zero.mp rfl, roundHalf_zero]; rfl
  | denormalized => rw [← nonzero (by decide)]; rfl
  | normalized => rw [← nonzero (by decide)]; rfl
  | infinity => cases fin
  | nan => cases fin

theorem toNat_ofNat_roundHalf {x : ℚ} (h : 0 ≤ x) : (BitVec.ofNat 15 (roundHalf x)).toNat = roundHalf x := by
  rw [BitVec.toNat_ofNat, Nat.mod_eq_of_lt ((roundHalf_le h).trans_lt (by norm_num))]

theorem categoryOf_zero_iff_fieldsMagnitude {n m : ℕ} (w bias : ℕ) (e : BitVec n) (f : BitVec m) :
    categoryOf e f = .zero ↔ fieldsMagnitude w bias e.toNat f.toNat = 0 := by
  rw [categoryOf_zero_iff_toNat, fieldsMagnitude_eq_zero_iff]

theorem enc64_of_isFinite {a : Wide} (fin : (category64 a).isFinite) :
    enc64 a = sign64 a ++ BitVec.ofNat 15 (roundHalf |(val64 a).toRat|) := by
  rw [← Fraction.abs_toRat]
  refine encodeBy_of_isFinite _ _ fin (val64_den_pos a) (Fraction.toRat_nonneg (Fraction.abs_num_nonneg _)) ?_
  rw [Fraction.abs_toRat, abs_val64]
  exact categoryOf_zero_iff_fieldsMagnitude ..

theorem enc32_of_isFinite {b : Single} (fin : (category32 b).isFinite) :
    enc32 b = sign32 b ++ BitVec.ofNat 15 (roundHalf |(val32 b).toRat|) := by
  rw [← Fraction.abs_toRat]
  refine encodeBy_of_isFinite _ _ fin (val32_den_pos b) (Fraction.toRat_nonneg (Fraction.abs_num_nonneg _)) ?_
  rw [Fraction.abs_toRat, abs_val32]
  exact categoryOf_zero_iff_fieldsMagnitude ..

/-! ## The pattern by fields -/

theorem encodeBy_nan_toNat (S : BitVec 1) (P : BitVec 9) (v : Fraction) :
    (encodeBy .nan S P v).toNat = S.toNat <<< 15 ||| 0x7E00 ||| P.toNat := by
  show (S ++ 0b111111#6 ++ P).toNat = _
  rw [BitVec.toNat_append, BitVec.toNat_append, Nat.shiftLeft_or_distrib, ← Nat.shiftLeft_add]
  rfl

/-- R82 and R83 as one chain of cases over the fields; `u` is the exact magnitude as the rule spells it. -/
theorem encodeBy_toNat {n w bias top : ℕ} (e : BitVec n) (f : BitVec w) (hn : 0 < n) (htop : top = 2 ^ n - 1) (S : BitVec 1)
    (P : BitVec 9) {v u : Fraction} (hv : 0 < v.den) (hu : 0 < u.den) (v_eq : v.toRat = fieldsMagnitude w bias e.toNat f.toNat)
    (u_eq : u.toRat = fieldsMagnitude w bias e.toNat f.toNat) :
    (encodeBy (categoryOf e f) S P v).toNat =
      if e.toNat = top ∧ f.toNat ≠ 0 then S.toNat <<< 15 ||| 0x7E00 ||| P.toNat
      else if e.toNat = top then S.toNat <<< 15 ||| 0x7C00
      else if e.toNat = 0 ∧ f.toNat = 0 then S.toNat <<< 15
      else S.toNat <<< 15 ||| mag16 u := by
  have nan := categoryOf_nan e f hn
  have inf := categoryOf_infinity e f hn
  have top_pos : top ≠ 0 := by have := Nat.one_lt_two_pow hn.ne'; omega
  have all : e = BitVec.allOnes n ↔ e.toNat = top := by rw [← BitVec.toNat_inj, BitVec.toNat_allOnes, htop]
  have zero := categoryOf_zero_iff_toNat e f
  rw [all, Ne, eq_zero_iff_toNat] at nan
  rw [all, eq_zero_iff_toNat] at inf
  by_cases e_top : e.toNat = top
  · by_cases f0 : f.toNat = 0
    · rw [if_neg (by simp [f0]), if_pos e_top, inf.mpr ⟨e_top, f0⟩]
      exact BitVec.toNat_append S 0x7C00#15
    · rw [if_pos ⟨e_top, f0⟩, nan.mpr ⟨e_top, f0⟩, encodeBy_nan_toNat]
  rw [if_neg (by simp [e_top]), if_neg e_top]
  by_cases h0 : e.toNat = 0 ∧ f.toNat = 0
  · rw [if_pos h0, zero.mpr h0]
    exact (BitVec.toNat_append S 0#15).trans (Nat.or_zero _)
  · have pos : 0 < u.toRat := by
      rw [u_eq]
      exact (fieldsMagnitude_nonneg ..).lt_of_ne fun eq => h0 ((fieldsMagnitude_eq_zero_iff ..).mp eq.symm)
    have fin : (categoryOf e f).isFinite := (isFinite_categoryOf_iff e f hn).mpr (mt all.mp e_top)
    have nonneg : 0 ≤ v.toRat := v_eq ▸ fieldsMagnitude_nonneg ..
    rw [if_neg h0, encodeBy_of_isFinite S P fin hv nonneg (by rw [zero, v_eq, fieldsMagnitude_eq_zero_iff]),
      BitVec.toNat_append, toNat_ofNat_roundHalf nonneg, v_eq, ← u_eq, mag16_eq_roundHalf hu pos]

section Rule
variable (w bias E F : ℕ) {c d : ℤ} (hc : c = 1 - bias - w) (hd : d = bias + w)

/-- The exact magnitude as R82 and R83 spell it. -/
def ruleMagnitude (c d : ℤ) : Fraction := if E = 0 then Fraction.scaled 0 F c else Fraction.scaled 0 (2 ^ w + F) (E - d)

theorem ruleMagnitude_den_pos (c d : ℤ) : 0 < (ruleMagnitude w E F c d).den := by
  unfold ruleMagnitude
  split <;> exact Fraction.scaled_den_pos ..

include hc hd in
theorem ruleMagnitude_toRat : (ruleMagnitude w E F c d).toRat = fieldsMagnitude w bias E F := by
  have sign : ¬ (0 : BitVec 1) = 1#1 := by decide
  subst hc hd
  unfold ruleMagnitude fieldsMagnitude
  split
  · rw [Fraction.scaled_toRat, if_neg sign, one_mul]
  · rw [Fraction.scaled_toRat, if_neg sign, one_mul, sub_sub]
    push_cast
    rfl

end Rule

/-- Settles O29: the chain of R82 is `encodeBy_toNat` at the fields of `in.a`. -/
theorem enc64DrivesItsRule : Obligations.Enc64DrivesItsRule := by
  intro p s code
  obtain ⟨decoded, -⟩ := decodeByOperationCode p
  refine ⟨decoded code, enc64 p.a, exec_eq _ s, ?_⟩
  have chain := encodeBy_toNat (top := 2047) (bias := 1023) (exp64 p.a) (frac64 p.a) (by norm_num) (by norm_num) (sign64 p.a)
    (p.a.extractLsb' 42 9) (v := (val64 p.a).abs) (val64_den_pos p.a) (ruleMagnitude_den_pos ..)
    (by rw [Fraction.abs_toRat, abs_val64]) (ruleMagnitude_toRat (c := -1074) (d := 1075) _ _ _ _ (by norm_num) (by norm_num))
  rw [payload64_toNat, sign64_toNat, exp64_toNat, frac64_toNat] at chain
  exact chain

/-- Settles O30: the chain of R83 is `encodeBy_toNat` at the fields of `in.a[31:0]`. -/
theorem enc32DrivesItsRule : Obligations.Enc32DrivesItsRule := by
  intro p s code
  obtain ⟨-, decoded, -⟩ := decodeByOperationCode p
  refine ⟨decoded code, enc32 (p.a.extractLsb' 0 32), exec_eq _ s, ?_⟩
  have low : (p.a.extractLsb' 0 32).toNat = p.a.toNat % 2 ^ 32 := by
    simp only [BitVec.extractLsb'_toNat, Nat.shiftRight_zero]
  rw [← low]
  generalize p.a.extractLsb' 0 32 = b
  have chain := encodeBy_toNat (top := 255) (bias := 127) (exp32 b) (frac32 b) (by norm_num) (by norm_num) (sign32 b)
    (b.extractLsb' 13 9) (v := (val32 b).abs) (val32_den_pos b) (ruleMagnitude_den_pos ..)
    (by rw [Fraction.abs_toRat, abs_val32]) (ruleMagnitude_toRat (c := -149) (d := 150) _ _ _ _ (by norm_num) (by norm_num))
  rw [payload32_toNat, sign32_toNat, exp32_toNat, frac32_toNat] at chain
  exact chain

end Sys2Proof.Machine
end

section
/-!
PROOFS. Sign, overflow and underflow of the encoder (40_encoder.md R86 to R88), each said once of the rounded magnitude and read at
both widths.
-/

namespace Sys2Proof.Machine

/-- Settles O34: `encodeBy` keeps the sign, whatever the category. -/
theorem encoderKeepsTheSign : Obligations.EncoderKeepsTheSign := by
  intro a b s
  refine ⟨_, _, exec_eq _ s, exec_eq _ s, ?_, ?_⟩
  · rw [← getLsbD_sign16, ← getLsbD_sign64]
    exact congrArg (BitVec.getLsbD · 0) (sign16_encodeBy ..)
  · rw [← getLsbD_sign16, ← getLsbD_sign32]
    exact congrArg (BitVec.getLsbD · 0) (sign16_encodeBy ..)

/-- A rounded magnitude as bits is the pattern that it is as a number. -/
theorem ofNat_roundHalf_eq_iff {x : ℚ} (h : 0 ≤ x) (M : BitVec 15) :
    BitVec.ofNat 15 (roundHalf x) = M ↔ roundHalf x = M.toNat := by
  rw [← BitVec.toNat_inj, toNat_ofNat_roundHalf h]

/-- R86 on the magnitude bits. -/
theorem ofNat_roundHalf_overflow {x : ℚ} (h : 0 ≤ x) :
    (BitVec.ofNat 15 (roundHalf x) = 0x7C00 ↔ 65520 ≤ x) ∧
    (65504 < x ∧ x < 65520 → BitVec.ofNat 15 (roundHalf x) = 0x7BFF) := by
  rw [ofNat_roundHalf_eq_iff h, ofNat_roundHalf_eq_iff h]
  exact ⟨roundHalf_eq_7C00_iff h, fun ⟨gt, lt⟩ => roundHalf_eq_7BFF gt lt⟩

/-- Settles O32: a finite input's magnitude bits are its rounded magnitude. -/
theorem encoderOverflowThreshold : Obligations.EncoderOverflowThreshold := by
  refine ⟨fun a s fin => ⟨_, exec_eq _ s, ?_⟩, fun b s fin => ⟨_, exec_eq _ s, ?_⟩⟩
  · simp only [instrOutputs, enc64_of_isFinite fin, magnitude16_append]
    exact ofNat_roundHalf_overflow (abs_nonneg _)
  · simp only [instrOutputs, enc32_of_isFinite fin, magnitude16_append]
    exact ofNat_roundHalf_overflow (abs_nonneg _)

/-- An exponent field with all bits set stands for `2^emax` or more, so a small magnitude is finite. -/
theorem isFinite_of_fieldsMagnitude_lt {n w bias : ℕ} {e : BitVec n} {f : BitVec w} (hn : 0 < n) (hb : bias + 1 < 2 ^ n)
    (lt : fieldsMagnitude w bias e.toNat f.toNat < 1) : (categoryOf e f).isFinite := by
  rw [isFinite_categoryOf_iff e f hn]
  rintro rfl
  rw [BitVec.toNat_allOnes] at lt
  have ge := (fieldsMagnitude_binade bias (show 2 ^ n - 1 ≠ 0 by omega) f.isLt).1
  have one : (1 : ℚ) ≤ 2 ^ (((2 ^ n - 1 : ℕ) : ℤ) - bias) := one_le_zpow₀ one_le_two (by omega)
  linarith

theorem ofNat_roundHalf_underflow {v : Fraction} (hd : 0 < v.den) (pos : 0 < |v.toRat|) (small : |v.toRat| < 1 / 2 ^ 14) :
    (BitVec.ofNat 15 (roundHalf |v.toRat|)).toNat = roundTE (v.abs.divPow2 (-24)) ∧
    (BitVec.ofNat 15 (roundHalf |v.toRat|) = 0 ↔ |v.toRat| ≤ 1 / 2 ^ 25) := by
  rw [toNat_ofNat_roundHalf (abs_nonneg _), ofNat_roundHalf_eq_iff (abs_nonneg _), ← Fraction.abs_toRat]
  rw [← Fraction.abs_toRat] at pos small
  exact roundHalf_of_underflow (v := v.abs) hd pos small

/-- Settles O33: so small an input is finite, and its binade is the first. -/
theorem encoderUnderflow : Obligations.EncoderUnderflow := by
  refine ⟨fun a s pos small => ⟨_, exec_eq _ s, ?_⟩, fun b s pos small => ⟨_, exec_eq _ s, ?_⟩⟩
  · have fin : (category64 a).isFinite := by
      refine isFinite_of_fieldsMagnitude_lt (bias := 1023) (by norm_num) (by norm_num) ?_
      rw [← abs_val64]
      exact small.trans (by norm_num)
    simp only [instrOutputs, enc64_of_isFinite fin, magnitude16_append]
    exact ofNat_roundHalf_underflow (val64_den_pos a) pos small
  · have fin : (category32 b).isFinite := by
      refine isFinite_of_fieldsMagnitude_lt (bias := 127) (by norm_num) (by norm_num) ?_
      rw [← abs_val32]
      exact small.trans (by norm_num)
    simp only [instrOutputs, enc32_of_isFinite fin, magnitude16_append]
    exact ofNat_roundHalf_underflow (val32_den_pos b) pos small

end Sys2Proof.Machine
end

section
/-!
PROOFS. The encoder against exact values: its error below the threshold (40_encoder.md R93) and its order (R94).
-/

namespace Sys2Proof.Machine

/-- The number a finite input is rounded to, the infinities counting as ±65536: an odd function of the exact value. -/
def roundedValue (x : ℚ) : ℚ := if x < 0 then -halfValue (roundHalf |x|) else halfValue (roundHalf |x|)

theorem roundedValue_neg (x : ℚ) : roundedValue (-x) = -roundedValue x := by
  unfold roundedValue
  rw [abs_neg]
  rcases lt_trichotomy x 0 with neg | rfl | pos
  · rw [if_neg (by linarith), if_pos neg, neg_neg]
  · simp [roundHalf_zero, halfValue_zero]
  · rw [if_pos (by linarith), if_neg (by linarith)]

theorem roundedValue_of_nonneg {x : ℚ} (h : 0 ≤ x) : roundedValue x = halfValue (roundHalf x) := by
  rw [roundedValue, if_neg h.not_gt, abs_of_nonneg h]

theorem roundedValue_monotone : Monotone roundedValue := by
  refine monotone_of_odd_of_monotoneOn_nonneg roundedValue_neg fun x hx y hy le => ?_
  rw [roundedValue_of_nonneg hx, roundedValue_of_nonneg hy]
  exact halfValue_strictMono.monotone (roundHalf_mono hx le)

/-- The sign bit of the input and of the value agree, but at zero, where the rounding is zero for either. -/
theorem roundedValue_signed (S : BitVec 1) {x : ℚ} (h : 0 ≤ x) :
    roundedValue ((if S = 1#1 then -1 else 1) * x) = (if S = 1#1 then -1 else 1) * halfValue (roundHalf x) := by
  split
  · rw [neg_one_mul, neg_one_mul, roundedValue_neg, roundedValue_of_nonneg h]
  · rw [one_mul, one_mul, roundedValue_of_nonneg h]

theorem val64_eq_sign_mul_abs (a : Wide) : (val64 a).toRat = (if sign64 a = 1#1 then -1 else 1) * |(val64 a).toRat| := by
  rw [abs_val64, val64_toRat]

theorem val16_enc64 {a : Wide} (fin : (category64 a).isFinite) : (val16 (enc64 a)).toRat = roundedValue (val64 a).toRat := by
  rw [enc64_of_isFinite fin, val16_magnitude, toNat_ofNat_roundHalf (abs_nonneg _), val64_eq_sign_mul_abs a,
    roundedValue_signed _ (abs_nonneg _), ← val64_eq_sign_mul_abs]

theorem isFinite_enc64 {a : Wide} (fin : (category64 a).isFinite) (lt : |(val64 a).toRat| < 65520) :
    (category16 (enc64 a)).isFinite := by
  rw [enc64_of_isFinite fin, isFinite_magnitude16_iff, toNat_ofNat_roundHalf (abs_nonneg _)]
  exact roundHalf_lt (abs_nonneg _) lt

/-! ## Error -/

theorem abs_roundedValue_sub (x : ℚ) : |roundedValue x - x| = |halfValue (roundHalf |x|) - (|x|)| := by
  unfold roundedValue
  split
  next neg => rw [abs_of_neg neg, abs_sub_comm, sub_neg_eq_add, sub_neg_eq_add, add_comm]
  next pos => rw [abs_of_nonneg (not_lt.mp pos)]

/-- A finite binary16 pattern has the number of a magnitude pattern below 0x7C00. -/
theorem exists_abs_val16_eq {h : Half} (fin : (category16 h).isFinite) : ∃ m < 0x7C00, |(val16 h).toRat| = halfValue m := by
  rw [← sign16_append_magnitude h] at fin ⊢
  refine ⟨_, (isFinite_magnitude16_iff _ _).mp fin, ?_⟩
  rw [val16_magnitude, abs_signed _ (halfValue_nonneg _)]

/-- A value of binary16 is its own rounding. -/
theorem roundedValue_val16 {h : Half} (fin : (category16 h).isFinite) : roundedValue (val16 h).toRat = (val16 h).toRat := by
  obtain ⟨m, lt, e⟩ := exists_abs_val16_eq fin
  rw [← sub_eq_zero, ← abs_eq_zero, abs_roundedValue_sub, e, roundHalf_halfValue lt.le, sub_self, abs_zero]

/-- Settles O37: the error is that of the rounded magnitude, and the values of binary16 are the fixed points of the rounding. -/
theorem nearRoundTrip : Obligations.NearRoundTrip := by
  intro a s fin lt
  refine ⟨_, exec_eq _ s, ?_⟩
  simp only [instrOutputs, val16_enc64 fin]
  refine ⟨isFinite_enc64 fin lt, fun k hk below => ?_, fun exact16 => ?_, fun ⟨h, fin16, e⟩ => ?_⟩
  · rw [abs_roundedValue_sub]
    exact roundHalf_error (abs_nonneg _) (lt.trans (by norm_num)) hk below
  · exact ⟨enc64 a, isFinite_enc64 fin lt, (val16_enc64 fin).trans exact16⟩
  · rw [← e]
    exact roundedValue_val16 fin16

/-! ## Order -/

theorem enc64_of_ge {a : Wide} (fin : (category64 a).isFinite) (ge : 65520 ≤ (val64 a).toRat) : enc64 a = 0x7C00 := by
  have sign : sign64 a = 0#1 := (BitVec.eq_zero_or_eq_one _).resolve_right fun one => by
    have := val64_eq_sign_mul_abs a
    rw [if_pos one] at this
    linarith [abs_nonneg (val64 a).toRat]
  rw [enc64_of_isFinite fin, sign, roundHalf_of_ge (ge.trans (le_abs_self _))]
  rfl

theorem enc64_of_le {a : Wide} (fin : (category64 a).isFinite) (le : (val64 a).toRat ≤ -65520) : enc64 a = 0xFC00 := by
  have sign : sign64 a = 1#1 := (BitVec.eq_zero_or_eq_one _).resolve_left fun zero => by
    have := val64_eq_sign_mul_abs a
    rw [zero, if_neg (by decide)] at this
    linarith [abs_nonneg (val64 a).toRat]
  rw [enc64_of_isFinite fin, sign, roundHalf_of_ge ((le_neg_of_le_neg le).trans (neg_le_abs _))]
  rfl

/-- Settles O38: the rounding is monotone, and an input beyond the threshold gives the infinity of its sign. -/
theorem encoderIsMonotone : Obligations.EncoderIsMonotone := by
  intro a b s fin_a fin_b le
  refine ⟨_, _, exec_eq _ s, exec_eq _ s, ?_⟩
  simp only [instrOutputs]
  by_cases low : (val64 a).toRat ≤ -65520
  · exact .inl (enc64_of_le fin_a low)
  by_cases high : 65520 ≤ (val64 b).toRat
  · exact .inr (.inl (enc64_of_ge fin_b high))
  push Not at low high
  have lt_a := abs_lt.mpr ⟨low, le.trans_lt high⟩
  have lt_b := abs_lt.mpr ⟨low.trans_le le, high⟩
  refine .inr (.inr ⟨isFinite_enc64 fin_a lt_a, isFinite_enc64 fin_b lt_b, ?_⟩)
  rw [val16_enc64 fin_a, val16_enc64 fin_b]
  exact roundedValue_monotone le

end Sys2Proof.Machine
end

section
/-!
PROOFS. The exact widenings, DEC64 and DEC32 of a binary16 pattern and `widen` of a binary32 pattern (41_decoder.md R100, R101;
40_encoder.md R91): on finite patterns the three are one widening of fields, which keeps the sign and the number.
-/

namespace Sys2Proof.Machine

/-! ## Widening of fields -/

theorem fieldsMagnitude_of_shift {w bias E F : ℕ} (k d : ℕ) (hE : E ≠ 0) :
    fieldsMagnitude (w + k) (bias + d) (E + d) (F * 2 ^ k) = fieldsMagnitude w bias E F := by
  have e : (((E + d : ℕ) : ℤ) - (bias + d : ℕ) - (w + k : ℕ)) = (E - bias - w) - k := by push_cast; ring
  have pos : (2 : ℚ) ^ k ≠ 0 := by positivity
  rw [fieldsMagnitude, fieldsMagnitude, if_neg (by omega), if_neg hE, e, zpow_sub₀ two_ne_zero, zpow_natCast]
  push_cast
  field_simp
  ring

/-- The leading 1 of a subnormal's fraction is moved out of the fraction field. -/
theorem significand_of_log2 {F w : ℕ} (h0 : F ≠ 0) (h : F.log2 ≤ w) :
    2 ^ w + (F - 2 ^ F.log2) * 2 ^ (w - F.log2) = F * 2 ^ (w - F.log2) := by
  have le : 2 ^ F.log2 ≤ F := Nat.log2_self_le h0
  calc 2 ^ w + (F - 2 ^ F.log2) * 2 ^ (w - F.log2)
      = (2 ^ F.log2 + (F - 2 ^ F.log2)) * 2 ^ (w - F.log2) := by rw [Nat.add_mul, ← pow_add, Nat.add_sub_cancel' h]
    _ = F * 2 ^ (w - F.log2) := by rw [Nat.add_sub_cancel' le]

theorem fieldsMagnitude_of_log2 {w w' bias bias' c F : ℕ} (h0 : F ≠ 0) (h : F.log2 ≤ w') (hc : c ≠ 0)
    (hbias : c + bias + w = bias' + 1) :
    fieldsMagnitude w' bias' (F.log2 + c) ((F - 2 ^ F.log2) * 2 ^ (w' - F.log2)) = fieldsMagnitude w bias 0 F := by
  have sig := congrArg (Nat.cast : ℕ → ℚ) (significand_of_log2 h0 h)
  have e : ((w' - F.log2 : ℕ) : ℤ) + (((F.log2 + c : ℕ) : ℤ) - bias' - w') = 1 - bias - w := by omega
  rw [Nat.cast_add, Nat.cast_pow, Nat.cast_ofNat] at sig
  rw [fieldsMagnitude, fieldsMagnitude, if_neg (by omega), if_pos rfl, sig, Nat.cast_mul, Nat.cast_pow, Nat.cast_ofNat, mul_assoc,
    ← zpow_natCast, ← zpow_add₀ two_ne_zero, e]

/-- The exponent and fraction fields of the widening of a finite pattern: `k` more fraction bits, a bias greater by `d`, and a
subnormal's leading 1 at place `m` giving the exponent `m + c`. -/
def widenedFields (n' w' k c d : ℕ) (E F : ℕ) : Category → BitVec n' × BitVec w'
  | .denormalized => (BitVec.ofNat n' (F.log2 + c), BitVec.ofNat w' ((F - 2 ^ F.log2) * 2 ^ (w' - F.log2)))
  | .normalized => (BitVec.ofNat n' (E + d), BitVec.ofNat w' (F * 2 ^ k))
  | .zero | .infinity | .nan => (0, 0)

theorem fraction_of_log2_lt {F w : ℕ} (h0 : F ≠ 0) (h : F.log2 ≤ w) : (F - 2 ^ F.log2) * 2 ^ (w - F.log2) < 2 ^ w := by
  have le : 2 ^ F.log2 ≤ F := Nat.log2_self_le h0
  have lt : F - 2 ^ F.log2 < 2 ^ F.log2 := by
    have := Nat.lt_log2_self (n := F)
    rw [pow_succ] at this
    omega
  calc (F - 2 ^ F.log2) * 2 ^ (w - F.log2) < 2 ^ F.log2 * 2 ^ (w - F.log2) := Nat.mul_lt_mul_of_pos_right lt (by positivity)
    _ = 2 ^ w := by rw [← pow_add, Nat.add_sub_cancel' h]

/-- The widened fields are finite and stand for the same magnitude. -/
theorem widenedFields_spec {n w bias n' k c d : ℕ} (e : BitVec n) (f : BitVec w) (fin : (categoryOf e f).isFinite) (hc : c ≠ 0)
    (hcd : c + w = d + 1) (hn : 2 ^ n + d < 2 ^ n') {x : BitVec n' × BitVec (w + k)}
    (hx : x = widenedFields n' (w + k) k c d e.toNat f.toNat (categoryOf e f)) :
    x.1.toNat ≠ 2 ^ n' - 1 ∧
      fieldsMagnitude (w + k) (bias + d) x.1.toNat x.2.toNat = fieldsMagnitude w bias e.toNat f.toNat := by
  have he := e.isLt
  have hf := f.isLt
  have pow_pos : 0 < 2 ^ n := by positivity
  cases cat : categoryOf e f with
  | zero =>
    have top : 0 < 2 ^ n' - 1 := by omega
    rw [hx, cat, (fieldsMagnitude_eq_zero_iff ..).mpr ((categoryOf_zero_iff_toNat e f).mp cat)]
    exact ⟨(Nat.zero_mod _).trans_ne top.ne, (fieldsMagnitude_eq_zero_iff ..).mpr ⟨rfl, rfl⟩⟩
  | denormalized =>
    obtain ⟨he0, hf0⟩ := (categoryOf_denormalized_iff_toNat e f).mp cat
    have log_lt : f.toNat.log2 < w := (Nat.log2_lt hf0).mpr hf
    simp only [hx, cat, he0, widenedFields]
    rw [toNat_ofNat_of_lt (fraction_of_log2_lt hf0 (by omega)), toNat_ofNat_of_lt (by omega)]
    exact ⟨by omega, fieldsMagnitude_of_log2 hf0 (by omega) hc (by omega)⟩
  | normalized =>
    obtain ⟨he0, -⟩ := (categoryOf_normalized e f).mp cat
    have fits : f.toNat * 2 ^ k < 2 ^ (w + k) := by
      rw [pow_add]
      exact Nat.mul_lt_mul_of_pos_right hf (by positivity)
    simp only [hx, cat, widenedFields]
    rw [toNat_ofNat_of_lt fits, toNat_ofNat_of_lt (by omega)]
    exact ⟨by omega, fieldsMagnitude_of_shift k d (mt (eq_zero_iff_toNat e).mpr he0)⟩
  | infinity => rw [cat] at fin; cases fin
  | nan => rw [cat] at fin; cases fin

/-! ## The three widenings -/

theorem val64_append (S : BitVec 1) (E : BitVec 11) (F : BitVec 52) :
    (val64 (S ++ E ++ F)).toRat = (if S = 1#1 then -1 else 1) * fieldsMagnitude 52 1023 E.toNat F.toNat := by
  rw [val64_toRat, sign64_append, exp64_append, frac64_append]

theorem val32_append (S : BitVec 1) (E : BitVec 8) (F : BitVec 23) :
    (val32 (S ++ E ++ F)).toRat = (if S = 1#1 then -1 else 1) * fieldsMagnitude 23 127 E.toNat F.toNat := by
  rw [val32_toRat, sign32_append, exp32_append, frac32_append]

theorem isFinite_append64 {S : BitVec 1} {E : BitVec 11} {F : BitVec 52} (h : E.toNat ≠ 2047) :
    (category64 (S ++ E ++ F)).isFinite := by
  rw [category64, exp64_append, frac64_append, isFinite_categoryOf_iff _ _ (by decide)]
  exact fun eq => h (by rw [eq]; rfl)

theorem isFinite_append32 {S : BitVec 1} {E : BitVec 8} {F : BitVec 23} (h : E.toNat ≠ 255) :
    (category32 (S ++ E ++ F)).isFinite := by
  rw [category32, exp32_append, frac32_append, isFinite_categoryOf_iff _ _ (by decide)]
  exact fun eq => h (by rw [eq]; rfl)

theorem append_zero63 : ∀ S : BitVec 1, S ++ 0#63 = S ++ 0#11 ++ 0#52 := by decide

theorem append_zero31 : ∀ S : BitVec 1, S ++ 0#31 = S ++ 0#8 ++ 0#23 := by decide

/-- The fields of a widened binary32 pattern. -/
def widenFields (b : Single) : BitVec 11 × BitVec 52 :=
  widenedFields 11 52 29 874 896 (exp32 b).toNat (frac32 b).toNat (category32 b)

/-- The fields of DEC64's pattern. -/
def dec64Fields (h : Half) : BitVec 11 × BitVec 52 :=
  widenedFields 11 52 42 999 1008 (exp16 h).toNat (frac16 h).toNat (category16 h)

/-- The fields of DEC32's pattern. -/
def dec32Fields (h : Half) : BitVec 8 × BitVec 23 :=
  widenedFields 8 23 13 103 112 (exp16 h).toNat (frac16 h).toNat (category16 h)

theorem widen_eq_append {b : Single} (fin : (category32 b).isFinite) :
    widen b = sign32 b ++ (widenFields b).1 ++ (widenFields b).2 := by
  unfold widen widenFields
  cases c : category32 b with
  | zero => exact append_zero63 _
  | denormalized => rfl
  | normalized => rfl
  | infinity => rw [c] at fin; cases fin
  | nan => rw [c] at fin; cases fin

theorem dec64_eq_append {h : Half} (fin : (category16 h).isFinite) :
    dec64 h = sign16 h ++ (dec64Fields h).1 ++ (dec64Fields h).2 := by
  unfold dec64 dec64Fields
  cases c : category16 h with
  | zero => exact append_zero63 _
  | denormalized => rfl
  | normalized => rfl
  | infinity => rw [c] at fin; cases fin
  | nan => rw [c] at fin; cases fin

theorem dec32_eq_append {h : Half} (fin : (category16 h).isFinite) :
    dec32 h = sign16 h ++ (dec32Fields h).1 ++ (dec32Fields h).2 := by
  unfold dec32 dec32Fields
  cases c : category16 h with
  | zero => exact append_zero31 _
  | denormalized => rfl
  | normalized => rfl
  | infinity => rw [c] at fin; cases fin
  | nan => rw [c] at fin; cases fin

/-- R91, R106: the widening of a finite pattern is finite and has its sign and its number. -/
theorem widen_of_isFinite {b : Single} (fin : (category32 b).isFinite) :
    (category64 (widen b)).isFinite ∧ sign64 (widen b) = sign32 b ∧ (val64 (widen b)).toRat = (val32 b).toRat := by
  obtain ⟨top, mag⟩ := widenedFields_spec (bias := 127) (n' := 11) (k := 29) (c := 874) (d := 896) (exp32 b) (frac32 b) fin
    (by norm_num) rfl (by norm_num) (rfl : widenFields b = _)
  rw [widen_eq_append fin, val64_append, val32_toRat]
  exact ⟨isFinite_append64 top, sign64_append .., by rw [mag]⟩

/-- R103: so is DEC64's pattern. -/
theorem dec64_of_isFinite {h : Half} (fin : (category16 h).isFinite) :
    (category64 (dec64 h)).isFinite ∧ sign64 (dec64 h) = sign16 h ∧ (val64 (dec64 h)).toRat = (val16 h).toRat := by
  obtain ⟨top, mag⟩ := widenedFields_spec (bias := 15) (n' := 11) (k := 42) (c := 999) (d := 1008) (exp16 h) (frac16 h) fin
    (by norm_num) rfl (by norm_num) (rfl : dec64Fields h = _)
  rw [dec64_eq_append fin, val64_append, val16_toRat]
  exact ⟨isFinite_append64 top, sign64_append .., by rw [mag]⟩

/-- R103: so is DEC32's pattern. -/
theorem dec32_of_isFinite {h : Half} (fin : (category16 h).isFinite) :
    (category32 (dec32 h)).isFinite ∧ sign32 (dec32 h) = sign16 h ∧ (val32 (dec32 h)).toRat = (val16 h).toRat := by
  obtain ⟨top, mag⟩ := widenedFields_spec (bias := 15) (n' := 8) (k := 13) (c := 103) (d := 112) (exp16 h) (frac16 h) fin
    (by norm_num) rfl (by norm_num) (rfl : dec32Fields h = _)
  rw [dec32_eq_append fin, val32_append, val16_toRat]
  exact ⟨isFinite_append32 top, sign32_append .., by rw [mag]⟩

end Sys2Proof.Machine
end

section
/-!
PROOFS. The encoder after an exact widening (40_encoder.md R91, R92): ENC32 is ENC64 of the widened pattern, and encoding undoes
decoding. A finite pattern is rounded from one number in either width; infinities and NaNs are told by their fields.
-/

namespace Sys2Proof.Machine

/-! ## Infinities and NaNs -/

theorem enc64_of_infinity {a : Wide} (h : category64 a = .infinity) : enc64 a = sign64 a ++ 0x7C00#15 := by
  rw [enc64, h]
  rfl

theorem enc32_of_infinity {b : Single} (h : category32 b = .infinity) : enc32 b = sign32 b ++ 0x7C00#15 := by
  rw [enc32, h]
  rfl

theorem enc64_of_nan {a : Wide} (h : category64 a = .nan) : enc64 a = sign64 a ++ 0b111111#6 ++ a.extractLsb' 42 9 := by
  rw [enc64, h]
  rfl

theorem enc32_of_nan {b : Single} (h : category32 b = .nan) : enc32 b = sign32 b ++ 0b111111#6 ++ b.extractLsb' 13 9 := by
  rw [enc32, h]
  rfl

theorem category64_special (S : BitVec 1) (F : BitVec 52) :
    category64 (S ++ 2047#11 ++ F) = if F.toNat = 0 then .infinity else .nan := by
  rw [category64, exp64_append, frac64_append]
  exact categoryOf_allOnes F (by norm_num)

/-- R91: an infinity or a NaN widens to all exponent bits set over its fraction shifted left by 29. -/
theorem widen_of_not_isFinite {b : Single} (special : ¬ (category32 b).isFinite) :
    sign64 (widen b) = sign32 b ∧ category64 (widen b) = category32 b ∧
      (frac64 (widen b)).toNat = (frac32 b).toNat * 2 ^ 29 := by
  have fits : (frac32 b).toNat * 2 ^ 29 < 2 ^ 52 := by have := (frac32 b).isLt; omega
  have e : widen b = sign32 b ++ 2047#11 ++ BitVec.ofNat 52 ((frac32 b).toNat * 2 ^ 29) := by
    unfold widen
    cases c : category32 b with
    | infinity => rfl
    | nan => rfl
    | _ => rw [c] at special; exact absurd rfl special
  have cat : category32 b = if (frac32 b).toNat = 0 then .infinity else .nan := categoryOf_of_not_isFinite (by norm_num) special
  rw [e, category64_special, sign64_append, frac64_append, toNat_ofNat_of_lt fits, cat]
  exact ⟨rfl, if_congr (by omega) rfl rfl, rfl⟩

theorem sign64_widen (b : Single) : sign64 (widen b) = sign32 b := by
  by_cases fin : (category32 b).isFinite
  · exact (widen_of_isFinite fin).2.1
  · exact (widen_of_not_isFinite fin).1

/-- R91: the encoder answers the same pattern in either width. -/
theorem enc64_widen (b : Single) : enc64 (widen b) = enc32 b := by
  by_cases fin : (category32 b).isFinite
  · obtain ⟨fin', sign, val⟩ := widen_of_isFinite fin
    rw [enc64_of_isFinite fin', enc32_of_isFinite fin, sign, val]
  obtain ⟨sign, cat, frac⟩ := widen_of_not_isFinite fin
  cases c : category32 b with
  | infinity => rw [enc64_of_infinity (cat.trans c), enc32_of_infinity c, sign]
  | nan =>
    have payload : (widen b).extractLsb' 42 9 = b.extractLsb' 13 9 := by
      rw [← BitVec.toNat_inj, payload64_toNat, payload32_toNat, frac]
      omega
    rw [enc64_of_nan (cat.trans c), enc32_of_nan c, sign, payload]
  | _ => rw [c] at fin; exact absurd rfl fin

theorem valueBy_of_isFinite {c : Category} (fin : c.isFinite) (S : BitVec 1) (v : Fraction) : valueBy c S v = .finite v.toRat := by
  cases c with
  | infinity => cases fin
  | nan => cases fin
  | _ => rfl

theorem value64_widen {b : Single} (h : category32 b ≠ .nan) : value64 (widen b) = value32 b := by
  by_cases fin : (category32 b).isFinite
  · obtain ⟨fin', -, val⟩ := widen_of_isFinite fin
    rw [value64, value32, valueBy_of_isFinite fin', valueBy_of_isFinite fin, val]
  obtain ⟨sign, cat, -⟩ := widen_of_not_isFinite fin
  cases c : category32 b with
  | infinity => rw [value64, value32, cat, c, sign]; rfl
  | nan => exact absurd c h
  | _ => rw [c] at fin; exact absurd rfl fin

/-- Settles O35: the widening keeps what the encoder reads, number, category, sign and payload. -/
theorem encoderWidthIndependence : Obligations.EncoderWidthIndependence := by
  intro b s
  refine ⟨⟨_, exec_eq _ s, ?_⟩, sign64_widen b, value64_widen, fun nan => ?_, fun fin => ?_⟩
  · rw [exec_eq]
    simp only [instrOutputs, enc64_widen]
  · obtain ⟨-, cat, frac⟩ := widen_of_not_isFinite (b := b) (by rw [nan]; decide)
    exact ⟨cat.trans nan, by rw [frac, Nat.shiftLeft_eq]⟩
  · obtain ⟨fin', -, val⟩ := widen_of_isFinite fin
    exact ⟨fin', val⟩

/-! ## Round trip -/

/-- A finite pattern is the rounding of its number. -/
theorem roundHalf_abs_val16 {h : Half} (fin : (category16 h).isFinite) :
    BitVec.ofNat 15 (roundHalf |(val16 h).toRat|) = h.extractLsb' 0 15 := by
  rw [← sign16_append_magnitude h] at fin
  have lt := (isFinite_magnitude16_iff _ _).mp fin
  rw [ofNat_roundHalf_eq_iff (abs_nonneg _)]
  conv_lhs => rw [← sign16_append_magnitude h]
  rw [val16_magnitude, abs_signed _ (halfValue_nonneg _), roundHalf_halfValue lt.le]

theorem enc64_dec64_of_isFinite {h : Half} (fin : (category16 h).isFinite) : enc64 (dec64 h) = h := by
  obtain ⟨fin', sign, val⟩ := dec64_of_isFinite fin
  rw [enc64_of_isFinite fin', sign, val, roundHalf_abs_val16 fin, sign16_append_magnitude]

theorem enc32_dec32_of_isFinite {h : Half} (fin : (category16 h).isFinite) : enc32 (dec32 h) = h := by
  obtain ⟨fin', sign, val⟩ := dec32_of_isFinite fin
  rw [enc32_of_isFinite fin', sign, val, roundHalf_abs_val16 fin, sign16_append_magnitude]

/-- The one infinity of each sign. -/
theorem sign16_append_infinity {h : Half} (inf : category16 h = .infinity) : sign16 h ++ 0x7C00#15 = h := by
  have e : ∀ S : BitVec 1, S ++ 0x7C00#15 = S ++ BitVec.allOnes 5 ++ 0#10 := by decide
  obtain ⟨top, zero⟩ := (categoryOf_infinity _ _ (by norm_num)).mp inf
  conv_rhs => rw [← fields16 h, top, zero]
  exact e _

theorem enc64_dec64_of_infinity {h : Half} (inf : category16 h = .infinity) : enc64 (dec64 h) = h := by
  have e : dec64 h = sign16 h ++ 2047#11 ++ 0#52 := by rw [dec64, inf]
  have cat : category64 (dec64 h) = .infinity := by rw [e, category64_special]; rfl
  rw [enc64_of_infinity cat, e, sign64_append, sign16_append_infinity inf]

theorem enc32_dec32_of_infinity {h : Half} (inf : category16 h = .infinity) : enc32 (dec32 h) = h := by
  have e : dec32 h = sign16 h ++ 255#8 ++ 0#23 := by rw [dec32, inf]
  have cat : category32 (dec32 h) = .infinity := by
    rw [e, category32, exp32_append, frac32_append]
    exact categoryOf_allOnes _ (by norm_num)
  rw [enc32_of_infinity cat, e, sign32_append, sign16_append_infinity inf]

/-- R90: a fraction with its quiet bit set. -/
theorem quiet_frac (f : BitVec 10) : f ||| 0x200#10 = 1#1 ++ f.extractLsb' 0 9 := by
  have quiet : ∀ q : BitVec 1, q ||| 1#1 = 1#1 := by decide
  have parts : f.extractLsb' 9 1 ++ f.extractLsb' 0 9 = f :=
    (BitVec.extractLsb'_append_extractLsb'_eq_extractLsb' rfl).trans BitVec.extractLsb'_eq_self
  calc f ||| 0x200#10 = (f.extractLsb' 9 1 ++ f.extractLsb' 0 9) ||| (1#1 ++ 0#9) := by
        rw [parts]
        rfl
    _ = 1#1 ++ f.extractLsb' 0 9 := by rw [BitVec.or_append, quiet, BitVec.or_zero]

theorem quiet_append (S : BitVec 1) (E : BitVec 5) (f : BitVec 10) : (S ++ E ++ f) ||| 0x0200 = S ++ E ++ (f ||| 0x200#10) := by
  have e : (0x0200 : Half) = 0#6 ++ 0x200#10 := rfl
  rw [e, BitVec.or_append, BitVec.or_zero]

theorem append_quiet (S : BitVec 1) (P : BitVec 9) : S ++ 0b111111#6 ++ P = S ++ 31#5 ++ (1#1 ++ P) := by
  have e : ∀ S : BitVec 1, S ++ 0b111111#6 = S ++ 31#5 ++ 1#1 := by decide
  rw [e]
  exact BitVec.append_assoc ..
theorem isNaN16_iff (h : Half) : isNaN16 h = true ↔ exp16 h = BitVec.allOnes 5 ∧ frac16 h ≠ 0 := by
  rw [isNaN16, beq_iff_eq]
  exact categoryOf_nan _ _ (by norm_num)

/-- R104, R90: a NaN's fraction comes back through binary64 below a quiet bit. -/
theorem enc64_dec64_of_nan {h : Half} (nan : isNaN16 h = true) :
    enc64 (dec64 h) = sign16 h ++ 31#5 ++ (1#1 ++ (frac16 h).extractLsb' 0 9) := by
  have cat16 : category16 h = .nan := beq_iff_eq.mp nan
  have f_lt : (frac16 h).toNat * 2 ^ 42 < 2 ^ 52 := by have := (frac16 h).isLt; omega
  have fits : 2 ^ 51 ||| (frac16 h).toNat * 2 ^ 42 < 2 ^ 52 := Nat.or_lt_two_pow (by norm_num) f_lt
  have e : dec64 h = sign16 h ++ 2047#11 ++ BitVec.ofNat 52 (2 ^ 51 ||| (frac16 h).toNat * 2 ^ 42) := by rw [dec64, cat16]
  have frac : (frac64 (dec64 h)).toNat = 2 ^ 51 ||| (frac16 h).toNat * 2 ^ 42 := by
    rw [e, frac64_append, toNat_ofNat_of_lt fits]
  have cat : category64 (dec64 h) = .nan := by
    rw [e, category64_special, toNat_ofNat_of_lt fits, if_neg (by simp [Nat.or_eq_zero_iff])]
  have payload : (dec64 h).extractLsb' 42 9 = (frac16 h).extractLsb' 0 9 := by
    rw [← BitVec.toNat_inj, payload64_toNat, frac, ← Nat.shiftRight_eq_div_pow, Nat.shiftRight_or_distrib, Nat.or_mod_two_pow,
      Nat.shiftRight_eq_div_pow, Nat.shiftRight_eq_div_pow, Nat.mul_div_cancel _ (by norm_num), BitVec.extractLsb'_toNat]
    exact Nat.zero_or _
  rw [enc64_of_nan cat, e, sign64_append, ← e, payload, append_quiet]

/-- R92: a NaN comes back with bit 9 set, as a NaN. -/
theorem enc64_dec64_of_nan_eq_or {h : Half} (nan : isNaN16 h = true) : enc64 (dec64 h) = h ||| 0x0200 := by
  obtain ⟨top, -⟩ := (isNaN16_iff h).mp nan
  conv_rhs => rw [← fields16 h, top, quiet_append, quiet_frac]
  exact enc64_dec64_of_nan nan

theorem isNaN16_enc64_dec64 {h : Half} (nan : isNaN16 h = true) : isNaN16 (enc64 (dec64 h)) = true := by
  rw [isNaN16_iff, enc64_dec64_of_nan nan, exp16_append, frac16_append]
  refine ⟨rfl, fun zero => ?_⟩
  have := congrArg BitVec.toNat zero
  rw [toNat_append_eq_add] at this
  exact absurd this (by simp)

theorem not_nan_cases {h : Half} (not_nan : isNaN16 h = false) : (category16 h).isFinite ∨ category16 h = .infinity := by
  unfold isNaN16 at not_nan
  cases c : category16 h with
  | nan => rw [c] at not_nan; cases not_nan
  | infinity => exact .inr rfl
  | _ => exact .inl rfl

/-- R101: the binary32 pattern stands in the low half of `out.r64`. -/
theorem extractLsb'_setWidth_single (b : Single) : (b.setWidth 64).extractLsb' 0 32 = b := by
  simp [BitVec.extractLsb'_setWidth_of_le]

/-- Settles O36: a finite pattern is the rounding of its number, an infinity keeps its sign, and a NaN its low nine fraction bits. -/
theorem exactRoundTrip : Obligations.ExactRoundTrip := by
  intro p s
  refine ⟨_, _, _, _, exec_eq _ s, exec_eq _ s, exec_eq _ s, exec_eq _ s, fun not_nan => ?_, fun nan => ?_⟩
  · simp only [instrOutputs, extractLsb'_setWidth_single]
    rcases not_nan_cases not_nan with fin | inf
    · exact ⟨enc64_dec64_of_isFinite fin, enc32_dec32_of_isFinite fin⟩
    · exact ⟨enc64_dec64_of_infinity inf, enc32_dec32_of_infinity inf⟩
  · simp only [instrOutputs]
    exact ⟨enc64_dec64_of_nan_eq_or nan, by simp [eq16, isNaN16_enc64_dec64 nan, nan]⟩

end Sys2Proof.Machine
end

section
/-!
PROOFS. The decoder's pattern by fields (41_decoder.md): DEC64 and DEC32 are one computation of a sign, an exponent field and a fraction
field, at the widths and the bias of the wide format. Each rule of the decoder is read off these fields.
-/

namespace Sys2Proof.Machine

/-! ## Fields as numbers -/

theorem sign16_toNat (h : Half) : (sign16 h).toNat = h.toNat / 2 ^ 15 := by
  have lt := h.isLt
  simp only [sign16, BitVec.extractLsb'_toNat, Nat.shiftRight_eq_div_pow]
  omega

theorem exp16_toNat (h : Half) : (exp16 h).toNat = h.toNat / 2 ^ 10 % 2 ^ 5 := by
  simp only [exp16, BitVec.extractLsb'_toNat, Nat.shiftRight_eq_div_pow]

theorem frac16_toNat (h : Half) : (frac16 h).toNat = h.toNat % 2 ^ 10 := by
  simp only [frac16, BitVec.extractLsb'_toNat, Nat.shiftRight_zero]

theorem categoryOf_eq_ite_toNat {n m : ℕ} (e : BitVec n) (f : BitVec m) :
    categoryOf e f =
      if e.toNat = 0 then (if f.toNat = 0 then .zero else .denormalized)
      else if e.toNat = 2 ^ n - 1 then (if f.toNat = 0 then .infinity else .nan)
      else .normalized := by
  have top : e = BitVec.allOnes n ↔ e.toNat = 2 ^ n - 1 := by rw [← BitVec.toNat_inj, BitVec.toNat_allOnes]
  simp only [categoryOf, eq_zero_iff_toNat, top]

/-- R61. -/
theorem category16_eq_ite (h : Half) :
    category16 h =
      if (exp16 h).toNat = 0 then (if (frac16 h).toNat = 0 then .zero else .denormalized)
      else if (exp16 h).toNat = 31 then (if (frac16 h).toNat = 0 then .infinity else .nan)
      else .normalized :=
  categoryOf_eq_ite_toNat _ _

theorem categoryOf_ofNat {n m E F : ℕ} (hE : E < 2 ^ n) (hF : F < 2 ^ m) :
    categoryOf (BitVec.ofNat n E) (BitVec.ofNat m F) =
      if E = 0 then (if F = 0 then .zero else .denormalized)
      else if E = 2 ^ n - 1 then (if F = 0 then .infinity else .nan)
      else .normalized := by
  rw [categoryOf_eq_ite_toNat, toNat_ofNat_of_lt hE, toNat_ofNat_of_lt hF]

theorem toNat_append_fields {n w E F : ℕ} (S : BitVec 1) (hE : E < 2 ^ n) (hF : F < 2 ^ w) :
    (S ++ BitVec.ofNat n E ++ BitVec.ofNat w F).toNat = S.toNat <<< (n + w) ||| E <<< w ||| F := by
  rw [BitVec.toNat_append, BitVec.toNat_append, toNat_ofNat_of_lt hE, toNat_ofNat_of_lt hF, Nat.shiftLeft_or_distrib,
    ← Nat.shiftLeft_add]

/-! ## The decoded fields -/

/-- R100, R101: the exponent and fraction fields, of `n` and `w` bits, that the fields of a binary16 pattern decode to in a format of
this bias. -/
def decodedFields (n w bias E F : ℕ) : ℕ × ℕ :=
  if E = 0 then
    if F = 0 then (0, 0) else (F.log2 + (bias - 24), (F - 2 ^ F.log2) * 2 ^ (w - F.log2))
  else if E = 31 then
    if F = 0 then (2 ^ n - 1, 0) else (2 ^ n - 1, 2 ^ (w - 1) ||| F * 2 ^ (w - 10))
  else (E + (bias - 15), F * 2 ^ (w - 10))

/-- R102: the category of what a binary16 pattern decodes to. -/
def decodedCategory (c : Category) : Category := if c = .denormalized then .normalized else c

section Fields
variable {n w bias E F : ℕ}

theorem decodedFields_lt (hw : 10 ≤ w) (hb : 25 ≤ bias) (hn : bias + 16 < 2 ^ n) (hE : E < 32) (hF : F < 2 ^ 10) :
    (decodedFields n w bias E F).1 < 2 ^ n ∧ (decodedFields n w bias E F).2 < 2 ^ w := by
  have shifted : F * 2 ^ (w - 10) < 2 ^ w :=
    calc F * 2 ^ (w - 10) < 2 ^ 10 * 2 ^ (w - 10) := Nat.mul_lt_mul_of_pos_right hF (by positivity)
      _ = 2 ^ w := by rw [← pow_add, Nat.add_sub_cancel' hw]
  unfold decodedFields
  split_ifs with e0 f0 e31 f0
  · exact ⟨by positivity, by positivity⟩
  · have place : F.log2 < 10 := (Nat.log2_lt f0).mpr hF
    exact ⟨by dsimp only; omega, fraction_of_log2_lt f0 (by omega)⟩
  · exact ⟨by dsimp only; omega, by positivity⟩
  · exact ⟨by dsimp only; omega, Nat.or_lt_two_pow (Nat.pow_lt_pow_right (by norm_num) (by omega)) shifted⟩
  · exact ⟨by dsimp only; omega, shifted⟩

theorem categoryOf_decodedFields {h : Half} (hw : 10 ≤ w) (hb : 25 ≤ bias) (hn : bias + 16 < 2 ^ n)
    (hE : (exp16 h).toNat = E) (hF : (frac16 h).toNat = F) :
    categoryOf (BitVec.ofNat n (decodedFields n w bias E F).1) (BitVec.ofNat w (decodedFields n w bias E F).2) =
      decodedCategory (category16 h) := by
  have e_lt : E < 32 := hE ▸ (exp16 h).isLt
  have f_lt : F < 2 ^ 10 := hF ▸ (frac16 h).isLt
  obtain ⟨exp_lt, frac_lt⟩ := decodedFields_lt hw hb hn e_lt f_lt
  have top : 2 ^ n - 1 ≠ 0 := by omega
  rw [category16_eq_ite, hE, hF]
  unfold decodedFields at exp_lt frac_lt ⊢
  split_ifs at exp_lt frac_lt ⊢ with e0 f0 e31 f0 <;> rw [categoryOf_ofNat exp_lt frac_lt] <;> dsimp only
  · rfl
  · have place : F.log2 < 10 := (Nat.log2_lt f0).mpr f_lt
    rw [if_neg (by omega), if_neg (by omega)]
    rfl
  · rw [if_neg top, if_pos rfl]
    rfl
  · rw [if_neg top, if_pos rfl, if_neg (by simp [Nat.or_eq_zero_iff])]
    rfl
  · rw [if_neg (by omega), if_neg (by omega)]
    rfl

/-- The five arms of R100 and R101: what each makes of a pattern `r` with sign `s` and the decoded fields. -/
theorem decodedPattern_arms {s r : ℕ}
    (hr : r = s <<< (n + w) ||| (decodedFields n w bias E F).1 <<< w ||| (decodedFields n w bias E F).2) :
    (E = 0 ∧ F = 0 → r = s <<< (n + w)) ∧
    (E = 0 → ∀ m, 2 ^ m ≤ F → F < 2 ^ (m + 1) →
      r = s <<< (n + w) ||| (m + (bias - 24)) <<< w ||| (F - 2 ^ m) <<< (w - m)) ∧
    (1 ≤ E ∧ E ≤ 30 → r = s <<< (n + w) ||| (E + (bias - 15)) <<< w ||| F <<< (w - 10)) ∧
    (E = 31 ∧ F = 0 → r = s <<< (n + w) ||| (2 ^ n - 1) <<< w) ∧
    (E = 31 ∧ F ≠ 0 → r = s <<< (n + w) ||| (2 ^ n - 1) <<< w ||| 1 <<< (w - 1) ||| F <<< (w - 10)) := by
  subst hr
  unfold decodedFields
  refine ⟨fun ⟨e0, f0⟩ => ?zero, fun e0 m lo hi => ?denormalized, fun ⟨lo, hi⟩ => ?normalized, fun ⟨e31, f0⟩ => ?infinity,
    fun ⟨e31, f0⟩ => ?nan⟩
  case zero => simp [e0, f0]
  case denormalized =>
    have f0 : F ≠ 0 := by have := Nat.two_pow_pos m; omega
    have place : F.log2 = m := (Nat.log2_eq_iff f0).mpr ⟨lo, hi⟩
    rw [if_pos e0, if_neg f0, place, ← Nat.shiftLeft_eq]
  case normalized => rw [if_neg (by omega), if_neg (by omega), ← Nat.shiftLeft_eq]
  case infinity => simp [e31, f0]
  case nan => rw [if_neg (by omega), if_pos e31, if_neg f0, ← Nat.shiftLeft_eq, Nat.one_shiftLeft, ← Nat.or_assoc]

end Fields

/-! ## DEC64 and DEC32 -/

/-- The fields of DEC64's pattern, as numbers. -/
def decodedFields64 (h : Half) : ℕ × ℕ := decodedFields 11 52 1023 (exp16 h).toNat (frac16 h).toNat

/-- The fields of DEC32's pattern, as numbers. -/
def decodedFields32 (h : Half) : ℕ × ℕ := decodedFields 8 23 127 (exp16 h).toNat (frac16 h).toNat

theorem decodedFields64_lt (h : Half) : (decodedFields64 h).1 < 2 ^ 11 ∧ (decodedFields64 h).2 < 2 ^ 52 :=
  decodedFields_lt (by norm_num) (by norm_num) (by norm_num) (exp16 h).isLt (frac16 h).isLt

theorem decodedFields32_lt (h : Half) : (decodedFields32 h).1 < 2 ^ 8 ∧ (decodedFields32 h).2 < 2 ^ 23 :=
  decodedFields_lt (by norm_num) (by norm_num) (by norm_num) (exp16 h).isLt (frac16 h).isLt

theorem dec64_eq_fields (h : Half) :
    dec64 h = sign16 h ++ BitVec.ofNat 11 (decodedFields64 h).1 ++ BitVec.ofNat 52 (decodedFields64 h).2 := by
  rw [dec64, category16_eq_ite, decodedFields64, decodedFields]
  split_ifs
  · exact append_zero63 _
  · rfl
  · rfl
  · rfl
  · rfl

theorem dec32_eq_fields (h : Half) :
    dec32 h = sign16 h ++ BitVec.ofNat 8 (decodedFields32 h).1 ++ BitVec.ofNat 23 (decodedFields32 h).2 := by
  rw [dec32, category16_eq_ite, decodedFields32, decodedFields]
  split_ifs
  · exact append_zero31 _
  · rfl
  · rfl
  · rfl
  · rfl

theorem dec64_toNat (h : Half) :
    (dec64 h).toNat = (sign16 h).toNat <<< 63 ||| (decodedFields64 h).1 <<< 52 ||| (decodedFields64 h).2 := by
  obtain ⟨e_lt, f_lt⟩ := decodedFields64_lt h
  rw [dec64_eq_fields]
  exact toNat_append_fields _ e_lt f_lt

theorem dec32_toNat (h : Half) :
    (dec32 h).toNat = (sign16 h).toNat <<< 31 ||| (decodedFields32 h).1 <<< 23 ||| (decodedFields32 h).2 := by
  obtain ⟨e_lt, f_lt⟩ := decodedFields32_lt h
  rw [dec32_eq_fields]
  exact toNat_append_fields _ e_lt f_lt

/-- Settles O39: the arms of R100 are those of the decoded fields at the widths and the bias of binary64. -/
theorem dec64DrivesItsRule : Obligations.Dec64DrivesItsRule := by
  intro p st code
  obtain ⟨-, -, decoded, -⟩ := decodeByOperationCode p
  refine ⟨decoded code, dec64 p.x, exec_eq _ st, ?_⟩
  have rule := decodedPattern_arms (n := 11) (w := 52) (bias := 1023) (dec64_toNat p.x)
  rw [sign16_toNat, exp16_toNat, frac16_toNat] at rule
  exact rule

/-- Settles O40: the arms of R101 are those of the decoded fields at the widths and the bias of binary32. -/
theorem dec32DrivesItsRule : Obligations.Dec32DrivesItsRule := by
  intro p st code
  obtain ⟨-, -, -, decoded, -⟩ := decodeByOperationCode p
  refine ⟨decoded code, (dec32 p.x).setWidth 64, exec_eq _ st, ?_⟩
  have rule := decodedPattern_arms (n := 8) (w := 23) (bias := 127) (dec32_toNat p.x)
  rw [sign16_toNat, exp16_toNat, frac16_toNat] at rule
  rw [BitVec.toNat_setWidth_of_le (by norm_num)]
  exact rule

theorem sign64_dec64 (h : Half) : sign64 (dec64 h) = sign16 h := by
  rw [dec64_eq_fields, sign64_append]

theorem sign32_dec32 (h : Half) : sign32 (dec32 h) = sign16 h := by
  rw [dec32_eq_fields, sign32_append]

theorem category64_dec64 (h : Half) : category64 (dec64 h) = decodedCategory (category16 h) := by
  rw [dec64_eq_fields, category64, exp64_append, frac64_append]
  exact categoryOf_decodedFields (by norm_num) (by norm_num) (by norm_num) rfl rfl

theorem category32_dec32 (h : Half) : category32 (dec32 h) = decodedCategory (category16 h) := by
  rw [dec32_eq_fields, category32, exp32_append, frac32_append]
  exact categoryOf_decodedFields (by norm_num) (by norm_num) (by norm_num) rfl rfl

/-- Settles O41: the category is that of the decoded fields, and the sign is copied. -/
theorem decoderKeepsCategoryAndSign : Obligations.DecoderKeepsCategoryAndSign := by
  intro h s
  refine ⟨_, _, exec_eq _ s, exec_eq _ s, ?_⟩
  simp only [instrOutputs, extractLsb'_setWidth_single]
  refine ⟨⟨category64_dec64 h, category32_dec32 h⟩, ?_, ?_⟩
  · rw [← getLsbD_sign64, sign64_dec64, getLsbD_sign16]
  · rw [← getLsbD_sign16, ← sign32_dec32, getLsbD_sign32, BitVec.getLsbD_setWidth]
    rfl

theorem value64_dec64 {h : Half} (not_nan : isNaN16 h = false) : value64 (dec64 h) = value16 h := by
  rcases not_nan_cases not_nan with fin | inf
  · obtain ⟨fin', -, val⟩ := dec64_of_isFinite fin
    rw [value64, value16, valueBy_of_isFinite fin', valueBy_of_isFinite fin, val]
  · rw [value64, value16, category64_dec64, inf, sign64_dec64]
    rfl

theorem value32_dec32 {h : Half} (not_nan : isNaN16 h = false) : value32 (dec32 h) = value16 h := by
  rcases not_nan_cases not_nan with fin | inf
  · obtain ⟨fin', -, val⟩ := dec32_of_isFinite fin
    rw [value32, value16, valueBy_of_isFinite fin', valueBy_of_isFinite fin, val]
  · rw [value32, value16, category32_dec32, inf, sign32_dec32]
    rfl

/-- Settles O42: a finite pattern decodes to its number, an infinity to an infinity, and the sign is copied. -/
theorem decoderIsExact : Obligations.DecoderIsExact := by
  intro h s not_nan
  refine ⟨_, _, exec_eq _ s, exec_eq _ s, ?_⟩
  simp only [instrOutputs, extractLsb'_setWidth_single]
  exact ⟨value64_dec64 not_nan, value32_dec32 not_nan, sign64_dec64 h, sign32_dec32 h⟩

/-! ## The two widths -/

/-- Both widths hold one fraction, with 29 more zero bits below it in binary64. -/
theorem decodedFields64_fraction (h : Half) : (decodedFields64 h).2 = (decodedFields32 h).2 * 2 ^ 29 := by
  unfold decodedFields64 decodedFields32 decodedFields
  split_ifs with e0 f0 e31 f0
  · rfl
  · have place : (frac16 h).toNat.log2 < 10 := (Nat.log2_lt f0).mpr (frac16 h).isLt
    have places : 52 - (frac16 h).toNat.log2 = 23 - (frac16 h).toNat.log2 + 29 := by omega
    dsimp only
    rw [places, pow_add, Nat.mul_assoc]
  · rfl
  · dsimp only
    rw [← Nat.shiftLeft_eq _ 29, Nat.shiftLeft_or_distrib, Nat.shiftLeft_eq, Nat.shiftLeft_eq, Nat.mul_assoc, ← pow_add, ← pow_add]
  · dsimp only
    rw [Nat.mul_assoc, ← pow_add]

theorem exp32_dec32 (h : Half) : (exp32 (dec32 h)).toNat = (decodedFields32 h).1 := by
  rw [dec32_eq_fields, exp32_append, toNat_ofNat_of_lt (decodedFields32_lt h).1]

theorem frac32_dec32 (h : Half) : (frac32 (dec32 h)).toNat = (decodedFields32 h).2 := by
  rw [dec32_eq_fields, frac32_append, toNat_ofNat_of_lt (decodedFields32_lt h).2]

/-- R106: what DEC32 drives is never denormalized, so its widening only moves the exponent to the other bias. -/
theorem widen_dec32 (h : Half) : widen (dec32 h) = dec64 h := by
  rw [widen, category32_dec32, category16_eq_ite, sign32_dec32, exp32_dec32, frac32_dec32, ← decodedFields64_fraction, dec64_eq_fields]
  unfold decodedFields64 decodedFields32 decodedFields
  split_ifs
  · exact append_zero63 _
  · rfl
  · rfl
  · rfl
  · rfl

/-- Settles O43, by `widen_dec32`. -/
theorem decoderWidthAgreement : Obligations.DecoderWidthAgreement := by
  intro h s
  refine ⟨_, _, exec_eq _ s, exec_eq _ s, ?_⟩
  simp only [instrOutputs, extractLsb'_setWidth_single, widen_dec32]

end Sys2Proof.Machine
end

section
/-!
PROOFS. Negation (42_arithmetic.md R130, R131): toggling bit 15 of a binary16 pattern, or bit 63 of a binary64 one, changes the sign field
and no other, and the decoder carries the one toggle to the other. So SUB is ADD of the negated operand.
-/

namespace Sys2Proof.Machine

/-- What an operation gives from every state is what its outputs say. -/
theorem gives16_of_outputs {i : Instr} {r : Half} (h : instrOutputs i = ⟨r, 0, false⟩) : Gives16 i r := fun s => by rw [exec_eq, h]

theorem gives16_add {x y r : Half} (h : addHalf x y = r) : Gives16 (.add x y) r := gives16_of_outputs (by rw [← h]; rfl)

theorem gives16_sub {x y r : Half} (h : subHalf x y = r) : Gives16 (.sub x y) r := gives16_of_outputs (by rw [← h]; rfl)

theorem gives16_mul {x y r : Half} (h : mulHalf x y = r) : Gives16 (.mul x y) r := gives16_of_outputs (by rw [← h]; rfl)

theorem gives16_div {x y r : Half} (h : divHalf x y = r) : Gives16 (.div x y) r := gives16_of_outputs (by rw [← h]; rfl)

theorem gives16_neg {x r : Half} (h : x ^^^ 0x8000 = r) : Gives16 (.neg x) r := gives16_of_outputs (by rw [← h]; rfl)

/-! ## The toggled sign -/

theorem toggle16_eq_fields (h : Half) : h ^^^ 0x8000 = (sign16 h ^^^ 1#1) ++ exp16 h ++ frac16 h := by
  have bit : (0x8000 : Half) = 1#1 ++ 0#5 ++ 0#10 := rfl
  conv_lhs => rw [← fields16 h, bit, BitVec.xor_append, BitVec.xor_append, BitVec.xor_zero, BitVec.xor_zero]

theorem toggle64_eq_fields (a : Wide) : a ^^^ 0x8000000000000000 = (sign64 a ^^^ 1#1) ++ exp64 a ++ frac64 a := by
  have bit : (0x8000000000000000 : Wide) = 1#1 ++ 0#11 ++ 0#52 := rfl
  conv_lhs => rw [← fields64 a, bit, BitVec.xor_append, BitVec.xor_append, BitVec.xor_zero, BitVec.xor_zero]

theorem sign16_toggle (h : Half) : sign16 (h ^^^ 0x8000) = sign16 h ^^^ 1#1 := by rw [toggle16_eq_fields, sign16_append]
theorem exp16_toggle (h : Half) : exp16 (h ^^^ 0x8000) = exp16 h := by rw [toggle16_eq_fields, exp16_append]
theorem frac16_toggle (h : Half) : frac16 (h ^^^ 0x8000) = frac16 h := by rw [toggle16_eq_fields, frac16_append]
theorem category16_toggle (h : Half) : category16 (h ^^^ 0x8000) = category16 h := by
  rw [category16, exp16_toggle, frac16_toggle, category16]

/-- R130: every pattern is its own double negation. -/
theorem toggle16_toggle16 (h : Half) : (h ^^^ 0x8000) ^^^ 0x8000 = h := by rw [BitVec.xor_assoc, BitVec.xor_self, BitVec.xor_zero]

theorem val16_toggle (h : Half) : (val16 (h ^^^ 0x8000)).toRat = -(val16 h).toRat := by
  rw [val16_toRat, val16_toRat, sign16_toggle, exp16_toggle, frac16_toggle]
  rcases BitVec.eq_zero_or_eq_one (sign16 h) with s | s
  · simp [s]
  · simp [s]

theorem dec64_toggle (h : Half) : dec64 (h ^^^ 0x8000) = dec64 h ^^^ 0x8000000000000000 := by
  have same : decodedFields64 (h ^^^ 0x8000) = decodedFields64 h := by
    rw [decodedFields64, exp16_toggle, frac16_toggle, decodedFields64]
  rw [toggle64_eq_fields, dec64_eq_fields, same, sign16_toggle, sign64_dec64, dec64_eq_fields h, exp64_append, frac64_append]

theorem f64sub_eq_f64add (a b : Wide) : f64sub a b = f64add a (b ^^^ 0x8000000000000000) := rfl

/-- R131. -/
theorem subHalf_eq_addHalf (x y : Half) : subHalf x y = addHalf x (y ^^^ 0x8000) := by
  rw [subHalf, addHalf, pipeline, pipeline, f64sub_eq_f64add, dec64_toggle]

/-- Settles O56: toggling bit 15 flips the sign field and undoes itself. -/
theorem negDrivesItsRule : Obligations.NegDrivesItsRule := by
  refine ⟨fun p code => ⟨by simp [decode, code], gives16_neg rfl⟩, fun x => ⟨gives16_neg (toggle16_toggle16 x), ?_⟩, ?_⟩
  · exact ⟨category16_toggle x, frac16_toggle x, sign16_toggle x⟩
  · exact ⟨gives16_neg rfl, gives16_neg rfl, gives16_neg rfl, gives16_neg rfl, gives16_neg rfl, gives16_neg rfl⟩

end Sys2Proof.Machine
end

section
/-!
PROOFS. The binary64 operations at every operand (42_arithmetic.md R121 to R123): one equation per arm of the rule, by the categories of
the operands. The exact result may be spelled by any fraction, since rounding reads the number.
-/

namespace Sys2Proof.Machine

/-! ## Categories of binary64 operands -/

theorem isNaN64_iff (a : Wide) : isNaN64 a = true ↔ category64 a = .nan := beq_iff_eq
theorem isInf64_iff (a : Wide) : isInf64 a = true ↔ category64 a = .infinity := beq_iff_eq
theorem isZero64_iff (a : Wide) : isZero64 a = true ↔ category64 a = .zero := beq_iff_eq

theorem Category.isFinite_iff (c : Category) : c.isFinite = true ↔ c ≠ .infinity ∧ c ≠ .nan := by
  cases c <;> decide

theorem Category.isFinite_or_infinity {c : Category} (h : c ≠ .nan) : c.isFinite ∨ c = .infinity := by
  rw [Category.isFinite_iff]
  tauto

theorem category64_zero_iff_toRat (a : Wide) : category64 a = .zero ↔ (val64 a).toRat = 0 := by
  rw [← abs_eq_zero, abs_val64]
  exact categoryOf_zero_iff_fieldsMagnitude ..

/-- The two zeros are told by their sign. -/
theorem eq_zero64 {a : Wide} (h : category64 a = .zero) : a = zero64 (sign64 a) := by
  obtain ⟨e, f⟩ := (categoryOf_zero _ _).mp h
  conv_lhs => rw [← fields64 a, e, f]
  exact (append_zero63 _).symm

/-- The two infinities are told by their sign. -/
theorem eq_inf64 {a : Wide} (h : category64 a = .infinity) : a = inf64 (sign64 a) := by
  obtain ⟨e, f⟩ := (categoryOf_infinity _ _ (by norm_num)).mp h
  conv_lhs => rw [← fields64 a, e, f]
  rfl

theorem sign64_zero64 (S : BitVec 1) : sign64 (zero64 S) = S := sign64_magnitude S _

theorem category64_zero64 (S : BitVec 1) : category64 (zero64 S) = .zero := by
  rw [zero64, append_zero63, category64, exp64_append, frac64_append]
  rfl

theorem eq_negative_zero64_iff (a : Wide) : a = 0x8000000000000000 ↔ category64 a = .zero ∧ sign64 a = 1#1 := by
  have e : (0x8000000000000000 : Wide) = zero64 1#1 := rfl
  rw [e]
  refine ⟨?_, fun ⟨zero, sign⟩ => (eq_zero64 zero).trans (by rw [sign])⟩
  rintro rfl
  exact ⟨category64_zero64 _, sign64_zero64 _⟩

/-! ## The sign of a fraction is that of its number -/

theorem Fraction.num_eq_zero_iff {v : Fraction} (hd : 0 < v.den) : v.num = 0 ↔ v.toRat = 0 := by
  have hd' : (v.den : ℚ) ≠ 0 := by exact_mod_cast hd.ne'
  rw [Fraction.toRat, div_eq_zero_iff, or_iff_left hd', Int.cast_eq_zero]

theorem Fraction.num_neg_iff {v : Fraction} (hd : 0 < v.den) : v.num < 0 ↔ v.toRat < 0 := by
  have hd' : (0 : ℚ) < v.den := by exact_mod_cast hd
  rw [Fraction.toRat, div_neg_iff, Int.cast_lt_zero]
  exact ⟨fun neg => .inr ⟨neg, hd'⟩, fun h => h.elim (fun h => absurd h.2 hd'.not_gt) And.left⟩

theorem Fraction.abs_num_pos {v : Fraction} (h : v.num ≠ 0) : 0 < v.abs.num :=
  Int.natCast_pos.mpr (Int.natAbs_pos.mpr h)

theorem rne64_congr {u v : Fraction} (hn : 0 < u.num) (hm : 0 < v.num) (hu : 0 < u.den) (hv : 0 < v.den)
    (h : u.toRat = v.toRat) : rne64 u = rne64 v := rne_congr 53 (-1022) 1023 hn hm hu hv h

/-! ## Sum and difference -/

theorem Fraction.add_comm (u v : Fraction) : u.add v = v.add u := by
  simp only [Fraction.add, Int.add_comm, Nat.mul_comm]

theorem val64_add_den_pos (a b : Wide) : 0 < ((val64 a).add (val64 b)).den := Nat.mul_pos (val64_den_pos a) (val64_den_pos b)

theorem val64_add_toRat (a b : Wide) : ((val64 a).add (val64 b)).toRat = (val64 a).toRat + (val64 b).toRat :=
  Fraction.add_toRat (val64_den_pos a) (val64_den_pos b)

section Add
variable {a b : Wide}

theorem f64add_of_nan (h : isNaN64 a = true ∨ isNaN64 b = true) : f64add a b = dnan := if_pos (by simpa using h)

theorem f64add_of_infinities (ha : category64 a = .infinity) (hb : category64 b = .infinity) :
    f64add a b = if sign64 a = sign64 b then a else dnan := by
  simp [f64add, isNaN64, isInf64, ha, hb]

theorem f64add_of_infinity_left (ha : category64 a = .infinity) (hb : (category64 b).isFinite) : f64add a b = a := by
  obtain ⟨not_inf, not_nan⟩ := (Category.isFinite_iff _).mp hb
  simp [f64add, isNaN64, isInf64, ha, not_inf, not_nan]

theorem f64add_of_infinity_right (ha : (category64 a).isFinite) (hb : category64 b = .infinity) : f64add a b = b := by
  obtain ⟨not_inf, not_nan⟩ := (Category.isFinite_iff _).mp ha
  simp [f64add, isNaN64, isInf64, hb, not_inf, not_nan]

/-- The last arm of R121, which the other sum lemmas read. -/
theorem f64add_of_isFinite (ha : (category64 a).isFinite) (hb : (category64 b).isFinite) :
    f64add a b =
      if ((val64 a).add (val64 b)).num = 0 then
        (if isZero64 a && isZero64 b && sign64 a == 1#1 && sign64 b == 1#1 then zero64 1 else zero64 0)
      else pack64 (if ((val64 a).add (val64 b)).num < 0 then 1 else 0) (rne64 ((val64 a).add (val64 b)).abs) := by
  obtain ⟨a_not_inf, a_not_nan⟩ := (Category.isFinite_iff _).mp ha
  obtain ⟨b_not_inf, b_not_nan⟩ := (Category.isFinite_iff _).mp hb
  simp [f64add, isNaN64, isInf64, a_not_inf, a_not_nan, b_not_inf, b_not_nan]

theorem f64add_of_sum_eq_zero (ha : (category64 a).isFinite) (hb : (category64 b).isFinite)
    (h : (val64 a).toRat + (val64 b).toRat = 0) :
    f64add a b = if a = 0x8000000000000000 ∧ b = 0x8000000000000000 then 0x8000000000000000 else 0 := by
  have num : ((val64 a).add (val64 b)).num = 0 :=
    (Fraction.num_eq_zero_iff (val64_add_den_pos a b)).mpr ((val64_add_toRat a b).trans h)
  rw [f64add_of_isFinite ha hb, if_pos num]
  refine if_congr ?_ rfl rfl
  rw [eq_negative_zero64_iff, eq_negative_zero64_iff]
  simp only [Bool.and_eq_true, isZero64_iff, beq_iff_eq]
  tauto

theorem f64add_of_sum_ne_zero (ha : (category64 a).isFinite) (hb : (category64 b).isFinite) {z : Fraction} (hd : 0 < z.den)
    (hn : z.num ≠ 0) (h : z.toRat = (val64 a).toRat + (val64 b).toRat) :
    f64add a b = pack64 (if z.num < 0 then 1 else 0) (rne64 z.abs) := by
  have den := val64_add_den_pos a b
  have same : ((val64 a).add (val64 b)).toRat = z.toRat := (val64_add_toRat a b).trans h.symm
  have num : ((val64 a).add (val64 b)).num ≠ 0 := by
    rwa [Ne, Fraction.num_eq_zero_iff den, same, ← Fraction.num_eq_zero_iff hd]
  have round : rne64 ((val64 a).add (val64 b)).abs = rne64 z.abs :=
    rne64_congr (Fraction.abs_num_pos num) (Fraction.abs_num_pos hn) den hd (by rw [Fraction.abs_toRat, Fraction.abs_toRat, same])
  rw [f64add_of_isFinite ha hb, if_neg num, round]
  simp only [Fraction.num_neg_iff den, Fraction.num_neg_iff hd, same]

end Add

/-- Settles O58: each clause is its arm of R121, and the exact sum is rounded as any fraction of it. -/
theorem wideAddAndSubFollowTheirRule : Obligations.WideAddAndSubFollowTheirRule := by
  refine ⟨fun a b => ⟨f64add_of_nan, fun ⟨ha, hb⟩ => ?_, fun ⟨ha, hb⟩ => ?_, fun ha hb z hd hz => ⟨fun zero => ?_, fun ne => ?_⟩⟩,
    f64sub_eq_f64add⟩
  · exact f64add_of_infinities ((isInf64_iff a).mp ha) ((isInf64_iff b).mp hb)
  · have inf := (isInf64_iff a).mp ha
    exact ⟨f64add_of_infinity_left inf hb, f64add_of_infinity_right hb inf⟩
  · exact f64add_of_sum_eq_zero ha hb (hz.symm.trans ((Fraction.num_eq_zero_iff hd).mp zero))
  · rw [f64add_of_sum_ne_zero ha hb hd ne hz, pack64_toNat _ (Fraction.abs_num_pos ne) hd, rne64]
    split <;> rfl

theorem f64add_comm (a b : Wide) : f64add a b = f64add b a := by
  by_cases nan : isNaN64 a = true ∨ isNaN64 b = true
  · rw [f64add_of_nan nan, f64add_of_nan nan.symm]
  rw [isNaN64_iff, isNaN64_iff, not_or] at nan
  obtain ⟨a_not_nan, b_not_nan⟩ := nan
  rcases Category.isFinite_or_infinity a_not_nan with ha | ha <;> rcases Category.isFinite_or_infinity b_not_nan with hb | hb
  · rw [f64add_of_isFinite ha hb, f64add_of_isFinite hb ha, Fraction.add_comm]
    simp only [Bool.and_eq_true, and_assoc, and_comm, and_left_comm]
  · rw [f64add_of_infinity_right ha hb, f64add_of_infinity_left hb ha]
  · rw [f64add_of_infinity_left ha hb, f64add_of_infinity_right hb ha]
  · rw [f64add_of_infinities ha hb, f64add_of_infinities hb ha]
    by_cases same : sign64 a = sign64 b
    · rw [if_pos same, if_pos same.symm, eq_inf64 ha, eq_inf64 hb, same]
    · rw [if_neg same, if_neg (Ne.symm same)]

/-! ## Product and quotient -/

theorem Fraction.mul_comm (u v : Fraction) : u.mul v = v.mul u := by
  rw [Fraction.mul, Fraction.mul, Int.mul_comm, Nat.mul_comm]

theorem f64mul_comm (a b : Wide) : f64mul a b = f64mul b a := by
  simp only [f64mul, BitVec.xor_comm (sign64 b), Bool.or_comm (isNaN64 b), Bool.or_comm (isInf64 b), Bool.or_comm (isZero64 b),
    Bool.and_comm (isInf64 b), Bool.and_comm (isZero64 b), Fraction.mul_comm (val64 b).abs, Bool.or_comm (isZero64 a && isInf64 b)]

section MulDiv
variable {a b : Wide}

theorem f64mul_of_nan (h : isNaN64 a = true ∨ isNaN64 b = true) : f64mul a b = dnan := if_pos (by simpa using h)

theorem f64mul_of_infinity_zero (ha : category64 a = .infinity) (hb : category64 b = .zero) : f64mul a b = dnan := by
  simp [f64mul, isNaN64, isInf64, isZero64, ha, hb]

theorem f64mul_of_infinity (ha : category64 a = .infinity) (zero : category64 b ≠ .zero) (nan : category64 b ≠ .nan) :
    f64mul a b = inf64 (sign64 a ^^^ sign64 b) := by
  simp [f64mul, isNaN64, isInf64, isZero64, ha, zero, nan]

theorem f64mul_of_zero (ha : category64 a = .zero) (hb : (category64 b).isFinite) : f64mul a b = zero64 (sign64 a ^^^ sign64 b) := by
  obtain ⟨not_inf, not_nan⟩ := (Category.isFinite_iff _).mp hb
  simp [f64mul, isNaN64, isInf64, isZero64, ha, not_inf, not_nan]

theorem f64div_of_nan (h : isNaN64 a = true ∨ isNaN64 b = true) : f64div a b = dnan := if_pos (by simpa using h)

theorem f64div_of_infinities (ha : category64 a = .infinity) (hb : category64 b = .infinity) : f64div a b = dnan := by
  simp [f64div, isNaN64, isInf64, isZero64, ha, hb]

theorem f64div_of_zeros (ha : category64 a = .zero) (hb : category64 b = .zero) : f64div a b = dnan := by
  simp [f64div, isNaN64, isInf64, isZero64, ha, hb]

theorem f64div_of_infinity_left (ha : category64 a = .infinity) (hb : (category64 b).isFinite) :
    f64div a b = inf64 (sign64 a ^^^ sign64 b) := by
  obtain ⟨not_inf, not_nan⟩ := (Category.isFinite_iff _).mp hb
  simp [f64div, isNaN64, isInf64, isZero64, ha, not_inf, not_nan]

theorem f64div_of_infinity_right (ha : (category64 a).isFinite) (hb : category64 b = .infinity) :
    f64div a b = zero64 (sign64 a ^^^ sign64 b) := by
  obtain ⟨not_inf, not_nan⟩ := (Category.isFinite_iff _).mp ha
  simp [f64div, isNaN64, isInf64, isZero64, hb, not_inf, not_nan]

theorem f64div_of_zero_right (ha : (category64 a).isFinite) (nonzero : category64 a ≠ .zero) (hb : category64 b = .zero) :
    f64div a b = inf64 (sign64 a ^^^ sign64 b) := by
  obtain ⟨not_inf, not_nan⟩ := (Category.isFinite_iff _).mp ha
  simp [f64div, isNaN64, isInf64, isZero64, hb, not_inf, not_nan, nonzero]

theorem f64div_of_zero_left (ha : category64 a = .zero) (hb : (category64 b).isFinite) (nonzero : category64 b ≠ .zero) :
    f64div a b = zero64 (sign64 a ^^^ sign64 b) := by
  obtain ⟨not_inf, not_nan⟩ := (Category.isFinite_iff _).mp hb
  simp [f64div, isNaN64, isInf64, isZero64, ha, not_inf, not_nan, nonzero]

section Nonzero
variable (ha : (category64 a).isFinite) (hb : (category64 b).isFinite) (a0 : category64 a ≠ .zero) (b0 : category64 b ≠ .zero)
include a0

theorem abs_val64_pos : 0 < |(val64 a).toRat| := abs_pos.mpr (mt (category64_zero_iff_toRat a).mpr a0)

include ha hb b0

theorem f64mul_of_nonzero {z : Fraction} (hd : 0 < z.den) (h : z.toRat = |(val64 a).toRat| * |(val64 b).toRat|) :
    f64mul a b = pack64 (sign64 a ^^^ sign64 b) (rne64 z) := by
  obtain ⟨a_not_inf, a_not_nan⟩ := (Category.isFinite_iff _).mp ha
  obtain ⟨b_not_inf, b_not_nan⟩ := (Category.isFinite_iff _).mp hb
  have same : ((val64 a).abs.mul (val64 b).abs).toRat = z.toRat := by
    rw [Fraction.mul_toRat, Fraction.abs_toRat, Fraction.abs_toRat, h]
  have pos : 0 < z.toRat := h ▸ mul_pos (abs_val64_pos a0) (abs_val64_pos b0)
  rw [← rne64_congr (Fraction.num_pos (same ▸ pos)) (Fraction.num_pos pos) (Nat.mul_pos (val64_den_pos a) (val64_den_pos b)) hd same]
  simp [f64mul, isNaN64, isInf64, isZero64, a_not_inf, a_not_nan, b_not_inf, b_not_nan, a0, b0]

theorem f64div_of_nonzero {z : Fraction} (hd : 0 < z.den) (h : z.toRat = |(val64 a).toRat| / |(val64 b).toRat|) :
    f64div a b = pack64 (sign64 a ^^^ sign64 b) (rne64 z) := by
  obtain ⟨a_not_inf, a_not_nan⟩ := (Category.isFinite_iff _).mp ha
  obtain ⟨b_not_inf, b_not_nan⟩ := (Category.isFinite_iff _).mp hb
  have same : ((val64 a).abs.div (val64 b).abs).toRat = z.toRat := by
    rw [Fraction.div_toRat (Fraction.abs_num_nonneg _), Fraction.abs_toRat, Fraction.abs_toRat, h]
  have pos : 0 < z.toRat := h ▸ div_pos (abs_val64_pos a0) (abs_val64_pos b0)
  have b_num : 0 < (val64 b).abs.num := Fraction.num_pos (by rw [Fraction.abs_toRat]; exact abs_val64_pos b0)
  have den : 0 < ((val64 a).abs.div (val64 b).abs).den := Nat.mul_pos (val64_den_pos a) (Int.natAbs_pos.mpr b_num.ne')
  rw [← rne64_congr (Fraction.num_pos (same ▸ pos)) (Fraction.num_pos pos) den hd same]
  simp [f64div, isNaN64, isInf64, isZero64, a_not_inf, a_not_nan, b_not_inf, b_not_nan, a0, b0]

end Nonzero
end MulDiv

/-- The exclusive or of the sign bits, as the number that R122 and R123 shift into place. -/
theorem sign64_xor_toNat (a b : Wide) : (sign64 a ^^^ sign64 b).toNat = a.toNat / 2 ^ 63 ^^^ b.toNat / 2 ^ 63 := by
  rw [BitVec.toNat_xor, sign64_toNat, sign64_toNat]

theorem toNat_of_eq_inf64 {a b r : Wide} (h : r = inf64 (sign64 a ^^^ sign64 b)) :
    r.toNat = (a.toNat / 2 ^ 63 ^^^ b.toNat / 2 ^ 63) <<< 63 ||| 2047 <<< 52 := by
  rw [h, inf64_toNat, sign64_xor_toNat, packedMagnitude]

theorem toNat_of_eq_zero64 {a b r : Wide} (h : r = zero64 (sign64 a ^^^ sign64 b)) :
    r.toNat = (a.toNat / 2 ^ 63 ^^^ b.toNat / 2 ^ 63) <<< 63 := by
  rw [h, zero64_toNat, sign64_xor_toNat]

theorem toNat_of_eq_pack64 {a b r : Wide} {z : Fraction} (hd : 0 < z.den) (pos : 0 < z.toRat)
    (h : r = pack64 (sign64 a ^^^ sign64 b) (rne64 z)) :
    r.toNat = (a.toNat / 2 ^ 63 ^^^ b.toNat / 2 ^ 63) <<< 63 ||| packedMagnitude (rne 53 (-1022) 1023 z) := by
  rw [h, pack64_toNat _ (Fraction.num_pos pos) hd, sign64_xor_toNat, rne64]

/-- Settles O59: each clause is its arm of R122 or R123; the two operands of a product may change places. -/
theorem wideMulAndDivFollowTheirRules : Obligations.WideMulAndDivFollowTheirRules := by
  intro a b
  simp only [isInf64_iff, isZero64_iff]
  refine ⟨fun nan => ⟨f64mul_of_nan nan, f64div_of_nan nan⟩, ?mulInvalid, ?mulInfinity, ?mulZero, ?divInvalid, ?divInfinity,
    ?divByInfinity, ?divByZero, ?divZero, ?rounded⟩
  case mulInvalid =>
    rintro (⟨ha, hb⟩ | ⟨ha, hb⟩)
    · exact f64mul_of_infinity_zero ha hb
    · exact (f64mul_comm a b).trans (f64mul_of_infinity_zero hb ha)
  case mulInfinity =>
    rintro (⟨ha, hb⟩ | ⟨⟨fin, a0⟩, hb⟩)
    · have notZero : category64 b ≠ .zero := hb.elim (fun inf => by rw [inf]; decide) And.right
      have notNan : category64 b ≠ .nan :=
        hb.elim (fun inf => by rw [inf]; decide) fun ⟨fin, _⟩ => ((Category.isFinite_iff _).mp fin).2
      exact toNat_of_eq_inf64 (f64mul_of_infinity ha notZero notNan)
    · rw [f64mul_comm, Nat.xor_comm]
      exact toNat_of_eq_inf64 (f64mul_of_infinity hb a0 ((Category.isFinite_iff _).mp fin).2)
  case mulZero =>
    rintro (⟨ha, hb⟩ | ⟨ha, hb⟩)
    · exact toNat_of_eq_zero64 (f64mul_of_zero ha hb)
    · rw [f64mul_comm, Nat.xor_comm]
      exact toNat_of_eq_zero64 (f64mul_of_zero hb ha)
  case divInvalid =>
    rintro (⟨ha, hb⟩ | ⟨ha, hb⟩)
    · exact f64div_of_infinities ha hb
    · exact f64div_of_zeros ha hb
  case divInfinity => exact fun ⟨ha, hb⟩ => toNat_of_eq_inf64 (f64div_of_infinity_left ha hb)
  case divByInfinity => exact fun ⟨ha, hb⟩ => toNat_of_eq_zero64 (f64div_of_infinity_right ha hb)
  case divByZero => exact fun ⟨⟨ha, a0⟩, hb⟩ => toNat_of_eq_inf64 (f64div_of_zero_right ha a0 hb)
  case divZero => exact fun ⟨ha, hb, b0⟩ => toNat_of_eq_zero64 (f64div_of_zero_left ha hb b0)
  case rounded =>
    rintro ⟨⟨ha, a0⟩, hb, b0⟩ z hd
    refine ⟨fun hz => toNat_of_eq_pack64 hd ?_ (f64mul_of_nonzero ha hb a0 b0 hd hz), fun hz =>
      toNat_of_eq_pack64 hd ?_ (f64div_of_nonzero ha hb a0 b0 hd hz)⟩
    · exact hz ▸ mul_pos (abs_val64_pos a0) (abs_val64_pos b0)
    · exact hz ▸ div_pos (abs_val64_pos a0) (abs_val64_pos b0)

end Sys2Proof.Machine
end

section
/-!
PROOFS. The binary64 rounding of a number far from both ends of the exponent range (42_arithmetic.md R121 to R124): a normalized pattern on
the grid of its binade, within half a spacing of the number, and equal to it where the number has at most 53 significant bits.
-/

namespace Sys2Proof.Machine

/-! ## Multiples of powers of two -/

/-- A multiple of `2^e` is one of every smaller power. -/
theorem exists_multiple_of_le {e u : ℤ} (le : u ≤ e) (M : ℕ) : ∃ n : ℕ, (M : ℚ) * 2 ^ e = n * 2 ^ u := by
  obtain ⟨s, rfl⟩ := Int.le.dest le
  exact ⟨M * 2 ^ s, by rw [zpow_add₀ two_ne_zero, zpow_natCast]; push_cast; ring⟩

/-- Below the power `2^(w + e)` a multiple of `2^e` is less than `2^w` times it. -/
theorem lt_two_pow_of_mul_lt {M w : ℕ} {e : ℤ} (h : (M : ℚ) * 2 ^ e < 2 ^ (w + e)) : M < 2 ^ w := by
  rw [zpow_add₀ two_ne_zero, zpow_natCast] at h
  exact_mod_cast lt_of_mul_lt_mul_right h (by positivity)

theorem mul_lt_of_lt_two_pow {M w : ℕ} (e : ℤ) (h : M < 2 ^ w) : (M : ℚ) * 2 ^ e < 2 ^ (w + e) := by
  rw [zpow_add₀ two_ne_zero, zpow_natCast]
  exact mul_lt_mul_of_pos_right (by exact_mod_cast h) (by positivity)

/-! ## The magnitude of a carry form -/

/-- The magnitude `j * 2^w + N`, a significand `N` carried into the exponent field, stands for `N` times the spacing of its binade. -/
theorem fieldsMagnitude_carry {w bias j N : ℕ} (lo : 2 ^ w ≤ N) (hi : N ≤ 2 ^ (w + 1)) :
    fieldsMagnitude w bias ((j * 2 ^ w + N) / 2 ^ w) ((j * 2 ^ w + N) % 2 ^ w) = N * 2 ^ (j + 1 - bias - w : ℤ) := by
  have pos : 0 < 2 ^ w := Nat.two_pow_pos w
  rw [pow_succ] at hi
  rcases Nat.eq_or_lt_of_le hi with rfl | hi'
  · have split : j * 2 ^ w + 2 ^ w * 2 = (j + 2) * 2 ^ w := by ring
    have shift : (((j + 2 : ℕ) : ℤ) - bias - w) = j + 1 - bias - w + 1 := by push_cast; ring
    rw [split, Nat.mul_div_cancel _ pos, Nat.mul_mod_left, fieldsMagnitude, if_neg (by omega), shift, zpow_add_one₀ two_ne_zero]
    push_cast
    ring
  · obtain ⟨F, rfl⟩ := Nat.exists_eq_add_of_le lo
    have F_lt : F < 2 ^ w := by omega
    have split : j * 2 ^ w + (2 ^ w + F) = F + 2 ^ w * (j + 1) := by ring
    have shift : (((j + 1 : ℕ) : ℤ) - bias - w) = j + 1 - bias - w := by push_cast; ring
    rw [split, Nat.add_mul_div_left _ _ pos, Nat.div_eq_of_lt F_lt, Nat.zero_add, Nat.add_mul_mod_self_left, Nat.mod_eq_of_lt F_lt,
      fieldsMagnitude, if_neg (by omega), shift]
    push_cast
    rfl

/-! ## A sign over a magnitude -/

theorem exp64_magnitude_toNat (S : BitVec 1) (M : BitVec 63) : (exp64 (S ++ M)).toNat = M.toNat / 2 ^ 52 := by
  have lt := M.isLt
  rw [exp64_toNat, toNat_append_eq_add]
  omega

theorem frac64_magnitude_toNat (S : BitVec 1) (M : BitVec 63) : (frac64 (S ++ M)).toNat = M.toNat % 2 ^ 52 := by
  rw [frac64_toNat, toNat_append_eq_add]
  omega

theorem sign64_pack64 (S : BitVec 1) (t : Rounded) : sign64 (pack64 S t) = S := by
  cases t with
  | inf => exact sign64_append ..
  | fin k N => exact sign64_magnitude S _

/-! ## Rounding inside the normal range -/

/-- `x` is a normalized number of binary64, and stays one when it is rounded up to the next power of two. -/
def WideNormal (x : ℚ) : Prop := (2 : ℚ) ^ (-1022 : ℤ) ≤ x ∧ x < 2 ^ (1023 : ℤ)

theorem WideNormal.pos {x : ℚ} (h : WideNormal x) : 0 < x := h.1.trans_lt' (by positivity)

/-- The significand that `RNE` answers in the normal range. -/
def wideSignificand (v : Fraction) : ℕ := roundTE (v.divPow2 (floorLog2 v - 52))

/-- The number that `v` is rounded to in the normal range. -/
def wideRounded (v : Fraction) : ℚ := wideSignificand v * 2 ^ (floorLog2 v - 52)

section Normal
variable {v : Fraction} (hd : 0 < v.den) (normal : WideNormal v.toRat)
include hd normal

theorem floorLog2_of_wideNormal : (2 : ℚ) ^ floorLog2 v ≤ v.toRat ∧ v.toRat < 2 ^ (floorLog2 v + 1) :=
  floorLog2_spec (Fraction.num_pos normal.pos) hd

theorem floorLog2_range : -1022 ≤ floorLog2 v ∧ floorLog2 v < 1023 := by
  obtain ⟨lo, hi⟩ := floorLog2_of_wideNormal hd normal
  have ge := (zpow_lt_zpow_iff_right₀ one_lt_two).mp (normal.1.trans_lt hi)
  have lt := (zpow_lt_zpow_iff_right₀ one_lt_two).mp (lo.trans_lt normal.2)
  omega

theorem wideSignificand_range : 2 ^ 52 ≤ wideSignificand v ∧ wideSignificand v ≤ 2 ^ 53 := by
  obtain ⟨lo, hi⟩ := floorLog2_of_wideNormal hd normal
  have num := Fraction.divPow2_num_nonneg (Fraction.num_pos normal.pos).le (floorLog2 v - 52)
  have den := Fraction.divPow2_den_pos hd (floorLog2 v - 52)
  constructor
  · refine le_roundTE num den ?_
    rw [Fraction.divPow2_toRat, le_div_iff₀ (by positivity), Nat.cast_pow, Nat.cast_ofNat, ← zpow_natCast, ← zpow_add₀ two_ne_zero]
    exact lo.trans' (zpow_le_zpow_right₀ one_le_two (by omega))
  · refine roundTE_le num den ?_
    rw [Fraction.divPow2_toRat, div_le_iff₀ (by positivity), Nat.cast_pow, Nat.cast_ofNat, ← zpow_natCast, ← zpow_add₀ two_ne_zero]
    exact hi.le.trans (zpow_le_zpow_right₀ one_le_two (by omega))

theorem rne64_of_wideNormal : rne64 v = .fin (floorLog2 v) (wideSignificand v) := by
  have small : ¬ overflows 53 1023 v = true := by
    rw [overflows_iff (Fraction.num_pos normal.pos).le hd, not_le, ← zpow_natCast]
    exact normal.2.trans_le (le_mul_of_one_le_right (by positivity) (by norm_num))
  have exponent : max (-1022) (floorLog2 v) = floorLog2 v := max_eq_right (floorLog2_range hd normal).1
  have spacing : floorLog2 v - (53 : ℕ) + 1 = floorLog2 v - 52 := by push_cast; ring
  rw [rne64, rne, if_neg small, exponent]
  dsimp only
  rw [spacing, wideSignificand]

/-- R124: the packed result is normalized, has the sign given, and stands for the rounded number. -/
theorem pack64_of_wideNormal (S : BitVec 1) :
    category64 (pack64 S (rne64 v)) = .normalized ∧ |(val64 (pack64 S (rne64 v))).toRat| = wideRounded v := by
  obtain ⟨k_lo, k_hi⟩ := floorLog2_range hd normal
  obtain ⟨N_lo, N_hi⟩ := wideSignificand_range hd normal
  obtain ⟨j, hj⟩ : ∃ j : ℕ, (j : ℤ) = floorLog2 v + 1022 := ⟨_, Int.toNat_of_nonneg (by omega)⟩
  have mag : (BitVec.ofNat 63 (j * 2 ^ 52 + wideSignificand v)).toNat = j * 2 ^ 52 + wideSignificand v :=
    toNat_ofNat_of_lt (by omega)
  have packed : pack64 S (rne64 v) = S ++ BitVec.ofNat 63 (j * 2 ^ 52 + wideSignificand v) := by
    rw [rne64_of_wideNormal hd normal, pack64, ← hj, Int.toNat_natCast]
  rw [packed]
  constructor
  · have exponent := exp64_magnitude_toNat S (BitVec.ofNat 63 (j * 2 ^ 52 + wideSignificand v))
    rw [mag] at exponent
    rw [category64, categoryOf_eq_ite_toNat, exponent, if_neg (by omega), if_neg (by omega)]
  · have spacing : (j : ℤ) + 1 - (1023 : ℕ) - (52 : ℕ) = floorLog2 v - 52 := by omega
    rw [abs_val64, exp64_magnitude_toNat, frac64_magnitude_toNat, mag, fieldsMagnitude_carry N_lo N_hi, spacing, wideRounded]

theorem wideRounded_error : |wideRounded v - v.toRat| ≤ 2 ^ (floorLog2 v - 53) := by
  calc |wideRounded v - v.toRat| ≤ 2 ^ (floorLog2 v - 52) / 2 := roundTE_divPow2_error (Fraction.num_pos normal.pos).le hd _
    _ = 2 ^ (floorLog2 v - 53) := by
      rw [show floorLog2 v - 52 = floorLog2 v - 53 + 1 by ring, zpow_add_one₀ two_ne_zero, mul_div_cancel_right₀ _ two_ne_zero]

/-- Rounding does not leave the binade at its lower end. -/
theorem two_zpow_le_wideRounded : (2 : ℚ) ^ floorLog2 v ≤ wideRounded v := by
  have lo : ((2 ^ 52 : ℕ) : ℚ) ≤ wideSignificand v := by exact_mod_cast (wideSignificand_range hd normal).1
  calc (2 : ℚ) ^ floorLog2 v = ((2 ^ 52 : ℕ) : ℚ) * 2 ^ (floorLog2 v - 52) := by
        rw [Nat.cast_pow, Nat.cast_ofNat, ← zpow_natCast, ← zpow_add₀ two_ne_zero]
        congr 1
        omega
    _ ≤ wideRounded v := mul_le_mul_of_nonneg_right lo (by positivity)

/-- A multiple of `2^e` below `2^53` spacings is a binary64 number, so it is not moved. -/
theorem wideRounded_of_exact {M : ℕ} {e : ℤ} (hM : M < 2 ^ 53) (val : v.toRat = M * 2 ^ e) : wideRounded v = v.toRat := by
  obtain ⟨lo, -⟩ := floorLog2_of_wideNormal hd normal
  have k_lt := (zpow_lt_zpow_iff_right₀ one_lt_two).mp ((val ▸ lo).trans_lt (mul_lt_of_lt_two_pow e hM))
  obtain ⟨n, hn⟩ := exists_multiple_of_le (u := floorLog2 v - 52) (e := e) (by omega) M
  have spacing : v.toRat = n * 2 ^ (floorLog2 v - 52) := val.trans hn
  have integer : (v.divPow2 (floorLog2 v - 52)).toRat = n := by
    rw [Fraction.divPow2_toRat, spacing, mul_div_assoc, div_self (by positivity), mul_one]
  have num := Fraction.divPow2_num_nonneg (Fraction.num_pos normal.pos).le (floorLog2 v - 52)
  have den := Fraction.divPow2_den_pos hd (floorLog2 v - 52)
  have same : wideSignificand v = n := le_antisymm (roundTE_le num den integer.le) (le_roundTE num den integer.ge)
  rw [wideRounded, same, spacing]

/-- R120: the final rounding reads the number that binary64 holds. -/
theorem enc64_pack64 (S : BitVec 1) : enc64 (pack64 S (rne64 v)) = S ++ BitVec.ofNat 15 (roundHalf (wideRounded v)) := by
  obtain ⟨cat, abs⟩ := pack64_of_wideNormal hd normal S
  rw [enc64_of_isFinite (by rw [cat]; rfl), sign64_pack64, abs]

end Normal

end Sys2Proof.Machine
end

section
/-!
PROOFS. Single rounding (42_arithmetic.md R124, R129). Sums and products of binary16 values have few enough significant bits that binary64
holds them exactly. A quotient is rounded twice, and the second rounding answers as if it were the only one: between a quotient of two
11-bit significands and its binary64 rounding there is no midpoint of binary16 values, unless the quotient is that midpoint.
-/

namespace Sys2Proof.Machine

/-! ## Two numbers that binary16 tells apart -/

/-- The value halfway from the pattern `j * 1024 + N` to the next. -/
theorem halfValue_midpoint {j N : ℕ} (lo : j = 0 ∨ 1024 ≤ N) (hi : N < 2048) :
    (halfValue (j * 1024 + N) + halfValue (j * 1024 + N + 1)) / 2 = (2 * N + 1 : ℕ) * 2 ^ (j - 25 : ℤ) := by
  have spacing : (2 : ℚ) ^ (j - 24 : ℤ) = 2 ^ (j - 25 : ℤ) * 2 := by
    rw [← zpow_add_one₀ two_ne_zero]
    congr 1
    ring
  rw [Nat.add_assoc, halfValue_grid lo hi.le, halfValue_grid (by omega) hi, spacing]
  push_cast
  ring

/-- The midpoint above the pattern of `x` separates `x` from every number with a greater pattern. -/
theorem midpoint_separates {x y : ℚ} (hx : 0 ≤ x) (hy : 0 ≤ y) (lt : roundHalf x < roundHalf y) :
    x ≤ (halfValue (roundHalf x) + halfValue (roundHalf x + 1)) / 2 ∧
      (halfValue (roundHalf x) + halfValue (roundHalf x + 1)) / 2 ≤ y := by
  have below : roundHalf x < 0x7C00 := lt.trans_le (roundHalf_le hy)
  have x_lt : x < 65520 := not_le.mp (mt (roundHalf_eq_7C00_iff hx).mpr below.ne)
  have next := halfValue_strictMono (Nat.lt_succ_self (roundHalf x))
  refine ⟨le_midpoint_of_nearer next (roundHalf_nearest hx (by linarith) _), ?_⟩
  rcases le_or_gt 65520 y with big | small
  · have m_le : halfValue (roundHalf x) ≤ 65504 := halfValue_7BFF ▸ halfValue_strictMono.monotone (by omega)
    have next_le : halfValue (roundHalf x + 1) ≤ 65536 := halfValue_7C00 ▸ halfValue_strictMono.monotone below
    linarith
  · have near := midpoint_le_of_nearer (halfValue_strictMono lt) (roundHalf_nearest hy (by linarith) (roundHalf x))
    have next_le : halfValue (roundHalf x + 1) ≤ halfValue (roundHalf y) := halfValue_strictMono.monotone lt
    linarith

/-- Numbers from `2^k` on that binary16 tells apart have a multiple of `2^(k - 11)` between them. -/
theorem exists_multiple_between {x y : ℚ} {k : ℤ} (hx : 2 ^ k ≤ x) (hy : 2 ^ k ≤ y) (lt : roundHalf x < roundHalf y) :
    ∃ n : ℕ, x ≤ n * 2 ^ (k - 11) ∧ (n : ℚ) * 2 ^ (k - 11) ≤ y := by
  have pos : (0 : ℚ) ≤ 2 ^ k := by positivity
  obtain ⟨x_le, le_y⟩ := midpoint_separates (pos.trans hx) (pos.trans hy) lt
  obtain ⟨j, N, grid, lo, hi⟩ := exists_grid (roundHalf x)
  rw [grid, halfValue_midpoint lo hi] at x_le le_y
  have bound := mul_lt_of_lt_two_pow (M := 2 * N + 1) (w := 12) (j - 25) (by omega)
  have k_lt := (zpow_lt_zpow_iff_right₀ one_lt_two).mp ((hx.trans x_le).trans_lt bound)
  obtain ⟨n, hn⟩ := exists_multiple_of_le (u := k - 11) (e := j - 25) (by push_cast at k_lt; omega) (2 * N + 1)
  exact ⟨n, hn ▸ x_le, hn ▸ le_y⟩

/-! ## Rounding a quotient twice -/

/-- A number with an 11-bit denominator above `2^u` is not close to a multiple of `2^u` unless it is that multiple. -/
theorem eq_multiple_of_near {q : ℚ} {a B n : ℕ} {u : ℤ} (hB : 0 < B) (hB' : B < 2 ^ 11) (hq : q * B = a * 2 ^ u)
    (near : |q - n * 2 ^ u| < 2 ^ (u - 11)) : q = n * 2 ^ u := by
  have pos : (0 : ℚ) < 2 ^ u := by positivity
  have B_pos : (0 : ℚ) < B := by exact_mod_cast hB
  have B_lt : (B : ℚ) < 2 ^ (11 : ℤ) := by exact_mod_cast hB'
  have difference : ((a - n * B : ℤ) : ℚ) * 2 ^ u = (q - n * 2 ^ u) * B := by
    rw [sub_mul, hq]
    push_cast
    ring
  have apart := congrArg abs difference
  rw [abs_mul, abs_mul, abs_of_pos pos, abs_of_pos B_pos] at apart
  have small : |((a - n * B : ℤ) : ℚ)| * 2 ^ u < 1 * 2 ^ u := by
    calc |((a - n * B : ℤ) : ℚ)| * 2 ^ u = |q - n * 2 ^ u| * B := apart
      _ < 2 ^ (u - 11) * 2 ^ (11 : ℤ) := mul_lt_mul'' near B_lt (abs_nonneg _) B_pos.le
      _ = 1 * 2 ^ u := by rw [← zpow_add₀ two_ne_zero, sub_add_cancel, one_mul]
  have lt_one : |(a - n * B : ℤ)| < 1 := by exact_mod_cast lt_of_mul_lt_mul_right small pos.le
  have same : (a : ℚ) = n * B := by
    have := sub_eq_zero.mp (Int.abs_lt_one_iff.mp lt_one)
    exact_mod_cast this
  refine mul_right_cancel₀ B_pos.ne' ?_
  rw [hq, same]
  ring

/-- R129, for DIV: the second rounding is innocuous. -/
theorem roundHalf_wideRounded_of_quotient {v : Fraction} (hd : 0 < v.den) (normal : WideNormal v.toRat) {a B : ℕ} (hB : 0 < B)
    (hB' : B < 2 ^ 11) (hq : v.toRat * B = a * 2 ^ (floorLog2 v - 11)) : roundHalf (wideRounded v) = roundHalf v.toRat := by
  obtain ⟨lo, hi⟩ := floorLog2_of_wideNormal hd normal
  have lo' := two_zpow_le_wideRounded hd normal
  by_contra differ
  obtain ⟨n, between⟩ : ∃ n : ℕ, |v.toRat - n * 2 ^ (floorLog2 v - 11)| ≤ |wideRounded v - v.toRat| := by
    rcases Nat.lt_or_gt_of_ne differ with lt | gt
    · obtain ⟨n, ge, le⟩ := exists_multiple_between lo' lo lt
      exact ⟨n, by rw [abs_of_nonneg (by linarith), abs_of_nonpos (by linarith)]; linarith⟩
    · obtain ⟨n, ge, le⟩ := exists_multiple_between lo lo' gt
      exact ⟨n, by rw [abs_of_nonpos (by linarith), abs_of_nonneg (by linarith)]; linarith⟩
  have near : |v.toRat - n * 2 ^ (floorLog2 v - 11)| < 2 ^ (floorLog2 v - 11 - 11) :=
    (between.trans (wideRounded_error hd normal)).trans_lt (zpow_lt_zpow_right₀ one_lt_two (by omega))
  have multiple := eq_multiple_of_near hB hB' hq near
  have n_lt : n < 2 ^ 12 := by
    refine lt_two_pow_of_mul_lt (e := floorLog2 v - 11) (multiple ▸ hi.trans_le ?_)
    exact zpow_le_zpow_right₀ one_le_two (by push_cast; omega)
  exact differ (by rw [wideRounded_of_exact hd normal (n_lt.trans (by norm_num)) multiple])

end Sys2Proof.Machine
end

section
/-!
PROOFS. The exact results of finite operands (42_arithmetic.md R124): sums, products and quotients of binary16 values on their grids, all
of them well inside the normal range of binary64. So the binary64 operations on decoded operands pack a normalized result.
-/

namespace Sys2Proof.Machine

/-! ## The grid of binary16 -/

theorem category16_zero_iff_toRat (h : Half) : category16 h = .zero ↔ (val16 h).toRat = 0 := by
  rw [← abs_eq_zero, abs_val16]
  exact categoryOf_zero_iff_fieldsMagnitude ..

theorem abs_val16_pos {h : Half} (h0 : category16 h ≠ .zero) : 0 < |(val16 h).toRat| :=
  abs_pos.mpr (mt (category16_zero_iff_toRat h).mpr h0)

/-- A finite value is an 11-bit significand at one of 30 exponents. -/
theorem exists_significand {h : Half} (fin : (category16 h).isFinite) :
    ∃ j N : ℕ, j ≤ 29 ∧ N < 2 ^ 11 ∧ |(val16 h).toRat| = N * 2 ^ (j - 24 : ℤ) := by
  obtain ⟨m, lt, e⟩ := exists_abs_val16_eq fin
  obtain ⟨j, N, rfl, lo, hi⟩ := exists_grid m
  exact ⟨j, N, by omega, hi, by rw [e, halfValue_grid lo hi.le]⟩

theorem abs_val16_lt {h : Half} (fin : (category16 h).isFinite) : |(val16 h).toRat| < 2 ^ (16 : ℤ) := by
  obtain ⟨m, lt, e⟩ := exists_abs_val16_eq fin
  rw [e]
  exact (halfValue_strictMono lt).trans_eq (by rw [halfValue_7C00]; norm_num)

/-- Every finite value is a multiple of the least one. -/
theorem exists_val16_eq_multiple {h : Half} (fin : (category16 h).isFinite) : ∃ i : ℤ, (val16 h).toRat = i * 2 ^ (-24 : ℤ) := by
  obtain ⟨j, N, -, -, e⟩ := exists_significand fin
  obtain ⟨n, hn⟩ := exists_multiple_of_le (u := -24) (e := j - 24) (by omega) N
  rcases abs_choice (val16 h).toRat with pos | neg
  · exact ⟨n, by rw [← pos, e, hn]; rfl⟩
  · refine ⟨-n, ?_⟩
    rw [Int.cast_neg, neg_mul, eq_neg_iff_add_eq_zero, ← neg_eq_iff_add_eq_zero, ← neg, e, hn]
    rfl

/-- A sum of finite values has at most 41 significant bits, all from the place of the least value on. -/
theorem exists_abs_sum_eq {x y : Half} (hx : (category16 x).isFinite) (hy : (category16 y).isFinite) :
    ∃ M : ℕ, M < 2 ^ 41 ∧ |(val16 x).toRat + (val16 y).toRat| = M * 2 ^ (-24 : ℤ) := by
  obtain ⟨i, hi⟩ := exists_val16_eq_multiple hx
  obtain ⟨k, hk⟩ := exists_val16_eq_multiple hy
  have sum : |(val16 x).toRat + (val16 y).toRat| = (i + k).natAbs * 2 ^ (-24 : ℤ) := by
    rw [hi, hk, ← add_mul, abs_mul, abs_of_pos (by positivity : (0 : ℚ) < 2 ^ (-24 : ℤ)), Nat.cast_natAbs]
    push_cast
    rfl
  refine ⟨_, lt_two_pow_of_mul_lt (e := -24) ?_, sum⟩
  calc ((i + k).natAbs : ℚ) * 2 ^ (-24 : ℤ) = |(val16 x).toRat + (val16 y).toRat| := sum.symm
    _ ≤ |(val16 x).toRat| + |(val16 y).toRat| := abs_add_le _ _
    _ < 2 ^ (16 : ℤ) + 2 ^ (16 : ℤ) := add_lt_add (abs_val16_lt hx) (abs_val16_lt hy)
    _ = 2 ^ ((41 : ℕ) + -24 : ℤ) := by norm_num

theorem exists_abs_mul_eq {x y : Half} (hx : (category16 x).isFinite) (hy : (category16 y).isFinite) :
    ∃ (M : ℕ) (e : ℤ), M < 2 ^ 22 ∧ -48 ≤ e ∧ e ≤ 10 ∧ |(val16 x).toRat| * |(val16 y).toRat| = M * 2 ^ e := by
  obtain ⟨j, N, hj, hN, ex⟩ := exists_significand hx
  obtain ⟨i, L, hi, hL, ey⟩ := exists_significand hy
  refine ⟨N * L, (j - 24) + (i - 24), ?_, by omega, by omega, ?_⟩
  · calc N * L < 2 ^ 11 * 2 ^ 11 := Nat.mul_lt_mul'' hN hL
      _ = 2 ^ 22 := by norm_num
  · rw [ex, ey, zpow_add₀ two_ne_zero]
    push_cast
    ring

/-- A quotient of finite values has an 11-bit denominator beside its power of two. -/
theorem exists_abs_div_mul_eq {x y : Half} (hx : (category16 x).isFinite) (hy : (category16 y).isFinite)
    (y0 : category16 y ≠ .zero) :
    ∃ (A B : ℕ) (e : ℤ), A < 2 ^ 11 ∧ 0 < B ∧ B < 2 ^ 11 ∧ -29 ≤ e ∧ e ≤ 29 ∧
      |(val16 x).toRat| / |(val16 y).toRat| * B = A * 2 ^ e := by
  obtain ⟨j, A, hj, hA, ex⟩ := exists_significand hx
  obtain ⟨i, B, hi, hB, ey⟩ := exists_significand hy
  have B0 : B ≠ 0 := by
    rintro rfl
    rw [Nat.cast_zero, zero_mul, abs_eq_zero] at ey
    exact y0 ((category16_zero_iff_toRat y).mpr ey)
  refine ⟨A, B, (j - 24) - (i - 24), hA, Nat.pos_of_ne_zero B0, hB, by omega, by omega, ?_⟩
  have B0' : (B : ℚ) ≠ 0 := by exact_mod_cast B0
  rw [ex, ey, zpow_sub₀ two_ne_zero (j - 24 : ℤ) (i - 24), mul_div_mul_comm, mul_right_comm, div_mul_cancel₀ _ B0']

/-! ## Inside the normal range of binary64 -/

theorem wideNormal_of_bounds {x : ℚ} {a b : ℤ} (ha : -1022 ≤ a) (hb : b ≤ 1023) (lo : 2 ^ a ≤ x) (hi : x < 2 ^ b) : WideNormal x :=
  ⟨(zpow_le_zpow_right₀ one_le_two ha).trans lo, hi.trans_le (zpow_le_zpow_right₀ one_le_two hb)⟩

theorem two_zpow_le_multiple {M : ℕ} {e : ℤ} (h : 0 < (M : ℚ) * 2 ^ e) : (2 : ℚ) ^ e ≤ M * 2 ^ e := by
  have M0 : M ≠ 0 := by
    rintro rfl
    simp at h
  exact le_mul_of_one_le_left (by positivity) (by exact_mod_cast Nat.one_le_iff_ne_zero.mpr M0)

theorem wideNormal_of_multiple {M w : ℕ} {x : ℚ} {e : ℤ} (pos : 0 < x) (hx : x = M * 2 ^ e) (hM : M < 2 ^ w) (lo : -1022 ≤ e)
    (hi : w + e ≤ 1023) : WideNormal x := by
  subst hx
  exact wideNormal_of_bounds lo hi (two_zpow_le_multiple pos) (mul_lt_of_lt_two_pow e hM)

section Finite
variable {x y : Half} (hx : (category16 x).isFinite) (hy : (category16 y).isFinite)
include hx hy

theorem sum_wideNormal (ne : (val16 x).toRat + (val16 y).toRat ≠ 0) : WideNormal |(val16 x).toRat + (val16 y).toRat| := by
  obtain ⟨M, hM, e⟩ := exists_abs_sum_eq hx hy
  exact wideNormal_of_multiple (abs_pos.mpr ne) e hM (by norm_num) (by norm_num)

section Nonzero
variable (x0 : category16 x ≠ .zero) (y0 : category16 y ≠ .zero)
include x0 y0

theorem mul_wideNormal : WideNormal (|(val16 x).toRat| * |(val16 y).toRat|) := by
  obtain ⟨M, e, hM, lo, hi, h⟩ := exists_abs_mul_eq hx hy
  exact wideNormal_of_multiple (mul_pos (abs_val16_pos x0) (abs_val16_pos y0)) h hM (by omega) (by omega)

theorem div_wideNormal : WideNormal (|(val16 x).toRat| / |(val16 y).toRat|) := by
  obtain ⟨A, B, e, hA, hB, hB', lo, hi, h⟩ := exists_abs_div_mul_eq hx hy y0
  have pos : 0 < |(val16 x).toRat| / |(val16 y).toRat| := div_pos (abs_val16_pos x0) (abs_val16_pos y0)
  generalize |(val16 x).toRat| / |(val16 y).toRat| = q at *
  have one_le : (1 : ℚ) ≤ B := by exact_mod_cast hB
  have le : (B : ℚ) ≤ 2 ^ (11 : ℤ) := by exact_mod_cast hB'.le
  have num_ge := two_zpow_le_multiple (M := A) (e := e) (h ▸ mul_pos pos (one_le.trans_lt' one_pos))
  refine wideNormal_of_bounds (a := e - 11) (b := 11 + e) (by omega) (by omega) ?_ ?_
  · rw [zpow_sub₀ two_ne_zero, div_le_iff₀ (by positivity)]
    calc (2 : ℚ) ^ e ≤ q * B := h ▸ num_ge
      _ ≤ q * 2 ^ (11 : ℤ) := mul_le_mul_of_nonneg_left le pos.le
  · calc q ≤ q * B := le_mul_of_one_le_right pos.le one_le
      _ < 2 ^ (11 + e) := h ▸ mul_lt_of_lt_two_pow e hA

end Nonzero
end Finite

/-! ## Decoded operands -/

theorem category64_dec64_eq_zero_iff (h : Half) : category64 (dec64 h) = .zero ↔ category16 h = .zero := by
  rw [category64_dec64]
  cases category16 h <;> decide

theorem category64_dec64_eq_infinity_iff (h : Half) : category64 (dec64 h) = .infinity ↔ category16 h = .infinity := by
  rw [category64_dec64]
  cases category16 h <;> decide

theorem category64_dec64_eq_nan_iff (h : Half) : category64 (dec64 h) = .nan ↔ category16 h = .nan := by
  rw [category64_dec64]
  cases category16 h <;> decide

theorem isNaN64_dec64 (h : Half) : isNaN64 (dec64 h) = isNaN16 h := by
  rw [Bool.eq_iff_iff, isNaN64_iff, category64_dec64_eq_nan_iff, isNaN16, beq_iff_eq]

theorem isFinite_dec64 {h : Half} (fin : (category16 h).isFinite) : (category64 (dec64 h)).isFinite := (dec64_of_isFinite fin).1

theorem val64_dec64 {h : Half} (fin : (category16 h).isFinite) : (val64 (dec64 h)).toRat = (val16 h).toRat := (dec64_of_isFinite fin).2.2

theorem exists_fraction (q : ℚ) : ∃ z : Fraction, 0 < z.den ∧ z.toRat = q := ⟨⟨q.num, q.den⟩, q.den_pos, toRat_num_den q⟩

/-! ## The binary64 operations on decoded operands -/

section Wide
variable {x y : Half} (hx : (category16 x).isFinite) (hy : (category16 y).isFinite)
include hx hy

theorem f64add_dec64_eq_pack64 (ne : (val16 x).toRat + (val16 y).toRat ≠ 0) :
    ∃ v : Fraction, 0 < v.den ∧ v.toRat = |(val16 x).toRat + (val16 y).toRat| ∧
      f64add (dec64 x) (dec64 y) = pack64 (if (val16 x).toRat + (val16 y).toRat < 0 then 1 else 0) (rne64 v) := by
  obtain ⟨z, hd, hz⟩ := exists_fraction ((val16 x).toRat + (val16 y).toRat)
  have hn : z.num ≠ 0 := by rwa [Ne, Fraction.num_eq_zero_iff hd, hz]
  refine ⟨z.abs, hd, by rw [Fraction.abs_toRat, hz], ?_⟩
  rw [f64add_of_sum_ne_zero (isFinite_dec64 hx) (isFinite_dec64 hy) hd hn (by rw [hz, val64_dec64 hx, val64_dec64 hy])]
  simp only [Fraction.num_neg_iff hd, hz]

section Nonzero
variable (x0 : category16 x ≠ .zero) (y0 : category16 y ≠ .zero)
include x0 y0

theorem f64mul_dec64_eq_pack64 :
    ∃ v : Fraction, 0 < v.den ∧ v.toRat = |(val16 x).toRat| * |(val16 y).toRat| ∧
      f64mul (dec64 x) (dec64 y) = pack64 (sign16 x ^^^ sign16 y) (rne64 v) := by
  obtain ⟨z, hd, hz⟩ := exists_fraction (|(val16 x).toRat| * |(val16 y).toRat|)
  rw [Ne, ← category64_dec64_eq_zero_iff] at x0 y0
  refine ⟨z, hd, hz, ?_⟩
  rw [f64mul_of_nonzero (isFinite_dec64 hx) (isFinite_dec64 hy) x0 y0 hd (by rw [hz, val64_dec64 hx, val64_dec64 hy]), sign64_dec64,
    sign64_dec64]

theorem f64div_dec64_eq_pack64 :
    ∃ v : Fraction, 0 < v.den ∧ v.toRat = |(val16 x).toRat| / |(val16 y).toRat| ∧
      f64div (dec64 x) (dec64 y) = pack64 (sign16 x ^^^ sign16 y) (rne64 v) := by
  obtain ⟨z, hd, hz⟩ := exists_fraction (|(val16 x).toRat| / |(val16 y).toRat|)
  rw [Ne, ← category64_dec64_eq_zero_iff] at x0 y0
  refine ⟨z, hd, hz, ?_⟩
  rw [f64div_of_nonzero (isFinite_dec64 hx) (isFinite_dec64 hy) x0 y0 hd (by rw [hz, val64_dec64 hx, val64_dec64 hy]), sign64_dec64,
    sign64_dec64]

end Nonzero

theorem category64_f64add_dec64 :
    category64 (f64add (dec64 x) (dec64 y)) = .zero ∨ category64 (f64add (dec64 x) (dec64 y)) = .normalized := by
  by_cases sum : (val16 x).toRat + (val16 y).toRat = 0
  · left
    rw [f64add_of_sum_eq_zero (isFinite_dec64 hx) (isFinite_dec64 hy) (by rw [val64_dec64 hx, val64_dec64 hy, sum])]
    split
    · exact category64_zero64 1
    · exact category64_zero64 0
  · right
    obtain ⟨v, hd, hv, e⟩ := f64add_dec64_eq_pack64 hx hy sum
    rw [e]
    exact (pack64_of_wideNormal hd (hv ▸ sum_wideNormal hx hy sum) _).1

theorem category64_f64mul_dec64 :
    category64 (f64mul (dec64 x) (dec64 y)) = .zero ∨ category64 (f64mul (dec64 x) (dec64 y)) = .normalized := by
  by_cases x0 : category16 x = .zero
  · rw [f64mul_of_zero ((category64_dec64_eq_zero_iff x).mpr x0) (isFinite_dec64 hy)]
    exact .inl (category64_zero64 _)
  by_cases y0 : category16 y = .zero
  · rw [f64mul_comm, f64mul_of_zero ((category64_dec64_eq_zero_iff y).mpr y0) (isFinite_dec64 hx)]
    exact .inl (category64_zero64 _)
  · obtain ⟨v, hd, hv, e⟩ := f64mul_dec64_eq_pack64 hx hy x0 y0
    rw [e]
    exact .inr (pack64_of_wideNormal hd (hv ▸ mul_wideNormal hx hy x0 y0) _).1

theorem category64_f64div_dec64 (y0 : category16 y ≠ .zero) :
    category64 (f64div (dec64 x) (dec64 y)) = .zero ∨ category64 (f64div (dec64 x) (dec64 y)) = .normalized := by
  by_cases x0 : category16 x = .zero
  · rw [f64div_of_zero_left ((category64_dec64_eq_zero_iff x).mpr x0) (isFinite_dec64 hy) (mt (category64_dec64_eq_zero_iff y).mp y0)]
    exact .inl (category64_zero64 _)
  · obtain ⟨v, hd, hv, e⟩ := f64div_dec64_eq_pack64 hx hy x0 y0
    rw [e]
    exact .inr (pack64_of_wideNormal hd (hv ▸ div_wideNormal hx hy x0 y0) _).1

end Wide

/-- Settles O51: a nonzero result is packed from a number in the normal range; SUB adds the operand with its sign toggled. -/
theorem wideOperationsStayNormal : Obligations.WideOperationsStayNormal := by
  intro x y hx hy r mem
  rw [List.mem_append] at mem
  rcases mem with mem | mem
  · simp only [List.mem_cons, List.not_mem_nil, or_false] at mem
    obtain rfl | rfl | rfl := mem
    · exact category64_f64add_dec64 hx hy
    · rw [f64sub_eq_f64add, ← dec64_toggle]
      exact category64_f64add_dec64 hx (by rwa [category16_toggle])
    · exact category64_f64mul_dec64 hx hy
  · split_ifs at mem with y0
    · cases mem
    · rw [List.mem_singleton.mp mem]
      exact category64_f64div_dec64 hx hy y0

end Sys2Proof.Machine
end

section
/-!
PROOFS. The pattern that each arithmetic operation answers (42_arithmetic.md R120), arm by arm: a default NaN, an infinity, a zero, or for
finite operands the exact result rounded once (R129).
-/

namespace Sys2Proof.Machine

/-! ## The results that the encoder is given -/

theorem enc64_dnan : enc64 dnan = 0x7E00 := by decide +kernel

theorem enc64_inf64 (S : BitVec 1) : enc64 (inf64 S) = S ++ 0x7C00#15 := by
  have inf : category64 (inf64 S) = .infinity := category64_special S _
  rw [enc64_of_infinity inf, inf64, sign64_append]

theorem enc64_zero64 (S : BitVec 1) : enc64 (zero64 S) = S ++ 0#15 := by
  rw [enc64, category64_zero64, sign64_zero64]
  rfl

theorem dec64_eq_negative_zero_iff {h : Half} (fin : (category16 h).isFinite) : dec64 h = 0x8000000000000000 ↔ h = 0x8000 := by
  refine ⟨fun e => ?_, fun e => e ▸ by decide⟩
  rw [← enc64_dec64_of_isFinite fin, e]
  decide

/-- A number that binary64 holds exactly is rounded once. -/
theorem enc64_pack64_of_exact {v : Fraction} {M : ℕ} {e : ℤ} (S : BitVec 1) (hd : 0 < v.den) (normal : WideNormal v.toRat)
    (hM : M < 2 ^ 53) (val : v.toRat = M * 2 ^ e) : enc64 (pack64 S (rne64 v)) = S ++ BitVec.ofNat 15 (roundHalf v.toRat) := by
  rw [enc64_pack64 hd normal, wideRounded_of_exact hd normal hM val]

/-- A quotient of 11-bit significands answers as if it were rounded once. -/
theorem enc64_pack64_of_quotient {v : Fraction} {A B : ℕ} {e : ℤ} (S : BitVec 1) (hd : 0 < v.den) (normal : WideNormal v.toRat)
    (hA : A < 2 ^ 11) (hB : 0 < B) (hB' : B < 2 ^ 11) (val : v.toRat * B = A * 2 ^ e) :
    enc64 (pack64 S (rne64 v)) = S ++ BitVec.ofNat 15 (roundHalf v.toRat) := by
  obtain ⟨lo, -⟩ := floorLog2_of_wideNormal hd normal
  have one_le : (1 : ℚ) ≤ B := by exact_mod_cast hB
  have k_lt : (2 : ℚ) ^ floorLog2 v < 2 ^ (11 + e) :=
    calc (2 : ℚ) ^ floorLog2 v ≤ v.toRat * B := lo.trans (le_mul_of_one_le_right normal.pos.le one_le)
      _ < 2 ^ (11 + e) := val ▸ mul_lt_of_lt_two_pow e hA
  have := (zpow_lt_zpow_iff_right₀ one_lt_two).mp k_lt
  obtain ⟨a, ha⟩ := exists_multiple_of_le (u := floorLog2 v - 11) (e := e) (by omega) A
  rw [enc64_pack64 hd normal, roundHalf_wideRounded_of_quotient hd normal hB hB' (val.trans ha)]

/-! ## ADD, arm by arm -/

section Operands
variable {x y : Half}

theorem addHalf_comm (x y : Half) : addHalf x y = addHalf y x := congrArg enc64 (f64add_comm _ _)

theorem addHalf_of_nan (h : isNaN16 x = true ∨ isNaN16 y = true) : addHalf x y = 0x7E00 := by
  rw [← isNaN64_dec64, ← isNaN64_dec64] at h
  rw [addHalf, pipeline, f64add_of_nan h, enc64_dnan]

theorem addHalf_of_infinities (hx : category16 x = .infinity) (hy : category16 y = .infinity) :
    addHalf x y = if sign16 x = sign16 y then x else 0x7E00 := by
  rw [addHalf, pipeline, f64add_of_infinities ((category64_dec64_eq_infinity_iff x).mpr hx) ((category64_dec64_eq_infinity_iff y).mpr hy),
    sign64_dec64, sign64_dec64, apply_ite enc64, enc64_dec64_of_infinity hx, enc64_dnan]

theorem addHalf_of_infinity (hx : category16 x = .infinity) (hy : (category16 y).isFinite) : addHalf x y = x := by
  rw [addHalf, pipeline, f64add_of_infinity_left ((category64_dec64_eq_infinity_iff x).mpr hx) (isFinite_dec64 hy),
    enc64_dec64_of_infinity hx]

section Sum
variable (hx : (category16 x).isFinite) (hy : (category16 y).isFinite)
include hx hy

theorem addHalf_of_sum_eq_zero (h : (val16 x).toRat + (val16 y).toRat = 0) :
    addHalf x y = if x = 0x8000 ∧ y = 0x8000 then 0x8000 else 0x0000 := by
  rw [← val64_dec64 hx, ← val64_dec64 hy] at h
  rw [addHalf, pipeline, f64add_of_sum_eq_zero (isFinite_dec64 hx) (isFinite_dec64 hy) h, apply_ite enc64]
  exact if_congr (and_congr (dec64_eq_negative_zero_iff hx) (dec64_eq_negative_zero_iff hy)) (enc64_zero64 1) (enc64_zero64 0)

/-- R129, for ADD. -/
theorem addHalf_of_sum_ne_zero (ne : (val16 x).toRat + (val16 y).toRat ≠ 0) :
    addHalf x y = (if (val16 x).toRat + (val16 y).toRat < 0 then 1#1 else 0#1) ++
      BitVec.ofNat 15 (roundHalf |(val16 x).toRat + (val16 y).toRat|) := by
  obtain ⟨v, hd, hv, e⟩ := f64add_dec64_eq_pack64 hx hy ne
  obtain ⟨M, hM, grid⟩ := exists_abs_sum_eq hx hy
  rw [addHalf, pipeline, e, enc64_pack64_of_exact _ hd (hv ▸ sum_wideNormal hx hy ne) (hM.trans (by norm_num)) (hv.trans grid), hv]
  rfl

end Sum

/-! ## MUL, arm by arm -/

theorem mulHalf_comm (x y : Half) : mulHalf x y = mulHalf y x := congrArg enc64 (f64mul_comm _ _)

theorem mulHalf_of_nan (h : isNaN16 x = true ∨ isNaN16 y = true) : mulHalf x y = 0x7E00 := by
  rw [← isNaN64_dec64, ← isNaN64_dec64] at h
  rw [mulHalf, pipeline, f64mul_of_nan h, enc64_dnan]

theorem mulHalf_of_infinity_zero (hx : category16 x = .infinity) (hy : category16 y = .zero) : mulHalf x y = 0x7E00 := by
  rw [← category64_dec64_eq_infinity_iff] at hx
  rw [← category64_dec64_eq_zero_iff] at hy
  rw [mulHalf, pipeline, f64mul_of_infinity_zero hx hy, enc64_dnan]

theorem mulHalf_of_infinity (hx : category16 x = .infinity) (zero : category16 y ≠ .zero) (nan : category16 y ≠ .nan) :
    mulHalf x y = (sign16 x ^^^ sign16 y) ++ 0x7C00#15 := by
  rw [← category64_dec64_eq_infinity_iff] at hx
  rw [Ne, ← category64_dec64_eq_zero_iff] at zero
  rw [Ne, ← category64_dec64_eq_nan_iff] at nan
  rw [mulHalf, pipeline, f64mul_of_infinity hx zero nan, enc64_inf64, sign64_dec64, sign64_dec64]

theorem mulHalf_of_zero (hx : category16 x = .zero) (hy : (category16 y).isFinite) :
    mulHalf x y = (sign16 x ^^^ sign16 y) ++ 0#15 := by
  rw [← category64_dec64_eq_zero_iff] at hx
  rw [mulHalf, pipeline, f64mul_of_zero hx (isFinite_dec64 hy), enc64_zero64, sign64_dec64, sign64_dec64]

/-! ## DIV, arm by arm -/

theorem divHalf_of_nan (h : isNaN16 x = true ∨ isNaN16 y = true) : divHalf x y = 0x7E00 := by
  rw [← isNaN64_dec64, ← isNaN64_dec64] at h
  rw [divHalf, pipeline, f64div_of_nan h, enc64_dnan]

theorem divHalf_of_infinities (hx : category16 x = .infinity) (hy : category16 y = .infinity) : divHalf x y = 0x7E00 := by
  rw [← category64_dec64_eq_infinity_iff] at hx hy
  rw [divHalf, pipeline, f64div_of_infinities hx hy, enc64_dnan]

theorem divHalf_of_zeros (hx : category16 x = .zero) (hy : category16 y = .zero) : divHalf x y = 0x7E00 := by
  rw [← category64_dec64_eq_zero_iff] at hx hy
  rw [divHalf, pipeline, f64div_of_zeros hx hy, enc64_dnan]

theorem divHalf_of_infinity_left (hx : category16 x = .infinity) (hy : (category16 y).isFinite) :
    divHalf x y = (sign16 x ^^^ sign16 y) ++ 0x7C00#15 := by
  rw [← category64_dec64_eq_infinity_iff] at hx
  rw [divHalf, pipeline, f64div_of_infinity_left hx (isFinite_dec64 hy), enc64_inf64, sign64_dec64, sign64_dec64]

theorem divHalf_of_infinity_right (hx : (category16 x).isFinite) (hy : category16 y = .infinity) :
    divHalf x y = (sign16 x ^^^ sign16 y) ++ 0#15 := by
  rw [← category64_dec64_eq_infinity_iff] at hy
  rw [divHalf, pipeline, f64div_of_infinity_right (isFinite_dec64 hx) hy, enc64_zero64, sign64_dec64, sign64_dec64]

theorem divHalf_of_zero_right (hx : (category16 x).isFinite) (x0 : category16 x ≠ .zero) (hy : category16 y = .zero) :
    divHalf x y = (sign16 x ^^^ sign16 y) ++ 0x7C00#15 := by
  rw [Ne, ← category64_dec64_eq_zero_iff] at x0
  rw [← category64_dec64_eq_zero_iff] at hy
  rw [divHalf, pipeline, f64div_of_zero_right (isFinite_dec64 hx) x0 hy, enc64_inf64, sign64_dec64, sign64_dec64]

theorem divHalf_of_zero_left (hx : category16 x = .zero) (hy : (category16 y).isFinite) (y0 : category16 y ≠ .zero) :
    divHalf x y = (sign16 x ^^^ sign16 y) ++ 0#15 := by
  rw [← category64_dec64_eq_zero_iff] at hx
  rw [Ne, ← category64_dec64_eq_zero_iff] at y0
  rw [divHalf, pipeline, f64div_of_zero_left hx (isFinite_dec64 hy) y0, enc64_zero64, sign64_dec64, sign64_dec64]

/-! ## Products and quotients of finite operands -/

section Finite
variable (hx : (category16 x).isFinite) (hy : (category16 y).isFinite)
include hx hy

/-- R129, for MUL; a zero product too is the exact one. -/
theorem mulHalf_of_isFinite :
    mulHalf x y = (sign16 x ^^^ sign16 y) ++ BitVec.ofNat 15 (roundHalf (|(val16 x).toRat| * |(val16 y).toRat|)) := by
  by_cases x0 : category16 x = .zero
  · rw [mulHalf_of_zero x0 hy, (category16_zero_iff_toRat x).mp x0, abs_zero, zero_mul, roundHalf_zero]
  by_cases y0 : category16 y = .zero
  · rw [mulHalf_comm, mulHalf_of_zero y0 hx, (category16_zero_iff_toRat y).mp y0, abs_zero, mul_zero, roundHalf_zero, BitVec.xor_comm]
  obtain ⟨v, hd, hv, e⟩ := f64mul_dec64_eq_pack64 hx hy x0 y0
  obtain ⟨M, _, hM, -, -, grid⟩ := exists_abs_mul_eq hx hy
  rw [mulHalf, pipeline, e, enc64_pack64_of_exact _ hd (hv ▸ mul_wideNormal hx hy x0 y0) (hM.trans (by norm_num)) (hv.trans grid), hv]

/-- R129, for DIV; a zero quotient too is the exact one. -/
theorem divHalf_of_isFinite (y0 : category16 y ≠ .zero) :
    divHalf x y = (sign16 x ^^^ sign16 y) ++ BitVec.ofNat 15 (roundHalf (|(val16 x).toRat| / |(val16 y).toRat|)) := by
  by_cases x0 : category16 x = .zero
  · rw [divHalf_of_zero_left x0 hy y0, (category16_zero_iff_toRat x).mp x0, abs_zero, zero_div, roundHalf_zero]
  obtain ⟨v, hd, hv, e⟩ := f64div_dec64_eq_pack64 hx hy x0 y0
  obtain ⟨A, B, _, hA, hB, hB', -, -, quotient⟩ := exists_abs_div_mul_eq hx hy y0
  rw [divHalf, pipeline, e, enc64_pack64_of_quotient _ hd (hv ▸ div_wideNormal hx hy x0 y0) hA hB hB' (hv ▸ quotient), hv]

end Finite
end Operands

/-! ## Single rounding -/

/-- The rounded magnitude of a signed number, as R129 writes it. -/
theorem mag16_abs_eq_roundHalf {z : Fraction} (hd : 0 < z.den) (hn : z.num ≠ 0) : mag16 z.abs = roundHalf |z.toRat| := by
  have pos : 0 < z.abs.toRat := by rwa [Fraction.abs_toRat, abs_pos, Ne, ← Fraction.num_eq_zero_iff hd]
  rw [mag16_eq_roundHalf (v := z.abs) hd pos, Fraction.abs_toRat]

theorem addHalf_of_fraction {x y : Half} (hx : (category16 x).isFinite) (hy : (category16 y).isFinite) {z : Fraction} (hd : 0 < z.den)
    (hn : z.num ≠ 0) (hz : z.toRat = (val16 x).toRat + (val16 y).toRat) :
    addHalf x y = (if z.num < 0 then 1#1 else 0#1) ++ BitVec.ofNat 15 (mag16 z.abs) := by
  have ne : (val16 x).toRat + (val16 y).toRat ≠ 0 := by rwa [← hz, Ne, ← Fraction.num_eq_zero_iff hd]
  rw [addHalf_of_sum_ne_zero hx hy ne, mag16_abs_eq_roundHalf hd hn, hz]
  simp only [Fraction.num_neg_iff hd, hz]

/-- Settles O48, by `addHalf_of_fraction`; SUB adds the operand with its sign toggled. -/
theorem singleRoundingAddSub : Obligations.SingleRoundingAddSub := by
  intro x y hx hy
  refine ⟨fun z hd hn hz => gives16_add (addHalf_of_fraction hx hy hd hn hz), fun z hd hn hz => gives16_sub ?_⟩
  rw [subHalf_eq_addHalf]
  refine addHalf_of_fraction hx (by rwa [category16_toggle]) hd hn ?_
  rw [hz, val16_toggle, sub_eq_add_neg]

/-- The sign bit of a nonzero value. -/
theorem sign16_eq_ite {h : Half} (h0 : (val16 h).toRat ≠ 0) : sign16 h = if (val16 h).toRat < 0 then 1#1 else 0#1 := by
  have pos := abs_pos.mpr h0
  rw [abs_val16] at pos
  rw [val16_toRat]
  rcases BitVec.eq_zero_or_eq_one (sign16 h) with s | s
  · simp [s, pos.le]
  · simp [s, pos]

theorem sign_of_mul {a b : ℚ} (a0 : a ≠ 0) (b0 : b ≠ 0) :
    (if a * b < 0 then 1#1 else 0#1) = (if a < 0 then 1#1 else 0#1) ^^^ (if b < 0 then 1#1 else 0#1) := by
  rcases lt_or_gt_of_ne a0 with ha | ha <;> rcases lt_or_gt_of_ne b0 with hb | hb
  · simp [ha, hb, (mul_pos_of_neg_of_neg ha hb).not_gt]
  · simp [ha, hb.not_gt, mul_neg_of_neg_of_pos ha hb]
  · simp [ha.not_gt, hb, mul_neg_of_pos_of_neg ha hb]
  · simp [ha.not_gt, hb.not_gt, (mul_pos ha hb).not_gt]

/-- The exclusive or of the signs is the sign of the product. -/
theorem sign16_xor_eq_ite {x y : Half} (h : (val16 x).toRat * (val16 y).toRat ≠ 0) :
    sign16 x ^^^ sign16 y = if (val16 x).toRat * (val16 y).toRat < 0 then 1#1 else 0#1 := by
  rw [sign16_eq_ite (left_ne_zero_of_mul h), sign16_eq_ite (right_ne_zero_of_mul h),
    sign_of_mul (left_ne_zero_of_mul h) (right_ne_zero_of_mul h)]

/-- Settles O49: MUL rounds the exact magnitude once, and the exclusive or of the signs is the product's sign. -/
theorem singleRoundingMul : Obligations.SingleRoundingMul := by
  intro x y z hx hy hd hn hz
  have ne : (val16 x).toRat * (val16 y).toRat ≠ 0 := by rwa [← hz, Ne, ← Fraction.num_eq_zero_iff hd]
  refine gives16_mul ?_
  rw [mulHalf_of_isFinite hx hy, mag16_abs_eq_roundHalf hd hn, hz, abs_mul, sign16_xor_eq_ite ne]
  simp only [Fraction.num_neg_iff hd, hz]

/-- Settles O50: DIV answers as if it rounded once (`divHalf_of_isFinite`), and a quotient has the sign of the product. -/
theorem singleRoundingDiv : Obligations.SingleRoundingDiv := by
  intro x y z hx hy y0 hd hn hz
  have ne : (val16 x).toRat / (val16 y).toRat ≠ 0 := by rwa [← hz, Ne, ← Fraction.num_eq_zero_iff hd]
  have mul_ne : (val16 x).toRat * (val16 y).toRat ≠ 0 := mul_ne_zero_iff.mpr (div_ne_zero_iff.mp ne)
  have sign : (val16 x).toRat / (val16 y).toRat < 0 ↔ (val16 x).toRat * (val16 y).toRat < 0 := div_neg_iff.trans mul_neg_iff.symm
  refine gives16_div ?_
  rw [divHalf_of_isFinite hx hy y0, mag16_abs_eq_roundHalf hd hn, hz, abs_div, sign16_xor_eq_ite mul_ne]
  simp only [Fraction.num_neg_iff hd, hz, sign]

end Sys2Proof.Machine
end

section
/-!
PROOFS. The operands at which ADD, SUB, MUL and DIV answer the default NaN (42_arithmetic.md R135), the sign of a zero result (R137), and
the laws R131 and R132. Elsewhere than at invalid operands a result is a magnitude of at most 0x7C00 under a sign.
-/

namespace Sys2Proof.Machine

/-! ## Patterns -/

/-- A sign over a magnitude of at most 0x7C00 is not the default NaN. -/
theorem magnitude_ne_7E00 (S : BitVec 1) {m : ℕ} (h : m ≤ 0x7C00) : S ++ BitVec.ofNat 15 m ≠ 0x7E00 := by
  intro e
  have low := congrArg (fun r : Half => (r.extractLsb' 0 15).toNat) e
  simp only [magnitude16_append, toNat_ofNat_of_lt (show m < 2 ^ 15 by omega)] at low
  rw [low] at h
  exact absurd h (by decide)

theorem infinity16_append (S : BitVec 1) : S ++ 0x7C00#15 = S ++ BitVec.ofNat 15 0x7C00 := rfl

theorem category16_magnitude_zero_iff (S : BitVec 1) (M : BitVec 15) : category16 (S ++ M) = .zero ↔ M.toNat = 0 := by
  rw [category16_zero_iff_toRat, ← abs_eq_zero, val16_magnitude, abs_signed _ (halfValue_nonneg _), ← halfValue_zero,
    halfValue_strictMono.injective.eq_iff]

/-! ## Where the operations are invalid -/

/-- R135, for ADD: a NaN operand, or two infinities of opposite signs. -/
def AddInvalid (x y : Half) : Prop :=
  (isNaN16 x = true ∨ isNaN16 y = true) ∨ (category16 x = .infinity ∧ category16 y = .infinity) ∧ sign16 x ≠ sign16 y

/-- R135, for MUL: a NaN operand, or an infinity and a zero. -/
def MulInvalid (x y : Half) : Prop :=
  (isNaN16 x = true ∨ isNaN16 y = true) ∨ (category16 x = .infinity ∧ category16 y = .zero) ∨
    (category16 x = .zero ∧ category16 y = .infinity)

/-- R135, for DIV: a NaN operand, two infinities or two zeros. -/
def DivInvalid (x y : Half) : Prop :=
  (isNaN16 x = true ∨ isNaN16 y = true) ∨ (category16 x = .infinity ∧ category16 y = .infinity) ∨
    (category16 x = .zero ∧ category16 y = .zero)

theorem not_nan_operands {x y : Half} (h : ¬ (isNaN16 x = true ∨ isNaN16 y = true)) :
    ((category16 x).isFinite ∨ category16 x = .infinity) ∧ ((category16 y).isFinite ∨ category16 y = .infinity) := by
  rw [not_or, Bool.not_eq_true, Bool.not_eq_true] at h
  exact ⟨not_nan_cases h.1, not_nan_cases h.2⟩

section Operands
variable {x y : Half}

theorem addHalf_of_invalid (h : AddInvalid x y) : addHalf x y = 0x7E00 := by
  obtain nan | ⟨⟨hx, hy⟩, opposite⟩ := h
  · exact addHalf_of_nan nan
  · rw [addHalf_of_infinities hx hy, if_neg opposite]

theorem addHalf_of_valid (h : ¬ AddInvalid x y) : ∃ S : BitVec 1, ∃ m ≤ 0x7C00, addHalf x y = S ++ BitVec.ofNat 15 m := by
  obtain ⟨nan, opposite⟩ := not_or.mp h
  obtain ⟨hx | hx, hy | hy⟩ := not_nan_operands nan
  · by_cases sum : (val16 x).toRat + (val16 y).toRat = 0
    · rw [addHalf_of_sum_eq_zero hx hy sum]
      split
      · exact ⟨1#1, 0, by decide, rfl⟩
      · exact ⟨0#1, 0, by decide, rfl⟩
    · exact ⟨_, _, roundHalf_le (abs_nonneg _), addHalf_of_sum_ne_zero hx hy sum⟩
  · exact ⟨sign16 y, 0x7C00, le_rfl, by rw [addHalf_comm, addHalf_of_infinity hy hx, ← infinity16_append, sign16_append_infinity hy]⟩
  · exact ⟨sign16 x, 0x7C00, le_rfl, by rw [addHalf_of_infinity hx hy, ← infinity16_append, sign16_append_infinity hx]⟩
  · have same : sign16 x = sign16 y := by_contra fun ne => opposite ⟨⟨hx, hy⟩, ne⟩
    exact ⟨sign16 x, 0x7C00, le_rfl, by
      rw [addHalf_of_infinities hx hy, if_pos same, ← infinity16_append, sign16_append_infinity hx]⟩

theorem addHalf_eq_7E00_iff : addHalf x y = 0x7E00 ↔ AddInvalid x y := by
  refine ⟨fun nan => ?_, addHalf_of_invalid⟩
  by_contra valid
  obtain ⟨S, m, le, e⟩ := addHalf_of_valid valid
  exact magnitude_ne_7E00 S le (e ▸ nan)

theorem mulHalf_of_invalid (h : MulInvalid x y) : mulHalf x y = 0x7E00 := by
  obtain nan | ⟨hx, hy⟩ | ⟨hx, hy⟩ := h
  · exact mulHalf_of_nan nan
  · exact mulHalf_of_infinity_zero hx hy
  · rw [mulHalf_comm, mulHalf_of_infinity_zero hy hx]

theorem ne_nan_of_isFinite_or_infinity {h : Half} (c : (category16 h).isFinite ∨ category16 h = .infinity) : category16 h ≠ .nan := by
  rintro nan
  rw [nan] at c
  exact absurd c (by decide)

/-- R127: every product that is no NaN has the exclusive or of the signs. -/
theorem mulHalf_of_valid (h : ¬ MulInvalid x y) : ∃ m ≤ 0x7C00, mulHalf x y = (sign16 x ^^^ sign16 y) ++ BitVec.ofNat 15 m := by
  obtain ⟨nan, invalid⟩ := not_or.mp h
  obtain ⟨left, right⟩ := not_or.mp invalid
  obtain ⟨cx, cy⟩ := not_nan_operands nan
  by_cases hx : category16 x = .infinity
  · refine ⟨0x7C00, le_rfl, ?_⟩
    rw [mulHalf_of_infinity hx (fun zero => left ⟨hx, zero⟩) (ne_nan_of_isFinite_or_infinity cy), infinity16_append]
  by_cases hy : category16 y = .infinity
  · refine ⟨0x7C00, le_rfl, ?_⟩
    rw [mulHalf_comm, mulHalf_of_infinity hy (fun zero => right ⟨zero, hy⟩) (ne_nan_of_isFinite_or_infinity cx), infinity16_append,
      BitVec.xor_comm]
  · exact ⟨_, roundHalf_le (by positivity), mulHalf_of_isFinite (cx.resolve_right hx) (cy.resolve_right hy)⟩

theorem mulHalf_eq_7E00_iff : mulHalf x y = 0x7E00 ↔ MulInvalid x y := by
  refine ⟨fun nan => ?_, mulHalf_of_invalid⟩
  by_contra valid
  obtain ⟨m, le, e⟩ := mulHalf_of_valid valid
  exact magnitude_ne_7E00 _ le (e ▸ nan)

theorem divHalf_of_invalid (h : DivInvalid x y) : divHalf x y = 0x7E00 := by
  obtain nan | ⟨hx, hy⟩ | ⟨hx, hy⟩ := h
  · exact divHalf_of_nan nan
  · exact divHalf_of_infinities hx hy
  · exact divHalf_of_zeros hx hy

theorem divHalf_of_valid (h : ¬ DivInvalid x y) : ∃ m ≤ 0x7C00, divHalf x y = (sign16 x ^^^ sign16 y) ++ BitVec.ofNat 15 m := by
  obtain ⟨nan, invalid⟩ := not_or.mp h
  obtain ⟨infinities, zeros⟩ := not_or.mp invalid
  obtain ⟨hx | hx, hy | hy⟩ := not_nan_operands nan
  · by_cases y0 : category16 y = .zero
    · refine ⟨0x7C00, le_rfl, ?_⟩
      rw [divHalf_of_zero_right hx (fun x0 => zeros ⟨x0, y0⟩) y0, infinity16_append]
    · exact ⟨_, roundHalf_le (by positivity), divHalf_of_isFinite hx hy y0⟩
  · exact ⟨0, by decide, divHalf_of_infinity_right hx hy⟩
  · exact ⟨0x7C00, le_rfl, divHalf_of_infinity_left hx hy⟩
  · exact absurd ⟨hx, hy⟩ infinities

theorem divHalf_eq_7E00_iff : divHalf x y = 0x7E00 ↔ DivInvalid x y := by
  refine ⟨fun nan => ?_, divHalf_of_invalid⟩
  by_contra valid
  obtain ⟨m, le, e⟩ := divHalf_of_valid valid
  exact magnitude_ne_7E00 _ le (e ▸ nan)

/-! ## SUB through ADD -/

theorem isNaN16_toggle (h : Half) : isNaN16 (h ^^^ 0x8000) = isNaN16 h := by rw [isNaN16, category16_toggle, isNaN16]

theorem toggle16_eq_iff {h k : Half} : h ^^^ 0x8000 = k ↔ h = k ^^^ 0x8000 :=
  ⟨fun e => by rw [← e, toggle16_toggle16], fun e => by rw [e, toggle16_toggle16]⟩

/-- R135, for SUB: a NaN operand, or an infinity minus itself. -/
theorem subHalf_eq_7E00_iff : subHalf x y = 0x7E00 ↔ (isNaN16 x = true ∨ isNaN16 y = true) ∨
    (category16 x = .infinity ∧ category16 y = .infinity) ∧ sign16 x = sign16 y := by
  have opposite : ∀ S T : BitVec 1, S ≠ T ^^^ 1#1 ↔ S = T := by decide
  rw [subHalf_eq_addHalf, addHalf_eq_7E00_iff, AddInvalid, isNaN16_toggle, category16_toggle, sign16_toggle, opposite]

/-! ## Zero results -/

theorem sum_eq_zero_of_zeros (hx : category16 x = .zero) (hy : category16 y = .zero) : (val16 x).toRat + (val16 y).toRat = 0 := by
  rw [(category16_zero_iff_toRat x).mp hx, (category16_zero_iff_toRat y).mp hy, add_zero]

/-- A nonzero sum is at least the least value, so it is not rounded to zero. -/
theorem roundHalf_sum_ne_zero (hx : (category16 x).isFinite) (hy : (category16 y).isFinite)
    (ne : (val16 x).toRat + (val16 y).toRat ≠ 0) : roundHalf |(val16 x).toRat + (val16 y).toRat| ≠ 0 := by
  obtain ⟨M, -, e⟩ := exists_abs_sum_eq hx hy
  have least : halfValue 1 = 2 ^ (-24 : ℤ) := by norm_num [halfValue, fieldsMagnitude]
  have ge : halfValue 1 ≤ |(val16 x).toRat + (val16 y).toRat| := by
    rw [least, e]
    exact two_zpow_le_multiple (e ▸ abs_pos.mpr ne)
  have round := roundHalf_mono (halfValue_nonneg 1) ge
  rw [roundHalf_halfValue (by norm_num)] at round
  omega

/-- R137: a sum that is a zero is the exact zero of finite operands. -/
theorem sum_eq_zero_of_addHalf_zero (h : category16 (addHalf x y) = .zero) :
    (category16 x).isFinite ∧ (category16 y).isFinite ∧ (val16 x).toRat + (val16 y).toRat = 0 := by
  have notNan : category16 0x7E00 ≠ .zero := by decide
  have notInf (z : Half) (inf : category16 z = .infinity) : category16 z ≠ .zero := by rw [inf]; decide
  by_cases invalid : AddInvalid x y
  · rw [addHalf_of_invalid invalid] at h
    exact absurd h notNan
  obtain ⟨nan, -⟩ := not_or.mp invalid
  obtain ⟨hx | hx, hy | hy⟩ := not_nan_operands nan
  · refine ⟨hx, hy, by_contra fun ne => ?_⟩
    rw [addHalf_of_sum_ne_zero hx hy ne, category16_magnitude_zero_iff, toNat_ofNat_roundHalf (abs_nonneg _)] at h
    exact roundHalf_sum_ne_zero hx hy ne h
  · rw [addHalf_comm, addHalf_of_infinity hy hx] at h
    exact absurd h (notInf y hy)
  · rw [addHalf_of_infinity hx hy] at h
    exact absurd h (notInf x hx)
  · rw [addHalf_of_infinities hx hy] at h
    split at h
    · exact absurd h (notInf x hx)
    · exact absurd h notNan

theorem addHalf_eq_8000_iff : addHalf x y = 0x8000 ↔ x = 0x8000 ∧ y = 0x8000 := by
  refine ⟨fun h => ?_, ?_⟩
  · obtain ⟨hx, hy, sum⟩ := sum_eq_zero_of_addHalf_zero (h ▸ by decide : category16 (addHalf x y) = .zero)
    rw [addHalf_of_sum_eq_zero hx hy sum] at h
    by_contra notBoth
    rw [if_neg notBoth] at h
    exact absurd h (by decide)
  · rintro ⟨rfl, rfl⟩
    rw [addHalf_of_sum_eq_zero (by decide) (by decide) (sum_eq_zero_of_zeros (by decide) (by decide)), if_pos ⟨rfl, rfl⟩]

theorem sign16_of_magnitude {S : BitVec 1} {r : Half} (h : ∃ m ≤ 0x7C00, r = S ++ BitVec.ofNat 15 m) : sign16 r = S := by
  obtain ⟨m, -, rfl⟩ := h
  exact sign16_magnitude S _

theorem sign16_mulHalf (h : mulHalf x y ≠ 0x7E00) : sign16 (mulHalf x y) = sign16 x ^^^ sign16 y :=
  sign16_of_magnitude (mulHalf_of_valid (mt mulHalf_of_invalid h))

theorem sign16_divHalf (h : divHalf x y ≠ 0x7E00) : sign16 (divHalf x y) = sign16 x ^^^ sign16 y :=
  sign16_of_magnitude (divHalf_of_valid (mt divHalf_of_invalid h))

end Operands

/-- Settles O54: each operation answers 0x7E00 where it is invalid, and elsewhere a magnitude of at most 0x7C00 under a sign. -/
theorem arithmeticNaNExactly : Obligations.ArithmeticNaNExactly := fun _ _ s =>
  ⟨_, _, _, _, exec_eq _ s, exec_eq _ s, exec_eq _ s, exec_eq _ s, addHalf_eq_7E00_iff, subHalf_eq_7E00_iff, mulHalf_eq_7E00_iff,
    divHalf_eq_7E00_iff⟩

/-- Settles O55: a zero sum is exact, and a product or quotient that is no NaN has the exclusive or of the signs. -/
theorem signOfZeroResults : Obligations.SignOfZeroResults := by
  intro x y s
  refine ⟨_, _, _, _, exec_eq _ s, exec_eq _ s, exec_eq _ s, exec_eq _ s, ?_⟩
  simp only [instrOutputs]
  have notNan {r : Half} (zero : category16 r = .zero) : r ≠ 0x7E00 := by
    rintro rfl
    exact absurd zero (by decide)
  have negated : subHalf x y = 0x8000 ↔ x = 0x8000 ∧ y = 0x0000 := by
    rw [subHalf_eq_addHalf, addHalf_eq_8000_iff, toggle16_eq_iff]
    rfl
  refine ⟨addHalf_eq_8000_iff, negated, fun hx hy => ⟨fun sum notBoth => ?_, fun sum notBoth => ?_, fun ne zero => ?_, fun ne zero => ?_⟩,
    fun zero => sign16_mulHalf (notNan zero), fun zero => sign16_divHalf (notNan zero)⟩
  · rw [addHalf_of_sum_eq_zero hx hy sum, if_neg notBoth]
  · rw [sub_eq_add_neg, ← val16_toggle] at sum
    rw [subHalf_eq_addHalf, addHalf_of_sum_eq_zero hx (by rwa [category16_toggle]) sum, if_neg]
    rwa [toggle16_eq_iff]
  · exact ne (sum_eq_zero_of_addHalf_zero zero).2.2
  · rw [subHalf_eq_addHalf] at zero
    rw [sub_eq_add_neg, ← val16_toggle] at ne
    exact ne (sum_eq_zero_of_addHalf_zero zero).2.2

/-! ## Laws -/

/-- Settles O52: SUB adds the operand with its sign toggled, which is what NEG answers. -/
theorem subIsAddOfNegated : Obligations.SubIsAddOfNegated := by
  refine ⟨fun x y s => ⟨_, _, exec_eq _ s, exec_eq _ s, ?_⟩, gives16_neg rfl, gives16_sub ?_,
    fun x nan => ⟨gives16_neg rfl, gives16_sub (subHalf_eq_7E00_iff.mpr (.inl (.inr nan)))⟩⟩
  · have same : instrOutputs (.sub x y) = instrOutputs (.add x (y ^^^ 0x8000)) := by
      rw [instrOutputs, instrOutputs, subHalf_eq_addHalf]
    rw [exec_eq, same]
    rfl
  · rw [subHalf_eq_addHalf, addHalf_of_sum_eq_zero (by decide) (by decide) (sum_eq_zero_of_zeros (by decide) (by decide))]
    decide

/-- Settles O53: the arms of R121 and R122 are symmetric in the operands. -/
theorem addAndMulCommute : Obligations.AddAndMulCommute := by
  refine fun x y s => ⟨⟨_, exec_eq _ s, ?_⟩, ⟨_, exec_eq _ s, ?_⟩⟩
  · rw [exec_eq, instrOutputs, instrOutputs, addHalf_comm]
  · rw [exec_eq, instrOutputs, instrOutputs, mulHalf_comm]

end Sys2Proof.Machine
end

section
/-!
PROOFS. ADD, SUB, MUL and DIV as their rules drive them (42_arithmetic.md R125 to R128), and compound assignment (R133).
-/

namespace Sys2Proof.Machine

/-! ## The pipeline on the ports -/

/-- R120 on the ports: an operation that drives the pipeline of `f` answers the state that DEC64 of both operands, `f` and ENC64 give. -/
theorem exec_eq_pipeline {i : Instr} {f : Wide → Wide → Wide} {x y : Half} (h : instrOutputs i = ⟨pipeline f x y, 0, false⟩) (s : State) :
    ∃ a b t, exec (.dec64 x) s = .next a ∧ exec (.dec64 y) s = .next b ∧
      exec (.enc64 (f a.outs.r64 b.outs.r64)) s = .next t ∧ exec i s = .next t ∧ t.outs = ⟨pipeline f x y, 0, false⟩ :=
  ⟨s.driveWide (dec64 x), s.driveWide (dec64 y), s.driveHalf (pipeline f x y), rfl, rfl, rfl, by rw [exec_eq, h]; rfl, rfl⟩

theorem sign16_toggle_ne (h : Half) : sign16 h ≠ sign16 (h ^^^ 0x8000) := by
  have differ : ∀ S : BitVec 1, S ≠ S ^^^ 1#1 := by decide
  rw [sign16_toggle]
  exact differ _

theorem val16_add_toggle (h : Half) : (val16 h).toRat + (val16 (h ^^^ 0x8000)).toRat = 0 := by rw [val16_toggle, add_neg_cancel]

/-- Neither zero of two operands that are each other's negation is `-0` for both. -/
theorem not_both_negative_zero (h : Half) : ¬ (h = 0x8000 ∧ h ^^^ 0x8000 = 0x8000) := by
  rintro ⟨rfl, e⟩
  exact absurd e (by decide)

theorem addHalf_toggle {h : Half} (fin : (category16 h).isFinite) : addHalf h (h ^^^ 0x8000) = 0x0000 := by
  rw [addHalf_of_sum_eq_zero fin (by rwa [category16_toggle]) (val16_add_toggle h), if_neg (not_both_negative_zero h)]

theorem addHalf_infinity_toggle {h : Half} (inf : category16 h = .infinity) : addHalf h (h ^^^ 0x8000) = 0x7E00 := by
  rw [addHalf_of_infinities inf (by rwa [category16_toggle]), if_neg (sign16_toggle_ne h)]

theorem addHalf_infinity_self {h : Half} (inf : category16 h = .infinity) : addHalf h h = h := by
  rw [addHalf_of_infinities inf inf, if_pos rfl]

/-- Settles O44: the clauses at general operands are the arms of ADD, and the corner cases are evaluated. -/
theorem addDrivesItsRule : Obligations.AddDrivesItsRule := by
  refine ⟨fun p s code => ⟨by simp [decode, code], ?_⟩, fun x y nan => gives16_add (addHalf_of_nan nan), fun x y hx hy => ⟨?_, ?_⟩,
    fun x inf => ⟨gives16_add (addHalf_infinity_self inf), gives16_add (addHalf_infinity_toggle inf)⟩,
    fun x fin => gives16_add (addHalf_toggle fin), ?_, ?_, ?_, ?_, ?_, ?_, ?_, ?_, ?_, ?_⟩
  · obtain ⟨a, b, t, ha, hb, ht, hi, outs⟩ := exec_eq_pipeline (i := .add p.x p.y) (f := f64add) rfl s
    exact ⟨a, b, t, ha, hb, ht, hi, by rw [outs], by rw [outs]⟩
  · exact gives16_add (addHalf_of_infinity hx hy)
  · exact gives16_add ((addHalf_comm y x).trans (addHalf_of_infinity hx hy))
  all_goals exact gives16_add (by decide +kernel)

/-- Settles O45: SUB is ADD of the operand with its sign toggled, so its clauses are those of ADD. -/
theorem subDrivesItsRule : Obligations.SubDrivesItsRule := by
  refine ⟨fun p s code => ⟨by simp [decode, code], ?_⟩, fun x y nan => gives16_sub (subHalf_eq_7E00_iff.mpr (.inl nan)),
    fun x y hx hy => ⟨gives16_sub ?_, gives16_sub ?_⟩, fun x inf => ⟨gives16_sub ?_, gives16_sub ?_⟩, fun x fin => gives16_sub ?_,
    ?_, ?_, ?_, ?_, ?_, ?_⟩
  · obtain ⟨a, b, t, ha, hb, ht, hi, outs⟩ := exec_eq_pipeline (i := .sub p.x p.y) (f := f64sub) rfl s
    exact ⟨a, b, t, ha, hb, ht, hi, by rw [outs], by rw [outs]⟩
  · rw [subHalf_eq_addHalf, addHalf_of_infinity hx (by rwa [category16_toggle])]
  · rw [subHalf_eq_addHalf, addHalf_comm, addHalf_of_infinity (by rwa [category16_toggle]) hy]
  · rw [subHalf_eq_addHalf, addHalf_infinity_toggle inf]
  · rw [subHalf_eq_addHalf, toggle16_toggle16, addHalf_infinity_self inf]
  · rw [subHalf_eq_addHalf, addHalf_toggle fin]
  all_goals exact gives16_sub (by decide +kernel)

/-- Settles O46: the clauses at general operands are the arms of MUL in either order, and the corner cases are evaluated. -/
theorem mulDrivesItsRule : Obligations.MulDrivesItsRule := by
  refine ⟨fun p s code => ⟨by simp [decode, code], ?_⟩, fun x y nan => gives16_mul (mulHalf_of_nan nan),
    fun x y hx hy => ⟨gives16_mul ?_, gives16_mul ?_⟩, fun x y hx y0 nan => ⟨gives16_mul ?_, gives16_mul ?_⟩,
    fun x y hx hy => ⟨gives16_mul ?_, gives16_mul ?_⟩, ?_, ?_, ?_, ?_, ?_, ?_, ?_, ?_, ?_, ?_⟩
  · obtain ⟨a, b, t, ha, hb, ht, hi, outs⟩ := exec_eq_pipeline (i := .mul p.x p.y) (f := f64mul) rfl s
    refine ⟨a, b, t, ha, hb, ht, hi, by rw [outs], by rw [outs], fun not_nan => ?_⟩
    have ne : mulHalf p.x p.y ≠ 0x7E00 := by
      rintro e
      rw [outs, ← mulHalf, e] at not_nan
      exact absurd not_nan (by decide)
    rw [outs, ← getLsbD_sign16, ← getLsbD_sign16, ← getLsbD_sign16, ← BitVec.getLsbD_xor, ← sign16_mulHalf ne, mulHalf]
  · exact mulHalf_of_infinity_zero hx hy
  · rw [mulHalf_comm, mulHalf_of_infinity_zero hx hy]
  · exact mulHalf_of_infinity hx y0 nan
  · rw [mulHalf_comm, mulHalf_of_infinity hx y0 nan]
  · exact mulHalf_of_zero hx hy
  · rw [mulHalf_comm, mulHalf_of_zero hx hy]
  all_goals exact gives16_mul (by decide +kernel)

/-- Settles O47: the clauses at general operands are the arms of DIV, and the corner cases are evaluated. -/
theorem divDrivesItsRule : Obligations.DivDrivesItsRule := by
  refine ⟨fun p s code => ⟨by simp [decode, code], ?_⟩, fun x y nan => gives16_div (divHalf_of_nan nan),
    fun x y hx hy => gives16_div (divHalf_of_infinities hx hy), fun x y hx hy => gives16_div (divHalf_of_zeros hx hy),
    fun x y hx hy => ⟨gives16_div (divHalf_of_infinity_left hx hy), gives16_div ?_⟩,
    fun x y hx hy y0 => ⟨gives16_div (divHalf_of_zero_left hx hy y0), gives16_div ?_⟩, ?_, ?_, ?_, ?_, ?_, ?_,
    ?_, ?_, ?_, ?_, ?_, ?_, ?_⟩
  · obtain ⟨a, b, t, ha, hb, ht, hi, outs⟩ := exec_eq_pipeline (i := .div p.x p.y) (f := f64div) rfl s
    exact ⟨a, b, t, ha, hb, ht, hi, by rw [outs], by rw [outs]⟩
  · rw [divHalf_of_infinity_right hy hx, BitVec.xor_comm]
  · rw [divHalf_of_zero_right hy y0 hx, BitVec.xor_comm]
  all_goals exact gives16_div (by decide +kernel)

/-! ## Compound assignment -/

/-- A named command whose result is binary16: its step writes the result into the destination and records nothing. -/
theorem step_of_half_result {s : State} {c : Command} {rest : List Command} {i : Instr} {d : VarNo} {r : Half}
    (hin : commandInputs c s = some (encode i)) (dest : commandDest c = .h d) (out : instrOutputs i = ⟨r, 0, false⟩) :
    ∃ t, step (s.withProgram (c :: rest)) = .next t ∧ t.readH d = some r ∧ t.outs.r16 = r ∧
      (∀ j, j ≠ d → t.readH j = s.readH j) ∧ t.w = s.w ∧ t.faults = s.faults := by
  have block : blockFunction (encode i) = ⟨r, 0, false⟩ := (blockFunction_of_decode (decode_encode i)).trans out
  refine ⟨_, step_of_inputs rfl (by rw [commandInputs_withProgram, hin]), ?_⟩
  rw [dest, block, State.sample_of_not_badOp _ rfl]
  exact ⟨State.writeH_readH_same .., rfl, fun j ne => State.writeH_readH_ne _ _ ne.symm, rfl, rfl⟩

/-- Settles O22: each compound form expands to its command, whose ports spell the operation on `y` and the second operand. -/
theorem compoundAssignment : Obligations.CompoundAssignment := by
  intro s y x rest vy vx hy hx
  have pair : readPair (.var y) x s = some (vy, vx) := by
    have left : readSrc16 (.var y) s = some vy := hy
    rw [readPair, left, hx]
  simp only [List.forall_mem_cons]
  refine ⟨⟨assemble_of_expandLine rfl, ?_⟩, ⟨assemble_of_expandLine rfl, ?_⟩, ⟨assemble_of_expandLine rfl, ?_⟩,
    ⟨assemble_of_expandLine rfl, ?_⟩, nofun⟩
  · exact step_of_half_result (i := .add vy vx) (by simp [commandInputs, pair]) rfl rfl
  · exact step_of_half_result (i := .sub vy vx) (by simp [commandInputs, pair]) rfl rfl
  · exact step_of_half_result (i := .mul vy vx) (by simp [commandInputs, pair]) rfl rfl
  · exact step_of_half_result (i := .div vy vx) (by simp [commandInputs, pair]) rfl rfl

end Sys2Proof.Machine
end

section
/-!
PROOFS. MOV16 (43_raw_bits.md R150): its output is its operand, so the general clause gives every pattern and the corner cases with it.
-/

namespace Sys2Proof.Machine

theorem gives16_mov16 (x : Half) : Gives16 (.mov16 x) x := gives16_of_outputs rfl

/-- Settles O57: code 0x9 selects MOV16 of `in.x`, which drives every pattern as it stands. -/
theorem mov16DrivesItsRule : Obligations.Mov16DrivesItsRule :=
  ⟨fun p code => ⟨by simp [decode, code], gives16_mov16 p.x⟩, gives16_mov16 _, gives16_mov16 _, gives16_mov16 _⟩

end Sys2Proof.Machine
end

section
/-!
PROOFS. Exceptions (60_exceptions.md R160, R161, R164): the one fault a step can record, and that `BadOp` comes only from a raw word
with an unassigned code, which no line of program text spells.
-/

namespace Sys2Proof.Machine

/-- Everything one step can record: nothing, `UnwrittenVariable`, or the `BadOp` of a raw word with an unassigned code. -/
theorem step_faults {s t : State} (h : step s = .next t) :
    t.faults = s.faults ∨ t.faults = s.faults ++ [.unwrittenVariable] ∨
      ∃ p rest, s.prog = .raw p :: rest ∧ 0xA ≤ p.op.toNat ∧ t.faults = s.faults ++ [.badOp p.op] := by
  obtain ⟨-, rfl⟩ | ⟨_, _, -, -, rfl⟩ | ⟨c, rest, p, hprog, hin, rfl⟩ := step_cases h
  · exact .inl rfl
  · exact .inr (.inl rfl)
  · cases bad : (blockFunction p).badOp with
    | false => exact .inl (by simp [State.sample_faults, bad])
    | true =>
      obtain ⟨_, rfl, rfl⟩ | ⟨-, good⟩ := commandInputs_masked hin
      · exact .inr (.inr ⟨p, rest, hprog, (blockFunction_badOp_iff p).mp bad, by simp [State.sample_faults, bad]⟩)
      · exact absurd (good.symm.trans bad) Bool.false_ne_true

/-- Settles O13: each case of `step_faults` keeps the faults before it and adds one at most. -/
theorem faultsAreNeverCleared : Obligations.FaultsAreNeverCleared := by
  intro s t h
  obtain same | added | ⟨p, _, -, -, added⟩ := step_faults h
  · exact .inl same
  · exact .inr ⟨_, added⟩
  · exact .inr ⟨_, added⟩

/-- R73, R161: every command but a raw word spells an operation. -/
theorem wellFormed_of_ne_raw {c : Command} (named : ∀ p, c ≠ .raw p) : c.WellFormed = true := by
  cases c with
  | raw p => exact absurd rfl (named p)
  | _ => rfl

/-- Settles O25: no line spells a raw word, so the step records nothing or `UnwrittenVariable`. -/
theorem programTextNeverRaisesBadOp : Obligations.ProgramTextNeverRaisesBadOp := by
  intro l c text
  have named : ∀ p, c ≠ .raw p := fun p raw => assemble_ne_raw l p (raw ▸ text)
  refine ⟨wellFormed_of_ne_raw named, fun s t rest hprog h code mem => ?_⟩
  obtain same | added | ⟨p, _, hprog', -, -⟩ := step_faults h
  · rwa [same] at mem
  · simpa [added] using mem
  · obtain ⟨raw, -⟩ := List.cons.inj (hprog.symm.trans hprog')
    exact absurd raw (named p)

/-- Settles O17: an unassigned code makes the block's function raise, and sampling records it; an assigned one does not. -/
theorem badOpIsRecorded : Obligations.BadOpIsRecorded := by
  refine ⟨fun s p rest hprog code => ?_, fun s code => ⟨_, evaluate_eq s, ?_⟩⟩
  · rw [step_of_inputs hprog rfl, blockFunction_unassigned code, State.sample_of_badOp _ rfl]
    rfl
  · rw [← Bool.not_eq_true, blockFunction_badOp_iff]
    exact code.not_ge

end Sys2Proof.Machine
end

section
/-!
PROOFS. Reset and boot (70_reset_and_hazards.md R180, R182, R183): no variable holds a value at reset, and a table word that decodes
runs from any state.
-/

namespace Sys2Proof.Machine

/-! ## Reset -/

@[simp] theorem State.reset_readH (j : VarNo) : State.reset.readH j = none := Vector.getElem_replicate _
@[simp] theorem State.reset_readW (j : VarNo) : State.reset.readW j = none := Vector.getElem_replicate _

/-- R180 at the input values of log entry 2, which spell ENC64 of +0. -/
theorem combinational_reset : Combinational State.reset := by
  have zero : enc64 0 = 0 := by decide
  rw [Combinational, blockFunction_of_decode (i := .enc64 0) rfl, instrOutputs, zero]
  rfl

/-- Settles O10: both variable files are empty, the outputs are those of the input ports, and the list of faults is empty. -/
theorem resetLeaves : Obligations.ResetLeaves :=
  ⟨State.reset_readH, State.reset_readW, combinational_reset, rfl⟩

/-! ## A table word -/

/-- R183: the next state exactly. A word that decodes has an assigned code, so sampling records nothing, and a raw command names no
destination, so it writes nothing. -/
theorem step_withFetchWord {nbits w : Nat} {i : Instr} (s : State) (h : decodeTableWord nbits w = some i) :
    step (s.withFetchWord nbits w) = .next { s with ins := Inputs.ofTableWord nbits w, outs := instrOutputs i } := by
  have good : (blockFunction (Inputs.ofTableWord nbits w)).badOp = false := by
    rw [blockFunction_badOp, ← decodeTableWord, h, Option.isNone_some]
  rw [step_of_inputs (s := s.withFetchWord nbits w) rfl rfl, State.sample_of_not_badOp _ good, blockFunction_of_decode h]
  rfl

/-- Settles O15: `step_withFetchWord` gives the next state, and each clause is one of its fields. -/
theorem fetchedWordRuns : Obligations.FetchedWordRuns := fun s _ _ _ h =>
  ⟨_, step_withFetchWord s h, rfl, rfl, rfl, rfl, rfl, rfl⟩

end Sys2Proof.Machine
end

section
/-!
PROOFS. The layout of one command as a word (30_encoding.md Part 2; the places of log entry 6): each port is read back from its own
field, and a word of the full width is a table word that keeps every bit.
-/

namespace Sys2Proof

open BitVec in
/-- The fields of a word neither overlap nor are cut off: a port is the low field once the fields below it are passed, and `y`, with
nothing above it, is what remains. -/
@[simp] theorem Inputs.ofWord_toWord (p : Inputs) : Inputs.ofWord p.toWord = p := by
  obtain ⟨op, a, x, y⟩ := p
  rw [Inputs.ofWord, Inputs.toWord, Inputs.mk.injEq]
  refine ⟨extractLsb'_append_eq_right, ?portA, ?portX, ?portY⟩
  case portA => exact (extractLsb'_append_eq_of_le (by decide)).trans extractLsb'_append_eq_right
  case portX =>
    exact (extractLsb'_append_eq_of_le (by decide)).trans <|
      (extractLsb'_append_eq_of_le (by decide)).trans extractLsb'_append_eq_right
  case portY =>
    exact (extractLsb'_append_eq_of_le (by decide)).trans <|
      (extractLsb'_append_eq_of_le (by decide)).trans extractLsb'_append_eq_left

/-- A table word of all 100 bits is taken whole. -/
@[simp] theorem Inputs.ofTableWord_toNat (w : BitVec 100) : Inputs.ofTableWord 100 w.toNat = Inputs.ofWord w := by
  rw [Inputs.ofTableWord, Nat.mod_eq_of_lt w.isLt, BitVec.ofNat_toNat, BitVec.setWidth_eq]

/-- Settles O1: the word holds the ports that spell the instruction, and the decoder reads the instruction back from those. -/
theorem decodeOfEncodedWord : Obligations.DecodeOfEncodedWord := fun i => calc
  decodeTableWord 100 (encodeWord i).toNat
  _ = decode (Inputs.ofWord (encodeWord i)) := by rw [decodeTableWord, Inputs.ofTableWord_toNat]
  _ = decode (encode i) := by rw [encodeWord, Inputs.ofWord_toWord]
  _ = some i := decode_encode i

end Sys2Proof
end
